-- ==== Sys2Proof/Word.lean ====
section
/-! DEFINITION. The bit-vector types of the block: bytes, 32-bit scalars, 16-bit command words (00_scope.md R7). -/

namespace Sys2Proof

/-- A byte, an integer in 0..255 (R10). -/
abbrev Byte := BitVec 8

/-- A scalar operand or result, 32 bits (R7). -/
abbrev Word := BitVec 32

/-- A command word, 16 bits (R7, R60). -/
abbrev CmdWord := BitVec 16

end Sys2Proof
end

