-- ==== Sys2Proof/Syntax.lean ====
section
/-! DEFINITION. The operations of the block and the command record that carries one
(30_encoding.md R60 to R63). One constructor of `Instr` per row of the opcode table, with exactly the
operands its row uses: an operand an operation does not use is not sampled (R60). -/

namespace Sys2Proof

/-- The four cursor buffers (10_state.md R20): transmit records, transmit frames, receive frames,
receive records. -/
inductive BufId
  | txr
  | txf
  | rxf
  | rxr
deriving DecidableEq, Repr

/-- The command record of R60. An operand that is not named is 0 or the empty string. -/
structure Command where
  cw : CmdWord
  a0 : Word := 0
  a1 : Word := 0
  a2 : Word := 0
  d0 : List Byte := []
  d1 : List Byte := []
deriving DecidableEq, Repr

/-- The 51 operations of the operation map (R62). -/
inductive Instr
  | sysReset
  | cbExtend (b : BufId) (bytes : List Byte)
  | cbAdvance (b : BufId) (n : Word)
  | cbCompact (b : BufId)
  | cbStat (b : BufId)
  | cbDrain (b : BufId) (dcap : Word)
  | frEnc (src : List Byte) (dcap : Word)
  | frDec (src : List Byte) (dcap : Word)
  | frWrite (src : List Byte)
  | frRead (dcap : Word)
  | viWu32 (value : Word)
  | viWi32 (value : Word)
  | viWu1 (value : Word)
  | viWu7 (value : Word)
  | viWi7 (value : Word)
  | viRu32
  | viRi32
  | viRu1
  | viRu7
  | viRi7
  | tlvW8 (tag : Word) (value : List Byte)
  | tlvW16 (tag : Word) (value : List Byte)
  | tlvW32 (tag : Word) (value : List Byte)
  | tlvR8 (dcap : Word)
  | tlvR16 (dcap : Word)
  | tlvR32 (dcap : Word)
  | atlvW8 (tag : Word) (value addr : List Byte)
  | atlvW16 (tag : Word) (value addr : List Byte)
  | atlvW32 (tag : Word) (value addr : List Byte)
  | atlvR8 (dcap acap : Word)
  | atlvR16 (dcap acap : Word)
  | atlvR32 (dcap acap : Word)
  | cpFinish
  | cpLoad
  | cpRead (dcap : Word)
  | cpBoot (payload : List Byte)
  | cpRun (payload : List Byte)
  | cpExit (status : Word)
  | cpException (payload : List Byte)
  | cpPanic (payload : List Byte)
  | cpStdin (payload : List Byte)
  | cpStdout (payload : List Byte)
  | cpStderr (payload : List Byte)
  | cpError (payload : List Byte)
  | cpWarn (payload : List Byte)
  | cpInfo (payload : List Byte)
  | cpDebug (payload : List Byte)
  | cpTrace (payload : List Byte)
  | cpVal (payload : List Byte)
  | cpGet (payload : List Byte)
  | cpSet (payload : List Byte)
deriving DecidableEq, Repr

end Sys2Proof
end

