-- ==== Sys2Proof/WellFormed.lean ====
section
/-! DEFINITION. The one constraint the spec puts on an operand beyond its type: a byte string has a length
below 2^32 (00_scope.md R7, 30_encoding.md R60). Scalars are 32 bits by type. -/

namespace Sys2Proof

/-- A byte-string operand is shorter than 2^32 (R7, R60). -/
def shortString (d : List Byte) : Bool := decide (d.length < 2 ^ 32)

/-- Every byte string the operation samples obeys R60. -/
def Instr.wellFormed : Instr → Bool
  | .sysReset => true
  | .cbExtend _ bytes => shortString bytes
  | .cbAdvance _ _ => true
  | .cbCompact _ => true
  | .cbStat _ => true
  | .cbDrain _ _ => true
  | .frEnc src _ => shortString src
  | .frDec src _ => shortString src
  | .frWrite src => shortString src
  | .frRead _ => true
  | .viWu32 _ => true
  | .viWi32 _ => true
  | .viWu1 _ => true
  | .viWu7 _ => true
  | .viWi7 _ => true
  | .viRu32 => true
  | .viRi32 => true
  | .viRu1 => true
  | .viRu7 => true
  | .viRi7 => true
  | .tlvW8 _ value => shortString value
  | .tlvW16 _ value => shortString value
  | .tlvW32 _ value => shortString value
  | .tlvR8 _ => true
  | .tlvR16 _ => true
  | .tlvR32 _ => true
  | .atlvW8 _ value addr => shortString value && shortString addr
  | .atlvW16 _ value addr => shortString value && shortString addr
  | .atlvW32 _ value addr => shortString value && shortString addr
  | .atlvR8 _ _ => true
  | .atlvR16 _ _ => true
  | .atlvR32 _ _ => true
  | .cpFinish => true
  | .cpLoad => true
  | .cpRead _ => true
  | .cpBoot payload => shortString payload
  | .cpRun payload => shortString payload
  | .cpExit _ => true
  | .cpException payload => shortString payload
  | .cpPanic payload => shortString payload
  | .cpStdin payload => shortString payload
  | .cpStdout payload => shortString payload
  | .cpStderr payload => shortString payload
  | .cpError payload => shortString payload
  | .cpWarn payload => shortString payload
  | .cpInfo payload => shortString payload
  | .cpDebug payload => shortString payload
  | .cpTrace payload => shortString payload
  | .cpVal payload => shortString payload
  | .cpGet payload => shortString payload
  | .cpSet payload => shortString payload

/-- A record is a command of R60: both byte strings are shorter than 2^32. -/
def Command.wellFormed (c : Command) : Bool := shortString c.d0 && shortString c.d1

end Sys2Proof
end

