-- ==== Sys2Proof/Decode.lean ====
section
/-! DEFINITION. The command encoding (30_encoding.md Part A, R60 to R64, R67): the decoder, total on every
command record and rejecting by name, and the encoder written from the same tables. -/

namespace Sys2Proof

/-- Why a command word is illegal (R64). The block answers every one of them alike, `IllegalCommand`
(R201); the names are the model's (log entry 13). -/
inductive DecodeReject
  /-- Format U, a non-zero bit in `cw[7:2]`. -/
  | nonzeroZeroField
  /-- Format U, `cw[1:0]` non-zero outside unit 1. -/
  | selOutsideCb
  /-- Format U, unit 7. -/
  | unassignedUnit
  /-- Format U, a `funct` its unit does not assign. -/
  | unassignedFunct
  /-- Format M, a `tag7` outside the vocabulary of R82 (R63). -/
  | tagOutsideVocabulary
  /-- Format M, a non-zero low byte. -/
  | nonzeroLowByte
deriving DecidableEq, Repr

/-! ## Fields of a command word (R61) -/

/-- `cw[15]`: 0 is format U, 1 is format M. -/
def isMessageFormat (cw : CmdWord) : Bool := cw.getLsbD 15

/-- `unit`, `cw[15:12]` of format U. -/
def unitField (cw : CmdWord) : BitVec 4 := cw.extractLsb' 12 4

/-- `funct`, `cw[11:8]` of format U. -/
def functField (cw : CmdWord) : BitVec 4 := cw.extractLsb' 8 4

/-- `zero`, `cw[7:2]` of format U. -/
def zeroField (cw : CmdWord) : BitVec 6 := cw.extractLsb' 2 6

/-- `sel`, `cw[1:0]` of format U. -/
def selField (cw : CmdWord) : BitVec 2 := cw.extractLsb' 0 2

/-- `tag7`, `cw[14:8]` of format M. -/
def tagField (cw : CmdWord) : BitVec 7 := cw.extractLsb' 8 7

/-- `zero`, `cw[7:0]` of format M. -/
def lowByteField (cw : CmdWord) : BitVec 8 := cw.extractLsb' 0 8

/-- The buffer a `sel` field names (R67). -/
def bufOfSel (sel : BitVec 2) : BufId :=
  match sel.toNat with
  | 0 => .txr
  | 1 => .txf
  | 2 => .rxf
  | _ => .rxr

/-- The `sel` field that names a buffer (R67). -/
def selOfBuf : BufId → BitVec 2
  | .txr => 0b00#2
  | .txf => 0b01#2
  | .rxf => 0b10#2
  | .rxr => 0b11#2

/-! ## The decoder -/

/-- Unit 0, SYS (R62). -/
def decodeSys (funct : Nat) : Except DecodeReject Instr :=
  match funct with
  | 0x0 => .ok .sysReset
  | _ => .error .unassignedFunct

/-- Unit 1, CB (R62, R67). -/
def decodeCb (funct : Nat) (b : BufId) (c : Command) : Except DecodeReject Instr :=
  match funct with
  | 0x0 => .ok (.cbExtend b c.d0)
  | 0x1 => .ok (.cbAdvance b c.a0)
  | 0x2 => .ok (.cbCompact b)
  | 0x3 => .ok (.cbStat b)
  | 0x4 => .ok (.cbDrain b c.a1)
  | _ => .error .unassignedFunct

/-- Unit 2, FR (R62). -/
def decodeFr (funct : Nat) (c : Command) : Except DecodeReject Instr :=
  match funct with
  | 0x0 => .ok (.frEnc c.d0 c.a1)
  | 0x1 => .ok (.frDec c.d0 c.a1)
  | 0x2 => .ok (.frWrite c.d0)
  | 0x3 => .ok (.frRead c.a1)
  | _ => .error .unassignedFunct

/-- Unit 3, VI (R62). -/
def decodeVi (funct : Nat) (c : Command) : Except DecodeReject Instr :=
  match funct with
  | 0x0 => .ok (.viWu32 c.a0)
  | 0x1 => .ok (.viWi32 c.a0)
  | 0x2 => .ok (.viWu1 c.a0)
  | 0x3 => .ok (.viWu7 c.a0)
  | 0x4 => .ok (.viWi7 c.a0)
  | 0x8 => .ok .viRu32
  | 0x9 => .ok .viRi32
  | 0xA => .ok .viRu1
  | 0xB => .ok .viRu7
  | 0xC => .ok .viRi7
  | _ => .error .unassignedFunct

/-- Unit 4, TLV (R62). -/
def decodeTlv (funct : Nat) (c : Command) : Except DecodeReject Instr :=
  match funct with
  | 0x0 => .ok (.tlvW8 c.a0 c.d0)
  | 0x1 => .ok (.tlvW16 c.a0 c.d0)
  | 0x2 => .ok (.tlvW32 c.a0 c.d0)
  | 0x8 => .ok (.tlvR8 c.a1)
  | 0x9 => .ok (.tlvR16 c.a1)
  | 0xA => .ok (.tlvR32 c.a1)
  | _ => .error .unassignedFunct

/-- Unit 5, ATLV (R62). -/
def decodeAtlv (funct : Nat) (c : Command) : Except DecodeReject Instr :=
  match funct with
  | 0x0 => .ok (.atlvW8 c.a0 c.d0 c.d1)
  | 0x1 => .ok (.atlvW16 c.a0 c.d0 c.d1)
  | 0x2 => .ok (.atlvW32 c.a0 c.d0 c.d1)
  | 0x8 => .ok (.atlvR8 c.a1 c.a2)
  | 0x9 => .ok (.atlvR16 c.a1 c.a2)
  | 0xA => .ok (.atlvR32 c.a1 c.a2)
  | _ => .error .unassignedFunct

/-- Unit 6, CP (R62). -/
def decodeCp (funct : Nat) (c : Command) : Except DecodeReject Instr :=
  match funct with
  | 0x0 => .ok .cpFinish
  | 0x1 => .ok .cpLoad
  | 0x2 => .ok (.cpRead c.a1)
  | _ => .error .unassignedFunct

/-- Format U (R61, R62, R64). -/
def decodeUnitFormat (c : Command) : Except DecodeReject Instr :=
  let unit := (unitField c.cw).toNat
  let funct := (functField c.cw).toNat
  if zeroField c.cw ≠ 0#6 then .error .nonzeroZeroField
  else if unit ≠ 1 ∧ selField c.cw ≠ 0#2 then .error .selOutsideCb
  else
    match unit with
    | 0 => decodeSys funct
    | 1 => decodeCb funct (bufOfSel (selField c.cw)) c
    | 2 => decodeFr funct c
    | 3 => decodeVi funct c
    | 4 => decodeTlv funct c
    | 5 => decodeAtlv funct c
    | 6 => decodeCp funct c
    | _ => .error .unassignedUnit

/-- Format M: the control message whose wire tag is `tag7` (R61, R63, R82). -/
def decodeMessageFormat (c : Command) : Except DecodeReject Instr :=
  if lowByteField c.cw ≠ 0#8 then .error .nonzeroLowByte
  else
    match (tagField c.cw).toNat with
    | 0x01 => .ok (.cpBoot c.d0)
    | 0x02 => .ok (.cpRun c.d0)
    | 0x03 => .ok (.cpExit c.a0)
    | 0x04 => .ok (.cpException c.d0)
    | 0x05 => .ok (.cpPanic c.d0)
    | 0x10 => .ok (.cpStdin c.d0)
    | 0x11 => .ok (.cpStdout c.d0)
    | 0x12 => .ok (.cpStderr c.d0)
    | 0x20 => .ok (.cpError c.d0)
    | 0x21 => .ok (.cpWarn c.d0)
    | 0x22 => .ok (.cpInfo c.d0)
    | 0x23 => .ok (.cpDebug c.d0)
    | 0x24 => .ok (.cpTrace c.d0)
    | 0x30 => .ok (.cpVal c.d0)
    | 0x31 => .ok (.cpGet c.d0)
    | 0x32 => .ok (.cpSet c.d0)
    | _ => .error .tagOutsideVocabulary

/-- The operation a command record selects, with the operands that operation samples (R60 to R64). -/
def decode (c : Command) : Except DecodeReject Instr :=
  if isMessageFormat c.cw then decodeMessageFormat c else decodeUnitFormat c

/-! ## The encoder -/

/-- A format U command word: `unit`, `funct`, six zero bits, `sel` (R61). -/
def formatU (unit funct : BitVec 4) (sel : BitVec 2) : CmdWord := unit ++ funct ++ 0#6 ++ sel

/-- A format M command word: a one, `tag7`, a zero byte (R61). -/
def formatM (tag7 : BitVec 7) : CmdWord := 1#1 ++ tag7 ++ 0#8

/-- The command record that carries an operation; the operands it does not use are 0 or empty (R62). -/
def encode : Instr → Command
  | .sysReset => { cw := formatU 0#4 0x0#4 0#2 }
  | .cbExtend b bytes => { cw := formatU 1#4 0x0#4 (selOfBuf b), d0 := bytes }
  | .cbAdvance b n => { cw := formatU 1#4 0x1#4 (selOfBuf b), a0 := n }
  | .cbCompact b => { cw := formatU 1#4 0x2#4 (selOfBuf b) }
  | .cbStat b => { cw := formatU 1#4 0x3#4 (selOfBuf b) }
  | .cbDrain b dcap => { cw := formatU 1#4 0x4#4 (selOfBuf b), a1 := dcap }
  | .frEnc src dcap => { cw := formatU 2#4 0x0#4 0#2, d0 := src, a1 := dcap }
  | .frDec src dcap => { cw := formatU 2#4 0x1#4 0#2, d0 := src, a1 := dcap }
  | .frWrite src => { cw := formatU 2#4 0x2#4 0#2, d0 := src }
  | .frRead dcap => { cw := formatU 2#4 0x3#4 0#2, a1 := dcap }
  | .viWu32 value => { cw := formatU 3#4 0x0#4 0#2, a0 := value }
  | .viWi32 value => { cw := formatU 3#4 0x1#4 0#2, a0 := value }
  | .viWu1 value => { cw := formatU 3#4 0x2#4 0#2, a0 := value }
  | .viWu7 value => { cw := formatU 3#4 0x3#4 0#2, a0 := value }
  | .viWi7 value => { cw := formatU 3#4 0x4#4 0#2, a0 := value }
  | .viRu32 => { cw := formatU 3#4 0x8#4 0#2 }
  | .viRi32 => { cw := formatU 3#4 0x9#4 0#2 }
  | .viRu1 => { cw := formatU 3#4 0xA#4 0#2 }
  | .viRu7 => { cw := formatU 3#4 0xB#4 0#2 }
  | .viRi7 => { cw := formatU 3#4 0xC#4 0#2 }
  | .tlvW8 tag value => { cw := formatU 4#4 0x0#4 0#2, a0 := tag, d0 := value }
  | .tlvW16 tag value => { cw := formatU 4#4 0x1#4 0#2, a0 := tag, d0 := value }
  | .tlvW32 tag value => { cw := formatU 4#4 0x2#4 0#2, a0 := tag, d0 := value }
  | .tlvR8 dcap => { cw := formatU 4#4 0x8#4 0#2, a1 := dcap }
  | .tlvR16 dcap => { cw := formatU 4#4 0x9#4 0#2, a1 := dcap }
  | .tlvR32 dcap => { cw := formatU 4#4 0xA#4 0#2, a1 := dcap }
  | .atlvW8 tag value addr => { cw := formatU 5#4 0x0#4 0#2, a0 := tag, d0 := value, d1 := addr }
  | .atlvW16 tag value addr => { cw := formatU 5#4 0x1#4 0#2, a0 := tag, d0 := value, d1 := addr }
  | .atlvW32 tag value addr => { cw := formatU 5#4 0x2#4 0#2, a0 := tag, d0 := value, d1 := addr }
  | .atlvR8 dcap acap => { cw := formatU 5#4 0x8#4 0#2, a1 := dcap, a2 := acap }
  | .atlvR16 dcap acap => { cw := formatU 5#4 0x9#4 0#2, a1 := dcap, a2 := acap }
  | .atlvR32 dcap acap => { cw := formatU 5#4 0xA#4 0#2, a1 := dcap, a2 := acap }
  | .cpFinish => { cw := formatU 6#4 0x0#4 0#2 }
  | .cpLoad => { cw := formatU 6#4 0x1#4 0#2 }
  | .cpRead dcap => { cw := formatU 6#4 0x2#4 0#2, a1 := dcap }
  | .cpBoot payload => { cw := formatM 0x01#7, d0 := payload }
  | .cpRun payload => { cw := formatM 0x02#7, d0 := payload }
  | .cpExit status => { cw := formatM 0x03#7, a0 := status }
  | .cpException payload => { cw := formatM 0x04#7, d0 := payload }
  | .cpPanic payload => { cw := formatM 0x05#7, d0 := payload }
  | .cpStdin payload => { cw := formatM 0x10#7, d0 := payload }
  | .cpStdout payload => { cw := formatM 0x11#7, d0 := payload }
  | .cpStderr payload => { cw := formatM 0x12#7, d0 := payload }
  | .cpError payload => { cw := formatM 0x20#7, d0 := payload }
  | .cpWarn payload => { cw := formatM 0x21#7, d0 := payload }
  | .cpInfo payload => { cw := formatM 0x22#7, d0 := payload }
  | .cpDebug payload => { cw := formatM 0x23#7, d0 := payload }
  | .cpTrace payload => { cw := formatM 0x24#7, d0 := payload }
  | .cpVal payload => { cw := formatM 0x30#7, d0 := payload }
  | .cpGet payload => { cw := formatM 0x31#7, d0 := payload }
  | .cpSet payload => { cw := formatM 0x32#7, d0 := payload }

/-! ## Words as the opcode table numbers them -/

/-- The command record whose command word has the bits of `w` and whose operands are all 0 or empty. The
table numbers bit 0 of `cw` as bit 0 (opcode_table.json), and a command is not stored in any memory
(R54), so there is no byte order to apply. -/
def commandOfTableWord (w : Nat) : Command := { cw := BitVec.ofNat 16 w }

/-- What the decoder reads from a table word. A command word has 16 bits, so a number with a higher bit set
is no command word and is refused (log entry 10). -/
def decodeTableWord (nbits w : Nat) : Option Instr :=
  if nbits ≤ 16 ∧ w < 2 ^ 16 then
    match decode (commandOfTableWord w) with
    | .ok i => some i
    | .error _ => none
  else none

end Sys2Proof
end

