-- ==== Sys2Proof/Config.lean ====
section
/-! DEFINITION. What an implementation of the block fixes at build time: the four buffer capacities
(00_scope.md R5, R6). The spec leaves all four OPEN, so the constants have no body (log entry 4). -/

namespace Sys2Proof

/-- The four capacity parameters, in bytes (R5). -/
structure Capacities where
  txr : Nat
  txf : Nat
  rxf : Nat
  rxr : Nat
deriving DecidableEq, Repr

/-- `1 <= CAP[b] <= 2^32 - 1` for one capacity (R6). -/
abbrev capacityInRange (n : Nat) : Prop := 1 ≤ n ∧ n ≤ 2 ^ 32 - 1

/-- R6 for all four capacities. No relation between them is required. -/
abbrev Capacities.wf (c : Capacities) : Prop :=
  capacityInRange c.txr ∧ capacityInRange c.txf ∧ capacityInRange c.rxf ∧ capacityInRange c.rxr

/-- `TXR_CAP - 1`. OPEN (R5, D3): nothing is known of it but the range of R6. Log entry 4. -/
opaque Config.txrCapLessOne : Fin 4294967295

/-- `TXF_CAP - 1`. OPEN (R5, D3). Log entry 4. -/
opaque Config.txfCapLessOne : Fin 4294967295

/-- `RXF_CAP - 1`. OPEN (R5, D3). Log entry 4. -/
opaque Config.rxfCapLessOne : Fin 4294967295

/-- `RXR_CAP - 1`. OPEN (R5, D3). Log entry 4. -/
opaque Config.rxrCapLessOne : Fin 4294967295

/-- The capacities of the block at hand. -/
def Config.capacities : Capacities where
  txr := Config.txrCapLessOne.val + 1
  txf := Config.txfCapLessOne.val + 1
  rxf := Config.rxfCapLessOne.val + 1
  rxr := Config.rxrCapLessOne.val + 1

end Sys2Proof
end

