-- ==== Sys2Proof/Machine/State.lean ====
section
/-! DEFINITION. The state of the block (10_state.md R20 to R33), its channels to the host (30_encoding.md R60,
R65, R66), and the two ways a step can stop. -/

namespace Sys2Proof.Machine

/-! ## Buffer memory and cursors -/

/-- The byte array of one cursor buffer (20_memory.md R40), as the list of its bytes that are not 0x00, by
rising offset. An unlisted offset reads as `unlistedByte`. -/
abbrev Memory := List Host.Cell

/-- What an offset that the list does not name reads as. The spec leaves the bytes of a buffer after reset
unspecified (R32) and no operation reads one before it is written (R28). DESIGN CHOICE, unsafe: log entry 6. -/
def unlistedByte : Byte := 0#8

/-- The canonical form: offsets strictly rising, no byte listed that an unlisted offset would read as. -/
def Memory.wf : Memory → Bool
  | [] => true
  | (_, v) :: [] => decide (v ≠ unlistedByte)
  | (k, v) :: (k', v') :: rest =>
    decide (v ≠ unlistedByte) && decide (k < k') && Memory.wf ((k', v') :: rest)

/-- A cursor buffer: a byte array and the offsets `head` (next unread byte) and `tail` (next writable byte),
R21. Its capacity is a parameter, not part of it (R31): `State.caps`. -/
structure CursorBuffer where
  mem : Memory := []
  head : Nat := 0
  tail : Nat := 0
deriving DecidableEq, Repr

/-! ## Responses -/

/-- The statuses of an operation (60_exceptions.md R210, R211). Their 8-bit codes are `statusCode`. -/
inductive Status
  | ok
  | incomplete
  | bufferTooShort
  | destTooShort
  | sourceTooShort
  | unexpectedNull
  | missingTerminator
  | invalidEncoding
  | outOfRange
  | unknownTag
  | illegalCommand
deriving DecidableEq, Repr

/-- The response record (30_encoding.md R65). A field that an operation does not name is 0 or the empty
string (R14, R65). -/
structure Response where
  status : Status
  r0 : Word := 0
  r1 : Word := 0
  r2 : Word := 0
  q0 : List Byte := []
  q1 : List Byte := []
deriving DecidableEq, Repr

/-- What the host can do to the block: present a command, or apply the reset input (R66, R240). -/
inductive Input
  | command (c : Command)
  | reset
deriving DecidableEq, Repr

/-! ## The state -/

/-- The state of the block. `txr` to `resync` are its whole architectural state (R20). `caps` holds the build
time parameters (R5), which no operation writes (log entry 4). `pending` and `responses` are the channels
to the host: what it will present, oldest first, and what it has been answered, oldest first (R66; log
entry 1). -/
structure State where
  txr : CursorBuffer
  txf : CursorBuffer
  rxf : CursorBuffer
  rxr : CursorBuffer
  resync : Bool
  caps : Capacities
  pending : List Input
  responses : List Response
deriving DecidableEq, Repr

/-- The state right after reset (R32, R241): eight cursors at 0 and `RESYNC = 0`. The bytes are unspecified
there (log entry 6); the channels are empty (log entry 1); the capacities are whatever the block was
built with (log entry 4). -/
def State.reset : State where
  txr := {}
  txf := {}
  rxf := {}
  rxr := {}
  resync := false
  caps := Config.capacities
  pending := []
  responses := []

/-! ## Stops -/

/-- Why a step can stop with a fault. The spec's own errors are statuses of a response, "never uncaught
faults" (R9, R210), so no meaning of an instruction answers with one. -/
inductive Fault
  /-- Raised by `step` alone, in a state where some buffer's cursors do not satisfy
  `head <= tail <= capacity`. R21 and R33 (I1) say the block is never in such a state, and no run from a
  state that satisfies it reaches one. Safe. Log entry 9. -/
  | cursorOutOfBounds
deriving DecidableEq, Repr

/-- Why a step can refuse what it is given. -/
inductive Refusal
  /-- Raised by an arm of `exec` whose instruction has no meaning in this model. Safe. No arm raises it. -/
  | notModelled (mnemonic : String)
  /-- Raised by `step` alone, when the record presented has a byte-string operand of 2^32 bytes or more that
  its operation would sample: such a record is no command by R60, and the spec gives it no effect. Safe.
  Log entry 8. -/
  | operandTooLong
deriving DecidableEq, Repr

/-- What a step, and the meaning of an instruction, answers. -/
abbrev Answer := Host.Outcome State Fault Refusal

end Sys2Proof.Machine
end

