-- ==== Sys2Proof/Machine/Channel.lean ====
section
/-! DEFINITION. The command channel as the host drives it (30_encoding.md R60, R66; log entries 1 and 7). -/

namespace Sys2Proof.Machine

/-- What the host is going to present becomes `rest`: an input has been taken off the channel (R66 (iii)). -/
def State.withPending (s : State) (rest : List Input) : State := { s with pending := rest }

/-- The host presents a command ahead of whatever else it is going to present. -/
def State.present (s : State) (c : Command) : State := s.withPending (.command c :: s.pending)

/-- The host pulls the reset input before whatever else it is going to present (R240). -/
def State.pullReset (s : State) : State := s.withPending (.reset :: s.pending)

/-- The response the host received last, if any (R66 (ii)). -/
def State.lastResponse (s : State) : Option Response := s.responses.getLast?

end Sys2Proof.Machine
end

