-- ==== Sys2Proof/Machine/Bits.lean ====
section
/-! DEFINITION. Number and byte-order helpers of 00_scope.md R10, R11 and 20_memory.md R43. -/

namespace Sys2Proof.Machine

/-- The byte of value `n mod 256`. -/
def byteOf (n : Nat) : Byte := BitVec.ofNat 8 n

/-- The scalar of value `n mod 2^32`. -/
def wordOf (n : Nat) : Word := BitVec.ofNat 32 n

/-- `u32(x)` of R10: `x mod 2^32`. -/
def u32 (x : Int) : Word := BitVec.ofInt 32 x

/-- `s32(p)` of R10: the signed integer whose two's-complement pattern `p` is. -/
abbrev s32 (p : Word) : Int := p.toInt

/-- `sext_n(v)` of R10, for a field `v` of `n` bits. -/
def sext (n v : Nat) : Int :=
  if v / 2 ^ (n - 1) % 2 = 1 then (v : Int) - 2 ^ n else v

/-- `asr(v, 7)` of R10: `floor(v / 2^7)`. -/
abbrev asr7 (v : Int) : Int := v / 128

/-- `bitlen(x)` of R10: the number of bits needed to write a byte. -/
def bitlen (x : Byte) : Nat := if x = 0#8 then 0 else Nat.log2 x.toNat + 1

/-- `b[6:0]`, as a number. -/
def low7 (b : Byte) : Nat := b.toNat % 128

/-- `b[7]`. -/
def topBit (b : Byte) : Bool := b.getLsbD 7

/-- The `count` bytes of `be_N(n)`, most significant first (R11, R43), `count` being `N/8`. -/
def beBytes : Nat → Nat → List Byte
  | 0, _ => []
  | count + 1, n => byteOf (n / 256 ^ count) :: beBytes count n

/-- `from_be(s)` of R11. -/
def fromBe : List Byte → Nat
  | [] => 0
  | b :: rest => b.toNat * 256 ^ rest.length + fromBe rest

end Sys2Proof.Machine
end

