-- ==== Sys2Proof/Machine/Ops.lean ====
section
/-! DEFINITION. The named operations every unit is built from: reading and writing buffer memory, moving
cursors, and ending an operation with a status (20_memory.md R40 to R42, 40_cursor_buffer.md R100, R106,
00_scope.md R14, 60_exceptions.md R210). -/

namespace Sys2Proof.Machine

/-! ## Buffer memory -/

/-- The byte at one offset. -/
def memRead : Memory → Nat → Byte
  | [], _ => unlistedByte
  | (k, v) :: rest, i => if k = i then v else memRead rest i

/-- Store one byte, keeping the canonical form. -/
def memWrite : Memory → Nat → Byte → Memory
  | [], i, v => if v = unlistedByte then [] else [(i, v)]
  | (k, w) :: rest, i, v =>
    if k < i then (k, w) :: memWrite rest i v
    else if k = i then (if v = unlistedByte then rest else (i, v) :: rest)
    else if v = unlistedByte then (k, w) :: rest
    else (i, v) :: (k, w) :: rest

/-- `MemRead(b, i, n)` of R42: `n` bytes from offset `i`. -/
def memReadBytes (m : Memory) : Nat → Nat → List Byte
  | _, 0 => []
  | i, n + 1 => memRead m i :: memReadBytes m (i + 1) n

/-- `MemWrite(b, i, s)` of R42: the bytes of `s` from offset `i`. -/
def memWriteBytes : Memory → Nat → List Byte → Memory
  | m, _, [] => m
  | m, i, v :: rest => memWriteBytes (memWrite m i v) (i + 1) rest

/-! ## The four buffers of a state -/

/-- `B[b]` (R12). -/
def State.buf (s : State) : BufId → CursorBuffer
  | .txr => s.txr
  | .txf => s.txf
  | .rxf => s.rxf
  | .rxr => s.rxr

/-- `B[b] <- c`, the other buffers as they were. -/
def State.setBuf (s : State) (b : BufId) (c : CursorBuffer) : State :=
  match b with
  | .txr => { s with txr := c }
  | .txf => { s with txf := c }
  | .rxf => { s with rxf := c }
  | .rxr => { s with rxr := c }

/-- `CAP[b]` (R5). -/
def State.cap (s : State) : BufId → Nat
  | .txr => s.caps.txr
  | .txf => s.caps.txf
  | .rxf => s.caps.rxf
  | .rxr => s.caps.rxr

/-! ## Derived quantities of a buffer (R23) -/

/-- `remaining(b) = tail - head`. -/
def remaining (c : CursorBuffer) : Nat := c.tail - c.head

/-- `window(b)`: the unread valid bytes. -/
def window (c : CursorBuffer) : List Byte := memReadBytes c.mem c.head (remaining c)

/-- `space(b) = CAP[b] - tail`: how many bytes can still be appended. -/
def State.space (s : State) (b : BufId) : Nat := s.cap b - (s.buf b).tail

/-- `head <= tail <= CAP[b]` for all four buffers: R33 (I1). -/
def State.cursorsInBounds (s : State) : Bool :=
  [BufId.txr, .txf, .rxf, .rxr].all fun b =>
    Nat.ble (s.buf b).head (s.buf b).tail && Nat.ble (s.buf b).tail (s.cap b)

/-! ## Moving bytes and cursors -/

/-- Both cursors to 0; the bytes stay and become dead (R28, R103, R189, R200). -/
def resetCursors (c : CursorBuffer) : CursorBuffer := { c with head := 0, tail := 0 }

/-- Write bytes at `tail` and move `tail` past them: the effect of a successful `Append` (R100). -/
def appendBytes (c : CursorBuffer) (bytes : List Byte) : CursorBuffer :=
  { c with mem := memWriteBytes c.mem c.tail bytes, tail := c.tail + bytes.length }

/-- `Append(b, s)` of R100; none is `BufferTooShort`. The check comes before any byte is written. -/
def append (s : State) (b : BufId) (bytes : List Byte) : Option State :=
  if bytes.length > s.space b then none else some (s.setBuf b (appendBytes (s.buf b) bytes))

/-- `Consume(b, n)` of R106. -/
def consume (s : State) (b : BufId) (n : Nat) : State :=
  s.setBuf b { s.buf b with head := (s.buf b).head + n }

/-- Replace the content of a buffer by a string at offset 0: the reload of R41 (c) and R190. -/
def reload (c : CursorBuffer) (bytes : List Byte) : CursorBuffer :=
  { mem := memWriteBytes c.mem 0 bytes, head := 0, tail := bytes.length }

/-! ## Ending an operation -/

/-- The 8-bit code of a status (R211). -/
def statusCode : Status → Byte
  | .ok => 0x00#8
  | .incomplete => 0x01#8
  | .bufferTooShort => 0x10#8
  | .destTooShort => 0x11#8
  | .sourceTooShort => 0x12#8
  | .unexpectedNull => 0x20#8
  | .missingTerminator => 0x21#8
  | .invalidEncoding => 0x22#8
  | .outOfRange => 0x30#8
  | .unknownTag => 0x40#8
  | .illegalCommand => 0xF0#8

/-- The block's counterpart of taking an exception (R14, R210, R227): nothing is saved and no mode changes;
the operation ends with a status and default results. -/
def failWith (st : Status) : Response := { status := st }

/-- Send a response on the response channel (R66 (ii)). -/
def State.respond (s : State) (r : Response) : State := { s with responses := s.responses ++ [r] }

/-- End an operation (R14): from the state it leaves and the response it gives, the next state of the block,
the response on the response channel. Every operation ends so (R9, R210). -/
def complete (result : State × Response) : Answer :=
  .next (result.1.respond result.2)

/-- The common shape of every operation that appends to a buffer: a string is built or a status says why not,
and it is appended whole or not at all; `r0` is its length (R101, R118, R135 to R139, R153 to R155, R161 to
R163, R173 to R188). -/
def appendResult (s : State) (b : BufId) (built : Except Status (List Byte)) : State × Response :=
  match built with
  | .error e => (s, failWith e)
  | .ok bytes =>
    match append s b bytes with
    | none => (s, failWith .bufferTooShort)
    | some s' => (s', { status := .ok, r0 := wordOf bytes.length })

/-- The common shape of every operation that parses a record from `window(RXR)`: a status and no mutation, or
`n` bytes consumed and a response (R140 to R144, R156 to R158, R164 to R166, R191). -/
def consumeResult (s : State) (parsed : Except Status (Nat × Response)) : State × Response :=
  match parsed with
  | .error e => (s, failWith e)
  | .ok (n, r) => (consume s .rxr n, r)

end Sys2Proof.Machine
end

