-- ==== Sys2Proof/Machine/Operands.lean ====
section
/-! DEFINITION. The forms in which an operation reads its operands (30_encoding.md R60, R62) and the operand
checks of the narrow forms and of `CP.EXIT` (42_varint.md R137 to R139, 44_control_protocol.md R175). -/

namespace Sys2Proof.Machine

/-- A scalar operand as an unsigned number: a value, tag, count or capacity (R60). -/
abbrev unsignedOperand (a : Word) : Nat := a.toNat

/-- A scalar operand as a signed number (R60). -/
abbrev signedOperand (a : Word) : Int := s32 a

/-- The one byte `VI.WU1` appends: `a0` must be 0 or 1 (R137). -/
def u1Operand (a : Word) : Except Status (List Byte) :=
  if unsignedOperand a > 1 then .error .outOfRange else .ok [byteOf (unsignedOperand a)]

/-- The one byte `VI.WU7` appends: `a0` must be below 128 (R138). -/
def u7Operand (a : Word) : Except Status (List Byte) :=
  if unsignedOperand a > 127 then .error .outOfRange else .ok [byteOf (unsignedOperand a)]

/-- The one byte `VI.WI7` appends: `a0`, read as signed, must be in -64..63; the byte is `a0[6:0]` (R139). -/
def i7Operand (a : Word) : Except Status (List Byte) :=
  if signedOperand a < -64 ∨ signedOperand a > 63 then .error .outOfRange
  else .ok [byteOf (unsignedOperand a % 128)]

/-- The status byte of `CP.EXIT`: `a0` must fit one byte; it is rejected, not truncated (R175). -/
def exitOperand (a : Word) : Except Status (List Byte) :=
  if unsignedOperand a > 255 then .error .outOfRange else .ok [byteOf (unsignedOperand a)]

/-- `b` of the narrow `u1` form: bits 7 to 1 must be clear (R76, R142). -/
def u1Byte (b : Byte) : Except Status Word :=
  if b.toNat / 2 ≠ 0 then .error .outOfRange else .ok (wordOf b.toNat)

/-- `b` of the narrow `u7` form: bit 7 must be clear (R76, R143). -/
def u7Byte (b : Byte) : Except Status Word :=
  if topBit b then .error .outOfRange else .ok (wordOf b.toNat)

/-- `b` of the narrow `i7` form: bit 7 must be clear; bit 6 is the sign (R76, R144). -/
def i7Byte (b : Byte) : Except Status Word :=
  if topBit b then .error .outOfRange else .ok (u32 (sext 7 (low7 b)))

/-- The first byte of `window(RXR)` read in a narrow form: `Incomplete` when there is none (R142 to R144). -/
def narrowRead (form : Byte → Except Status Word) (w : List Byte) : Except Status (Nat × Response) :=
  match w with
  | [] => .error .incomplete
  | b :: _ =>
    match form b with
    | .error e => .error e
    | .ok v => .ok (1, { status := .ok, r0 := v, r1 := 1#32 })

end Sys2Proof.Machine
end

