-- ==== Sys2Proof/Machine/Varint.lean ====
section
/-! DEFINITION. The variable-length integer codec as pure functions (42_varint.md R130 to R134; wire format
30_encoding.md R73 to R77). -/

namespace Sys2Proof.Machine

/-! ## Encoding -/

/-- The loop of R130, at most `fuel + 1` groups. -/
def lebUGroups : Nat → Nat → List Byte
  | 0, v => [byteOf (v % 128)]
  | fuel + 1, v =>
    if v / 128 = 0 then [byteOf (v % 128)]
    else byteOf (0x80 + v % 128) :: lebUGroups fuel (v / 128)

/-- `leb_u(v)` of R130. A value below 2^32 has at most 5 groups. -/
def lebU (v : Nat) : List Byte := lebUGroups 4 v

/-- The loop of R131, at most `fuel + 1` groups: stop when the rest is all 0 with bit 6 of the group clear,
or all 1 with bit 6 set. -/
def lebSGroups : Nat → Int → List Byte
  | 0, v => [byteOf (v % 128).toNat]
  | fuel + 1, v =>
    let g := (v % 128).toNat
    let rest := asr7 v
    if (rest = 0 ∧ g < 64) ∨ (rest = -1 ∧ 64 ≤ g) then [byteOf g]
    else byteOf (0x80 + g) :: lebSGroups fuel rest

/-- `leb_s(v)` of R131. A value in `-2^31 .. 2^31 - 1` has at most 5 groups. -/
def lebS (v : Int) : List Byte := lebSGroups 4 v

/-! ## Decoding -/

/-- `varint_len(w)` of R132: one more than the least index of a byte with bit 7 clear; none is `Incomplete`.
The scan is not bounded (D16). -/
def varintLen : List Byte → Option Nat
  | [] => none
  | b :: rest => if topBit b then (varintLen rest).map (· + 1) else some 1

/-- `P` of R74: the sum of `w[j][6:0] * 2^(7j)` over the bytes of `w`. -/
def groupSum : List Byte → Nat
  | [] => 0
  | b :: rest => low7 b + 128 * groupSum rest

/-- `dec_u32(w)` of R133: the value and the number of bytes it takes. -/
def decU32 (w : List Byte) : Except Status (Nat × Nat) :=
  match varintLen w with
  | none => .error .incomplete
  | some k =>
    if 7 * (k - 1) + bitlen (w.getD (k - 1) 0#8) > 32 then .error .outOfRange
    else .ok (groupSum (w.take k), k)

/-- `w[4][6:3]` is `0b0000` or `0b1111` (R75): the top bits of a 5-byte signed varint repeat its sign. -/
def signBitsAgree (last : Byte) : Bool :=
  last.extractLsb' 3 4 = 0b0000#4 || last.extractLsb' 3 4 = 0b1111#4

/-- `dec_i32(w)` of R134: the value and the number of bytes it takes. -/
def decI32 (w : List Byte) : Except Status (Int × Nat) :=
  match varintLen w with
  | none => .error .incomplete
  | some k =>
    if k ≥ 6 then .error .outOfRange
    else if k = 5 ∧ signBitsAgree (w.getD 4 0#8) = false then .error .outOfRange
    else
      let p := groupSum (w.take k)
      if k ≤ 4 then .ok (sext (7 * k) p, k) else .ok (s32 (wordOf p), k)

end Sys2Proof.Machine
end

