-- ==== Sys2Proof/Machine/Records.lean ====
section
/-! DEFINITION. TLV and address-TLV records as pure functions (43_tlv.md R150 to R152, R159, R160; wire format
30_encoding.md R78 to R80) and the control vocabulary (R82, 44_control_protocol.md R170 to R172). -/

namespace Sys2Proof.Machine

/-! ## TLV and address-TLV -/

/-- The width `N` of a length field (R78): 8, 16 or 32 bits. -/
inductive LenWidth
  | w8
  | w16
  | w32
deriving DecidableEq, Repr

/-- `N/8`: how many bytes a length field takes. -/
def lenBytes : LenWidth → Nat
  | .w8 => 1
  | .w16 => 2
  | .w32 => 4

/-- `2^N - 1`: the largest length the field can hold (R150). -/
def maxLen (n : LenWidth) : Nat := 256 ^ lenBytes n - 1

/-- `be_N(length)` (R43, R78). -/
def lenField (n : LenWidth) (length : Nat) : List Byte := beBytes (lenBytes n) length

/-- `tlv_enc(N, tag, value)` of R151. -/
def tlvEnc (n : LenWidth) (tag : Nat) (value : List Byte) : Except Status (List Byte) :=
  if value.length > maxLen n then .error .outOfRange
  else .ok (lebU tag ++ lenField n value.length ++ value)

/-- `atlv_enc(N, addr, tag, value)` of R159: the address length is checked first. -/
def atlvEnc (n : LenWidth) (addr : List Byte) (tag : Nat) (value : List Byte) :
    Except Status (List Byte) :=
  if addr.length > maxLen n then .error .outOfRange
  else
    match tlvEnc n tag value with
    | .error e => .error e
    | .ok t => .ok (lenField n addr.length ++ addr ++ t)

/-- A record that has been parsed: its parts and the number of bytes it took. A TLV record has no address. -/
structure ParsedRecord where
  tag : Nat
  value : List Byte
  addr : List Byte := []
  consumed : Nat
deriving DecidableEq, Repr

/-- `tlv_parse(N, w, dcap)` of R152: tag, length field, destination check, value, in that order (D18). -/
def tlvParse (n : LenWidth) (w : List Byte) (dcap : Nat) : Except Status ParsedRecord :=
  match decU32 w with
  | .error e => .error e
  | .ok (tag, k) =>
    let start := k + lenBytes n
    if w.length < start then .error .incomplete
    else
      let length := fromBe ((w.drop k).take (lenBytes n))
      if length > dcap then .error .destTooShort
      else if w.length < start + length then .error .incomplete
      else .ok { tag := tag, value := (w.drop start).take length, consumed := start + length }

/-- `atlv_parse(N, w, dcap, acap)` of R160: address length, address destination check, address bytes, then
the stages of R152. -/
def atlvParse (n : LenWidth) (w : List Byte) (dcap acap : Nat) : Except Status ParsedRecord :=
  if w.length < lenBytes n then .error .incomplete
  else
    let alen := fromBe (w.take (lenBytes n))
    if alen > acap then .error .destTooShort
    else if w.length < lenBytes n + alen then .error .incomplete
    else
      match tlvParse n (w.drop (lenBytes n + alen)) dcap with
      | .error e => .error e
      | .ok rec =>
        .ok { tag := rec.tag
              value := rec.value
              addr := (w.drop (lenBytes n)).take alen
              consumed := lenBytes n + alen + rec.consumed }

/-! ## The control vocabulary -/

/-- The sixteen message kinds (R82, R170). -/
inductive Kind
  | boot
  | run
  | exit
  | exception
  | panic
  | stdin
  | stdout
  | stderr
  | error
  | warn
  | info
  | debug
  | trace
  | val
  | get
  | set
deriving DecidableEq, Repr

/-- The wire tag of a kind (R82). -/
def kindTag : Kind → Nat
  | .boot => 0x01
  | .run => 0x02
  | .exit => 0x03
  | .exception => 0x04
  | .panic => 0x05
  | .stdin => 0x10
  | .stdout => 0x11
  | .stderr => 0x12
  | .error => 0x20
  | .warn => 0x21
  | .info => 0x22
  | .debug => 0x23
  | .trace => 0x24
  | .val => 0x30
  | .get => 0x31
  | .set => 0x32

/-- `kind(tag)` of R170; none for a tag outside `VOCAB`. -/
def kindOfTag (tag : Nat) : Option Kind :=
  match tag with
  | 0x01 => some .boot
  | 0x02 => some .run
  | 0x03 => some .exit
  | 0x04 => some .exception
  | 0x05 => some .panic
  | 0x10 => some .stdin
  | 0x11 => some .stdout
  | 0x12 => some .stderr
  | 0x20 => some .error
  | 0x21 => some .warn
  | 0x22 => some .info
  | 0x23 => some .debug
  | 0x24 => some .trace
  | 0x30 => some .val
  | 0x31 => some .get
  | 0x32 => some .set
  | _ => none

/-- `classify(tag, len)` of R172: the status with which `CP.READ` delivers a record. -/
def classify (tag len : Nat) : Status :=
  match kindOfTag tag with
  | none => .unknownTag
  | some .exit => if len ≠ 1 then .invalidEncoding else .ok
  | some _ => .ok

/-- The record of a message of kind `k` (R171). -/
def messageRecord (k : Kind) (payload : List Byte) : Except Status (List Byte) :=
  tlvEnc .w8 (kindTag k) payload

end Sys2Proof.Machine
end

