-- ==== Sys2Proof/Machine/AtlvUnit.lean ====
section
/-! DEFINITION. Unit 5, ATLV (43_tlv.md R161 to R166): the TLV operations with a length-prefixed address in front. -/

namespace Sys2Proof.Machine

/-- `ATLV.W8` (R161). -/
def execAtlvW8 (tag : Word) (value addr : List Byte) (s : State) : Answer :=
  complete (appendResult s .txr (atlvEnc .w8 addr (unsignedOperand tag) value))

/-- `ATLV.W16` (R162). -/
def execAtlvW16 (tag : Word) (value addr : List Byte) (s : State) : Answer :=
  complete (appendResult s .txr (atlvEnc .w16 addr (unsignedOperand tag) value))

/-- `ATLV.W32` (R163). -/
def execAtlvW32 (tag : Word) (value addr : List Byte) (s : State) : Answer :=
  complete (appendResult s .txr (atlvEnc .w32 addr (unsignedOperand tag) value))

/-- The result of an ATLV read from the record it parses (R164): tag, value length, address length, value,
address. The count of bytes consumed is not returned. -/
def atlvResult (parsed : Except Status ParsedRecord) : Except Status (Nat × Response) :=
  match parsed with
  | .error e => .error e
  | .ok rec =>
    .ok (rec.consumed,
      { status := .ok
        r0 := wordOf rec.tag
        r1 := wordOf rec.value.length
        r2 := wordOf rec.addr.length
        q0 := rec.value
        q1 := rec.addr })

/-- `ATLV.R8` (R164). -/
def execAtlvR8 (dcap acap : Word) (s : State) : Answer :=
  complete (consumeResult s
    (atlvResult (atlvParse .w8 (window s.rxr) (unsignedOperand dcap) (unsignedOperand acap))))

/-- `ATLV.R16` (R165). -/
def execAtlvR16 (dcap acap : Word) (s : State) : Answer :=
  complete (consumeResult s
    (atlvResult (atlvParse .w16 (window s.rxr) (unsignedOperand dcap) (unsignedOperand acap))))

/-- `ATLV.R32` (R166). -/
def execAtlvR32 (dcap acap : Word) (s : State) : Answer :=
  complete (consumeResult s
    (atlvResult (atlvParse .w32 (window s.rxr) (unsignedOperand dcap) (unsignedOperand acap))))

end Sys2Proof.Machine
end

