-- ==== Sys2Proof/Machine/Cobs.lean ====
section
/-! DEFINITION. The byte-stuffing codec as pure functions (41_frame_codec.md R110 to R113). -/

namespace Sys2Proof.Machine

/-! ## Encoding -/

/-- The loop of R110 with the open group `grp`: a zero closes the group with header `|grp| + 1`; the 254th
literal closes it with header 0xFF as soon as it is taken (D12); the end of the input closes the last. -/
def stuffFrom : List Byte → List Byte → List Byte
  | [], grp => byteOf (grp.length + 1) :: grp
  | c :: rest, grp =>
    if c = 0#8 then (byteOf (grp.length + 1) :: grp) ++ stuffFrom rest []
    else if grp.length + 1 = 254 then (0xFF#8 :: (grp ++ [c])) ++ stuffFrom rest []
    else stuffFrom rest (grp ++ [c])

/-- `E(s)` of R110: the stuffed frame without its terminator. -/
def stuff (s : List Byte) : List Byte := stuffFrom s []

/-- `cobs_enc(s, cap)` of R111. -/
def cobsEnc (s : List Byte) (cap : Nat) : Except Status (List Byte) :=
  if (stuff s).length > cap then .error .bufferTooShort else .ok (stuff s)

/-- A stuffed frame with its terminator: what the Writer appends (R70, R118, R189). -/
def terminatedFrame (s : List Byte) : List Byte := stuff s ++ [0#8]

/-! ## Decoding -/

/-- Copy the literal bytes of one group into a destination with `room` free bytes: per byte, the zero test
first and the capacity test second (R113 (d)). -/
def copyLiterals : List Byte → Nat → Except Status (List Byte)
  | [], _ => .ok []
  | c :: rest, room =>
    if c = 0#8 then .error .unexpectedNull
    else
      match room with
      | 0 => .error .destTooShort
      | room + 1 =>
        match copyLiterals rest room with
        | .error e => .error e
        | .ok out => .ok (c :: out)

/-- The loop of R113 over the groups of `src`, with `room = cap - |out|` free bytes left. Each turn takes at
least the header, so `fuel = |src|` turns always suffice. -/
def unstuffGroups : Nat → List Byte → Nat → Except Status (List Byte)
  | _, [], _ => .ok []
  | 0, _ :: _, _ => .ok []
  | fuel + 1, code :: rest, room =>
    if code = 0#8 then .error .unexpectedNull
    else
      let n := code.toNat - 1
      if n > rest.length then .error .sourceTooShort
      else
        match copyLiterals (rest.take n) room with
        | .error e => .error e
        | .ok lits =>
          let after := rest.drop n
          if code.toNat < 0xFF ∧ after ≠ [] then
            match room - n with
            | 0 => .error .destTooShort
            | room' + 1 =>
              match unstuffGroups fuel after room' with
              | .error e => .error e
              | .ok out => .ok (lits ++ 0#8 :: out)
          else
            match unstuffGroups fuel after (room - n) with
            | .error e => .error e
            | .ok out => .ok (lits ++ out)

/-- `cobs_dec(src, cap)` of R113: `src` is one stuffed frame without its terminator. -/
def cobsDec (src : List Byte) (cap : Nat) : Except Status (List Byte) :=
  unstuffGroups src.length src cap

/-- The index of the first zero byte of a string, if it has one: the terminator search of R115. -/
def firstZero : List Byte → Option Nat
  | [] => none
  | b :: rest => if b = 0#8 then some 0 else (firstZero rest).map (· + 1)

end Sys2Proof.Machine
end

