-- ==== Sys2Proof/Machine/Flags.lean ====
section
/-! DEFINITION. The one flag of the block, `RESYNC` (10_state.md R25): the condition that sets it and the
effects that set and clear it. The block has no condition codes (R30). -/

namespace Sys2Proof.Machine

/-- The stream window is not empty and RXF is full, so that a frame with no terminator in it can never get
one: with no zero byte in the window this sets `RESYNC` (R25, R115 (b)). -/
def streamStuck (s : State) : Bool :=
  decide (s.rxf.head < s.rxf.tail) && decide (s.rxf.tail = s.caps.rxf)

/-- Discard the whole stream window (R115). -/
def discardStream (s : State) : State := { s with rxf := { s.rxf with head := s.rxf.tail } }

/-- Move `RXF.head` past the terminator that is `z` bytes into the window (R115). -/
def passTerminator (s : State) (z : Nat) : State :=
  { s with rxf := { s.rxf with head := s.rxf.head + z + 1 } }

/-- `RESYNC <- 1`. -/
def setResync (s : State) : State := { s with resync := true }

/-- `RESYNC <- 0`. -/
def clearResync (s : State) : State := { s with resync := false }

end Sys2Proof.Machine
end

