-- ==== Sys2Proof/Machine/Stream.lean ====
section
/-! DEFINITION. `NextFrame`, the streaming frame Reader that `FR.READ` and `CP.LOAD` share (41_frame_codec.md
R115). -/

namespace Sys2Proof.Machine

/-- `NextFrame(cap)` of R115: the state it leaves (`RXF.head` and `RESYNC` may move) and the decoded frame or
the status that ends the operation. -/
def nextFrame (s : State) (cap : Nat) : State × Except Status (List Byte) :=
  if s.resync then
    if s.rxf.head = s.rxf.tail then (s, .error .incomplete)
    else
      match firstZero (window s.rxf) with
      | none => (discardStream s, .error .missingTerminator)
      | some z => (clearResync (passTerminator s z), .error .missingTerminator)
  else
    match firstZero (window s.rxf) with
    | none =>
      if streamStuck s then (setResync (discardStream s), .error .missingTerminator)
      else (s, .error .incomplete)
    | some z => (passTerminator s z, cobsDec ((window s.rxf).take z) cap)

end Sys2Proof.Machine
end

