-- ==== Sys2Proof/Machine/ControlUnit.lean ====
section
/-! DEFINITION. Unit 6, CP, and the sixteen message writers of format M (44_control_protocol.md R173 to R191). -/

namespace Sys2Proof.Machine

/-! ## Message writers: one record of 2 + |payload| bytes appended to TXR -/

/-- `CP.BOOT` (R173). -/
def execCpBoot (payload : List Byte) (s : State) : Answer :=
  complete (appendResult s .txr (messageRecord .boot payload))

/-- `CP.RUN` (R174). -/
def execCpRun (payload : List Byte) (s : State) : Answer :=
  complete (appendResult s .txr (messageRecord .run payload))

/-- The record of `CP.EXIT` (R171, R175): the status operand must fit one byte. -/
def exitRecord (status : Word) : Except Status (List Byte) :=
  match exitOperand status with
  | .error e => .error e
  | .ok payload => messageRecord .exit payload

/-- `CP.EXIT` (R175). -/
def execCpExit (status : Word) (s : State) : Answer :=
  complete (appendResult s .txr (exitRecord status))

/-- `CP.EXCEPTION` (R176). -/
def execCpException (payload : List Byte) (s : State) : Answer :=
  complete (appendResult s .txr (messageRecord .exception payload))

/-- `CP.PANIC` (R177). -/
def execCpPanic (payload : List Byte) (s : State) : Answer :=
  complete (appendResult s .txr (messageRecord .panic payload))

/-- `CP.STDIN` (R178). -/
def execCpStdin (payload : List Byte) (s : State) : Answer :=
  complete (appendResult s .txr (messageRecord .stdin payload))

/-- `CP.STDOUT` (R179). -/
def execCpStdout (payload : List Byte) (s : State) : Answer :=
  complete (appendResult s .txr (messageRecord .stdout payload))

/-- `CP.STDERR` (R180). -/
def execCpStderr (payload : List Byte) (s : State) : Answer :=
  complete (appendResult s .txr (messageRecord .stderr payload))

/-- `CP.ERROR` (R181). -/
def execCpError (payload : List Byte) (s : State) : Answer :=
  complete (appendResult s .txr (messageRecord .error payload))

/-- `CP.WARN` (R182). -/
def execCpWarn (payload : List Byte) (s : State) : Answer :=
  complete (appendResult s .txr (messageRecord .warn payload))

/-- `CP.INFO` (R183). -/
def execCpInfo (payload : List Byte) (s : State) : Answer :=
  complete (appendResult s .txr (messageRecord .info payload))

/-- `CP.DEBUG` (R184). -/
def execCpDebug (payload : List Byte) (s : State) : Answer :=
  complete (appendResult s .txr (messageRecord .debug payload))

/-- `CP.TRACE` (R185). -/
def execCpTrace (payload : List Byte) (s : State) : Answer :=
  complete (appendResult s .txr (messageRecord .trace payload))

/-- `CP.VAL` (R186). -/
def execCpVal (payload : List Byte) (s : State) : Answer :=
  complete (appendResult s .txr (messageRecord .val payload))

/-- `CP.GET` (R187). -/
def execCpGet (payload : List Byte) (s : State) : Answer :=
  complete (appendResult s .txr (messageRecord .get payload))

/-- `CP.SET` (R188). -/
def execCpSet (payload : List Byte) (s : State) : Answer :=
  complete (appendResult s .txr (messageRecord .set payload))

/-! ## Frame assembly and disassembly -/

/-- `CP.FINISH` (R189): TXR is emptied only when its frame was appended to TXF. -/
def execCpFinish (s : State) : Answer :=
  let frame := terminatedFrame (window s.txr)
  complete <|
    match append s .txf frame with
    | none => (s, failWith .bufferTooShort)
    | some s' =>
      (s'.setBuf .txr (resetCursors s'.txr), { status := .ok, r0 := wordOf frame.length })

/-- `CP.LOAD` (R190): the next frame replaces the content of RXR; a frame that does not decode leaves RXR
empty; `Incomplete` and `MissingTerminator` leave RXR alone. -/
def execCpLoad (s : State) : Answer :=
  let frame := nextFrame s s.caps.rxr
  complete <|
    match frame.2 with
    | .error .incomplete => (frame.1, failWith .incomplete)
    | .error .missingTerminator => (frame.1, failWith .missingTerminator)
    | .error e => (frame.1.setBuf .rxr (resetCursors frame.1.rxr), failWith e)
    | .ok p =>
      (frame.1.setBuf .rxr (reload frame.1.rxr p), { status := .ok, r0 := wordOf p.length })

/-- The result of `CP.READ` from the record it parses (R191): a record that parsed is consumed and delivered
whatever its class; the class is the status. -/
def cpReadResult (parsed : Except Status ParsedRecord) : Except Status (Nat × Response) :=
  match parsed with
  | .error e => .error e
  | .ok rec =>
    .ok (rec.consumed,
      { status := classify rec.tag rec.value.length
        r0 := wordOf rec.tag
        r1 := wordOf rec.value.length
        r2 := wordOf rec.consumed
        q0 := rec.value })

/-- `CP.READ` (R191, R192). -/
def execCpRead (dcap : Word) (s : State) : Answer :=
  complete (consumeResult s (cpReadResult (tlvParse .w8 (window s.rxr) (unsignedOperand dcap))))

end Sys2Proof.Machine
end

