-- ==== Sys2Proof/Machine/CursorUnit.lean ====
section
/-! DEFINITION. Unit 1, CB: the cursor buffer operations (40_cursor_buffer.md R101 to R105). -/

namespace Sys2Proof.Machine

/-- `CB.EXTEND b` (R101). -/
def execCbExtend (b : BufId) (bytes : List Byte) (s : State) : Answer :=
  complete (appendResult s b (.ok bytes))

/-- `CB.ADVANCE b` (R102): `SourceTooShort` past `tail`, never a clamp. -/
def execCbAdvance (b : BufId) (n : Word) (s : State) : Answer :=
  complete <|
    if unsignedOperand n > remaining (s.buf b) then (s, failWith .sourceTooShort)
    else (consume s b (unsignedOperand n), { status := .ok })

/-- `CB.COMPACT b` (R103): a guard, not an error, when the window is not empty (D22). -/
def execCbCompact (b : BufId) (s : State) : Answer :=
  complete <|
    if (s.buf b).head = (s.buf b).tail then
      (s.setBuf b (resetCursors (s.buf b)), { status := .ok, r0 := 1#32 })
    else (s, { status := .ok, r0 := 0#32 })

/-- `CB.STAT b` (R104). -/
def execCbStat (b : BufId) (s : State) : Answer :=
  complete
    (s, { status := .ok
          r0 := wordOf (s.buf b).head
          r1 := wordOf (s.buf b).tail
          r2 := wordOf (s.cap b) })

/-- `CB.DRAIN b` (R105): the first `min(dcap, remaining)` bytes of the window; always `Ok`. -/
def execCbDrain (b : BufId) (dcap : Word) (s : State) : Answer :=
  let n := min (unsignedOperand dcap) (remaining (s.buf b))
  complete
    (consume s b n,
     { status := .ok, r0 := wordOf n, q0 := memReadBytes (s.buf b).mem (s.buf b).head n })

end Sys2Proof.Machine
end

