-- ==== Sys2Proof/Machine/FrameUnit.lean ====
section
/-! DEFINITION. Unit 2, FR: the frame codec operations (41_frame_codec.md R116 to R119). -/

namespace Sys2Proof.Machine

/-- A response that delivers a byte string and its length, or the status that says why there is none: the end
of `FR.ENC`, `FR.DEC` and `FR.READ` (R116, R117, R119). -/
def deliver (r : Except Status (List Byte)) : Response :=
  match r with
  | .error e => failWith e
  | .ok bytes => { status := .ok, r0 := wordOf bytes.length, q0 := bytes }

/-- `FR.ENC` (R116): reads and writes no state (D24). -/
def execFrEnc (src : List Byte) (dcap : Word) (s : State) : Answer :=
  complete (s, deliver (cobsEnc src (unsignedOperand dcap)))

/-- `FR.DEC` (R117): reads and writes no state (D24). -/
def execFrDec (src : List Byte) (dcap : Word) (s : State) : Answer :=
  complete (s, deliver (cobsDec src (unsignedOperand dcap)))

/-- `FR.WRITE` (R118): frame and terminator are appended to TXF together or not at all. -/
def execFrWrite (src : List Byte) (s : State) : Answer :=
  complete (appendResult s .txf (.ok (terminatedFrame src)))

/-- `FR.READ` (R119): whatever `NextFrame` says, with the state it leaves (R115). -/
def execFrRead (dcap : Word) (s : State) : Answer :=
  let frame := nextFrame s (unsignedOperand dcap)
  complete (frame.1, deliver frame.2)

end Sys2Proof.Machine
end

