-- ==== Sys2Proof/Machine/SystemUnit.lean ====
section
/-! DEFINITION. Unit 0, SYS, the illegal command words, the reset input and the idle block (45_system.md, 70_reset_and_hazards.md). -/

namespace Sys2Proof.Machine

/-- Every cursor to 0 and `RESYNC` to 0; no byte is written and neither the parameters nor the channels to the
host are touched (R32, R200, R241). -/
def resetCore (s : State) : State :=
  { s with
    txr := resetCursors s.txr
    txf := resetCursors s.txf
    rxf := resetCursors s.rxf
    rxr := resetCursors s.rxr
    resync := false }

/-- `SYS.RESET` (R200). -/
def execSysReset (s : State) : Answer := complete (resetCore s, { status := .ok })

/-- `ILLEGAL`, what a command word that names no operation executes as: `IllegalCommand`, no mutation, default
results (R64, R201, R222). -/
def execIllegal (s : State) : Answer := complete (s, failWith .illegalCommand)

/-- The reset input (R240, R241): the reset state, and no response. -/
def hardwareReset (s : State) : Answer := .next (resetCore s)

/-- No command presented: the block is idle and nothing changes (R8, R230). Log entry 3. -/
def idle (s : State) : Answer := .next s

end Sys2Proof.Machine
end

