-- ==== Sys2Proof/Machine/TlvUnit.lean ====
section
/-! DEFINITION. Unit 4, TLV (43_tlv.md R153 to R158). Writers append one record to TXR, readers consume one from RXR. -/

namespace Sys2Proof.Machine

/-- `TLV.W8` (R153): `OutOfRange` before `BufferTooShort` (R224). -/
def execTlvW8 (tag : Word) (value : List Byte) (s : State) : Answer :=
  complete (appendResult s .txr (tlvEnc .w8 (unsignedOperand tag) value))

/-- `TLV.W16` (R154). -/
def execTlvW16 (tag : Word) (value : List Byte) (s : State) : Answer :=
  complete (appendResult s .txr (tlvEnc .w16 (unsignedOperand tag) value))

/-- `TLV.W32` (R155). -/
def execTlvW32 (tag : Word) (value : List Byte) (s : State) : Answer :=
  complete (appendResult s .txr (tlvEnc .w32 (unsignedOperand tag) value))

/-- The result of a TLV read from the record it parses (R156): tag, length, bytes consumed, value. -/
def tlvResult (parsed : Except Status ParsedRecord) : Except Status (Nat × Response) :=
  match parsed with
  | .error e => .error e
  | .ok rec =>
    .ok (rec.consumed,
      { status := .ok
        r0 := wordOf rec.tag
        r1 := wordOf rec.value.length
        r2 := wordOf rec.consumed
        q0 := rec.value })

/-- `TLV.R8` (R156). -/
def execTlvR8 (dcap : Word) (s : State) : Answer :=
  complete (consumeResult s (tlvResult (tlvParse .w8 (window s.rxr) (unsignedOperand dcap))))

/-- `TLV.R16` (R157). -/
def execTlvR16 (dcap : Word) (s : State) : Answer :=
  complete (consumeResult s (tlvResult (tlvParse .w16 (window s.rxr) (unsignedOperand dcap))))

/-- `TLV.R32` (R158). -/
def execTlvR32 (dcap : Word) (s : State) : Answer :=
  complete (consumeResult s (tlvResult (tlvParse .w32 (window s.rxr) (unsignedOperand dcap))))

end Sys2Proof.Machine
end

