-- ==== Sys2Proof/Machine/VarintUnit.lean ====
section
/-! DEFINITION. Unit 3, VI: the varint operations (42_varint.md R135 to R144). Writers append to TXR, readers consume
from RXR. -/

namespace Sys2Proof.Machine

/-- `VI.WU32` (R135). -/
def execViWu32 (value : Word) (s : State) : Answer :=
  complete (appendResult s .txr (.ok (lebU (unsignedOperand value))))

/-- `VI.WI32` (R136). -/
def execViWi32 (value : Word) (s : State) : Answer :=
  complete (appendResult s .txr (.ok (lebS (signedOperand value))))

/-- `VI.WU1` (R137): `OutOfRange` before `BufferTooShort` (R224). -/
def execViWu1 (value : Word) (s : State) : Answer :=
  complete (appendResult s .txr (u1Operand value))

/-- `VI.WU7` (R138). -/
def execViWu7 (value : Word) (s : State) : Answer :=
  complete (appendResult s .txr (u7Operand value))

/-- `VI.WI7` (R139). -/
def execViWi7 (value : Word) (s : State) : Answer :=
  complete (appendResult s .txr (i7Operand value))

/-- The result of `VI.RU32` from the window it parses (R140): `r0` the value, `r1` the bytes consumed. -/
def u32Result (w : List Byte) : Except Status (Nat × Response) :=
  match decU32 w with
  | .error e => .error e
  | .ok (value, k) => .ok (k, { status := .ok, r0 := wordOf value, r1 := wordOf k })

/-- The result of `VI.RI32` from the window it parses (R141): `r0` the two's-complement pattern. -/
def i32Result (w : List Byte) : Except Status (Nat × Response) :=
  match decI32 w with
  | .error e => .error e
  | .ok (value, k) => .ok (k, { status := .ok, r0 := u32 value, r1 := wordOf k })

/-- `VI.RU32` (R140). -/
def execViRu32 (s : State) : Answer := complete (consumeResult s (u32Result (window s.rxr)))

/-- `VI.RI32` (R141). -/
def execViRi32 (s : State) : Answer := complete (consumeResult s (i32Result (window s.rxr)))

/-- `VI.RU1` (R142). -/
def execViRu1 (s : State) : Answer := complete (consumeResult s (narrowRead u1Byte (window s.rxr)))

/-- `VI.RU7` (R143). -/
def execViRu7 (s : State) : Answer := complete (consumeResult s (narrowRead u7Byte (window s.rxr)))

/-- `VI.RI7` (R144). -/
def execViRi7 (s : State) : Answer := complete (consumeResult s (narrowRead i7Byte (window s.rxr)))

end Sys2Proof.Machine
end

