-- ==== Sys2Proof/Machine/Dispatch.lean ====
section
/-! DEFINITION. One arm per operation of the block (30_encoding.md R62): the meaning it has. -/

namespace Sys2Proof.Machine

def exec (i : Instr) (s : State) : Host.Outcome State Fault Refusal :=
  match i with
  | .sysReset => Sys2Proof.Machine.execSysReset s
  | .cbExtend b bytes => Sys2Proof.Machine.execCbExtend b bytes s
  | .cbAdvance b n => Sys2Proof.Machine.execCbAdvance b n s
  | .cbCompact b => Sys2Proof.Machine.execCbCompact b s
  | .cbStat b => Sys2Proof.Machine.execCbStat b s
  | .cbDrain b dcap => Sys2Proof.Machine.execCbDrain b dcap s
  | .frEnc src dcap => Sys2Proof.Machine.execFrEnc src dcap s
  | .frDec src dcap => Sys2Proof.Machine.execFrDec src dcap s
  | .frWrite src => Sys2Proof.Machine.execFrWrite src s
  | .frRead dcap => Sys2Proof.Machine.execFrRead dcap s
  | .viWu32 value => Sys2Proof.Machine.execViWu32 value s
  | .viWi32 value => Sys2Proof.Machine.execViWi32 value s
  | .viWu1 value => Sys2Proof.Machine.execViWu1 value s
  | .viWu7 value => Sys2Proof.Machine.execViWu7 value s
  | .viWi7 value => Sys2Proof.Machine.execViWi7 value s
  | .viRu32 => Sys2Proof.Machine.execViRu32 s
  | .viRi32 => Sys2Proof.Machine.execViRi32 s
  | .viRu1 => Sys2Proof.Machine.execViRu1 s
  | .viRu7 => Sys2Proof.Machine.execViRu7 s
  | .viRi7 => Sys2Proof.Machine.execViRi7 s
  | .tlvW8 tag value => Sys2Proof.Machine.execTlvW8 tag value s
  | .tlvW16 tag value => Sys2Proof.Machine.execTlvW16 tag value s
  | .tlvW32 tag value => Sys2Proof.Machine.execTlvW32 tag value s
  | .tlvR8 dcap => Sys2Proof.Machine.execTlvR8 dcap s
  | .tlvR16 dcap => Sys2Proof.Machine.execTlvR16 dcap s
  | .tlvR32 dcap => Sys2Proof.Machine.execTlvR32 dcap s
  | .atlvW8 tag value addr => Sys2Proof.Machine.execAtlvW8 tag value addr s
  | .atlvW16 tag value addr => Sys2Proof.Machine.execAtlvW16 tag value addr s
  | .atlvW32 tag value addr => Sys2Proof.Machine.execAtlvW32 tag value addr s
  | .atlvR8 dcap acap => Sys2Proof.Machine.execAtlvR8 dcap acap s
  | .atlvR16 dcap acap => Sys2Proof.Machine.execAtlvR16 dcap acap s
  | .atlvR32 dcap acap => Sys2Proof.Machine.execAtlvR32 dcap acap s
  | .cpFinish => Sys2Proof.Machine.execCpFinish s
  | .cpLoad => Sys2Proof.Machine.execCpLoad s
  | .cpRead dcap => Sys2Proof.Machine.execCpRead dcap s
  | .cpBoot payload => Sys2Proof.Machine.execCpBoot payload s
  | .cpRun payload => Sys2Proof.Machine.execCpRun payload s
  | .cpExit status => Sys2Proof.Machine.execCpExit status s
  | .cpException payload => Sys2Proof.Machine.execCpException payload s
  | .cpPanic payload => Sys2Proof.Machine.execCpPanic payload s
  | .cpStdin payload => Sys2Proof.Machine.execCpStdin payload s
  | .cpStdout payload => Sys2Proof.Machine.execCpStdout payload s
  | .cpStderr payload => Sys2Proof.Machine.execCpStderr payload s
  | .cpError payload => Sys2Proof.Machine.execCpError payload s
  | .cpWarn payload => Sys2Proof.Machine.execCpWarn payload s
  | .cpInfo payload => Sys2Proof.Machine.execCpInfo payload s
  | .cpDebug payload => Sys2Proof.Machine.execCpDebug payload s
  | .cpTrace payload => Sys2Proof.Machine.execCpTrace payload s
  | .cpVal payload => Sys2Proof.Machine.execCpVal payload s
  | .cpGet payload => Sys2Proof.Machine.execCpGet payload s
  | .cpSet payload => Sys2Proof.Machine.execCpSet payload s

end Sys2Proof.Machine
end

