-- ==== Sys2Proof/Machine/Step.lean ====
section
/-! DEFINITION. One step of the block: one input of the host (30_encoding.md R66, 00_scope.md R8). -/

namespace Sys2Proof.Machine

/-- One step (R8, R66). The oldest input the host presents is taken off the channel: a command word that
names no operation executes as `ILLEGAL` (R64, R201), a legal one as its operation, the reset input resets.
With nothing presented the block is idle. A state that violates R33 (I1) is a fault (log entry 9), a record
that is no command of R60 a refusal (log entry 8). -/
def step (s : State) : Host.Outcome State Fault Refusal :=
  if s.cursorsInBounds then
    match s.pending with
    | [] => idle s
    | .reset :: rest => hardwareReset (s.withPending rest)
    | .command c :: rest =>
      match decode c with
      | .error _ => execIllegal (s.withPending rest)
      | .ok i =>
        if i.wellFormed then exec i (s.withPending rest) else .refused .operandTooLong
  else .fault .cursorOutOfBounds

/-- The host presents, as its next command, the record whose command word has the bits of `w` and whose
operands are all 0 or empty (log entries 7 and 10). -/
def State.withFetchWord (s : State) (_nbits w : Nat) : State := s.present (commandOfTableWord w)

end Sys2Proof.Machine
end

