-- ==== Sys2Proof/Safety.lean ====
section
/-! DEFINITION. What counts as a good state and as the effect of an operation, in the terms the claims use, and
the tables of the spec that claims are stated against. -/

namespace Sys2Proof.Machine

/-! ## Good states -/

/-- R33 (I1) for one buffer, with its memory in canonical form and no byte listed at an offset that does not
exist (R40). -/
abbrev bufferOk (cap : Nat) (c : CursorBuffer) : Prop :=
  c.head ≤ c.tail ∧ c.tail ≤ cap ∧ Memory.wf c.mem = true ∧ ∀ cell ∈ c.mem, cell.1 < cap

/-- The invariant of the block: capacities in the range of R6, and every buffer good. -/
abbrev State.Inv (s : State) : Prop :=
  s.caps.wf ∧ bufferOk s.caps.txr s.txr ∧ bufferOk s.caps.txf s.txf ∧ bufferOk s.caps.rxf s.rxf ∧
    bufferOk s.caps.rxr s.rxr

/-! ## Effects -/

/-- The operation answered `r` and left the command channel and the parameters alone. -/
def Answered (s t : State) (r : Response) : Prop :=
  t.responses = s.responses ++ [r] ∧ t.pending = s.pending ∧ t.caps = s.caps

/-- Buffers other than `b`, with every byte of their memory, and `RESYNC` are as they were. -/
def OthersSame (s t : State) (b : BufId) : Prop :=
  (∀ b', b' ≠ b → t.buf b' = s.buf b') ∧ t.resync = s.resync

/-- All four buffers, with every byte of their memory, and `RESYNC` are as they were. Dead bytes are covered
too, which is the model's choice (log entry 5). -/
def Unchanged (s t : State) : Prop := (∀ b, t.buf b = s.buf b) ∧ t.resync = s.resync

/-- What the spec calls no mutation (R14): cursors, windows and `RESYNC` are as they were. Dead bytes are
outside it (R28). -/
def LiveSame (s t : State) : Prop :=
  (∀ b, (t.buf b).head = (s.buf b).head ∧ (t.buf b).tail = (s.buf b).tail ∧
    window (t.buf b) = window (s.buf b)) ∧ t.resync = s.resync

/-- `bytes` were stored to buffer `b` from the offset `tail` on and `tail` moved past them: the window gains
them at its end, every byte outside the stretch stored to is as it was, and so is everything else. -/
def Appended (s t : State) (b : BufId) (bytes : List Byte) : Prop :=
  (t.buf b).head = (s.buf b).head ∧
    (t.buf b).tail = (s.buf b).tail + bytes.length ∧
    window (t.buf b) = window (s.buf b) ++ bytes ∧
    (∀ a, a < (s.buf b).tail ∨ (s.buf b).tail + bytes.length ≤ a →
      memRead (t.buf b).mem a = memRead (s.buf b).mem a) ∧
    OthersSame s t b

/-- `head` of buffer `b` moved over `n` unread bytes; no byte changed, and nothing else moved. -/
def Consumed (s t : State) (b : BufId) (n : Nat) : Prop :=
  (t.buf b).head = (s.buf b).head + n ∧ (t.buf b).tail = (s.buf b).tail ∧
    window (t.buf b) = (window (s.buf b)).drop n ∧
    (∀ a, memRead (t.buf b).mem a = memRead (s.buf b).mem a) ∧ OthersSame s t b

/-- The operation completes by appending `bytes` to buffer `b` and answering `Ok` with their number in `r0`. -/
def AppendsAndAnswers (i : Instr) (s : State) (b : BufId) (bytes : List Byte) : Prop :=
  ∃ t n, exec i s = .next t ∧ Appended s t b bytes ∧ n.toNat = bytes.length ∧
    Answered s t { status := .ok, r0 := n }

/-- The operation completes by consuming `n` bytes of RXR and answering `r`. -/
def ConsumesAndAnswers (i : Instr) (s : State) (n : Nat) (r : Response) : Prop :=
  ∃ t, exec i s = .next t ∧ Consumed s t .rxr n ∧ Answered s t r

/-- The operation completes by answering `r` and changes nothing. -/
def OnlyAnswers (i : Instr) (s : State) (r : Response) : Prop :=
  ∃ t, exec i s = .next t ∧ Unchanged s t ∧ Answered s t r

/-! ## Tables of the spec -/

/-- The 66 legal command words, in the order of the operation map (R62). -/
def legalWords : List Nat :=
  [0x0000, 0x1000, 0x1001, 0x1002, 0x1003, 0x1100, 0x1101, 0x1102, 0x1103, 0x1200, 0x1201] ++
  [0x1202, 0x1203, 0x1300, 0x1301, 0x1302, 0x1303, 0x1400, 0x1401, 0x1402, 0x1403, 0x2000] ++
  [0x2100, 0x2200, 0x2300, 0x3000, 0x3100, 0x3200, 0x3300, 0x3400, 0x3800, 0x3900, 0x3A00] ++
  [0x3B00, 0x3C00, 0x4000, 0x4100, 0x4200, 0x4800, 0x4900, 0x4A00, 0x5000, 0x5100, 0x5200] ++
  [0x5800, 0x5900, 0x5A00, 0x6000, 0x6100, 0x6200, 0x8100, 0x8200, 0x8300, 0x8400, 0x8500] ++
  [0x9000, 0x9100, 0x9200, 0xA000, 0xA100, 0xA200, 0xA300, 0xA400, 0xB000, 0xB100, 0xB200]

/-- The operations that use the operand `a0` (R62, operands column). -/
def usesA0 : Instr → Bool
  | .cbAdvance _ _ | .viWu32 _ | .viWi32 _ | .viWu1 _ | .viWu7 _ | .viWi7 _ | .tlvW8 _ _
  | .tlvW16 _ _ | .tlvW32 _ _ | .atlvW8 _ _ _ | .atlvW16 _ _ _ | .atlvW32 _ _ _ | .cpExit _ => true
  | _ => false

/-- The operations that use the operand `a1` (R62, operands column). -/
def usesA1 : Instr → Bool
  | .cbDrain _ _ | .frEnc _ _ | .frDec _ _ | .frRead _ | .tlvR8 _ | .tlvR16 _ | .tlvR32 _
  | .atlvR8 _ _ | .atlvR16 _ _ | .atlvR32 _ _ | .cpRead _ => true
  | _ => false

/-- The operations that use the operand `a2` (R62, operands column). -/
def usesA2 : Instr → Bool
  | .atlvR8 _ _ | .atlvR16 _ _ | .atlvR32 _ _ => true
  | _ => false

/-- The operations that use the operand `d0` (R62, operands column). -/
def usesD0 : Instr → Bool
  | .cbExtend _ _ | .frEnc _ _ | .frDec _ _ | .frWrite _ | .tlvW8 _ _ | .tlvW16 _ _ | .tlvW32 _ _
  | .atlvW8 _ _ _ | .atlvW16 _ _ _ | .atlvW32 _ _ _ | .cpBoot _ | .cpRun _ | .cpException _
  | .cpPanic _ | .cpStdin _ | .cpStdout _ | .cpStderr _ | .cpError _ | .cpWarn _ | .cpInfo _
  | .cpDebug _ | .cpTrace _ | .cpVal _ | .cpGet _ | .cpSet _ => true
  | _ => false

/-- The operations that use the operand `d1` (R62, operands column). -/
def usesD1 : Instr → Bool
  | .atlvW8 _ _ _ | .atlvW16 _ _ _ | .atlvW32 _ _ _ => true
  | _ => false

/-- The destination capacity `dcap` an operation is given for `q0` (R60, R62). -/
def dcapOf : Instr → Option Word
  | .cbDrain _ dcap | .frEnc _ dcap | .frDec _ dcap | .frRead dcap | .tlvR8 dcap | .tlvR16 dcap
  | .tlvR32 dcap | .atlvR8 dcap _ | .atlvR16 dcap _ | .atlvR32 dcap _ | .cpRead dcap => some dcap
  | _ => none

/-- The destination capacity `acap` an operation is given for `q1` (R60, R62). -/
def acapOf : Instr → Option Word
  | .atlvR8 _ acap | .atlvR16 _ acap | .atlvR32 _ acap => some acap
  | _ => none

/-- The cursors `head` an operation may write (R24). -/
def mayWriteHead (i : Instr) (b : BufId) : Bool :=
  match i with
  | .sysReset => true
  | .cbAdvance b' _ | .cbDrain b' _ | .cbCompact b' => decide (b = b')
  | .cpFinish => decide (b = .txr)
  | .frRead _ => decide (b = .rxf)
  | .cpLoad => decide (b = .rxf) || decide (b = .rxr)
  | .viRu32 | .viRi32 | .viRu1 | .viRu7 | .viRi7 | .tlvR8 _ | .tlvR16 _ | .tlvR32 _ | .atlvR8 _ _
  | .atlvR16 _ _ | .atlvR32 _ _ | .cpRead _ => decide (b = .rxr)
  | .cbExtend _ _ | .cbStat _ | .frEnc _ _ | .frDec _ _ | .frWrite _ | .viWu32 _ | .viWi32 _
  | .viWu1 _ | .viWu7 _ | .viWi7 _ | .tlvW8 _ _ | .tlvW16 _ _ | .tlvW32 _ _ | .atlvW8 _ _ _
  | .atlvW16 _ _ _ | .atlvW32 _ _ _ | .cpBoot _ | .cpRun _ | .cpExit _ | .cpException _
  | .cpPanic _ | .cpStdin _ | .cpStdout _ | .cpStderr _ | .cpError _ | .cpWarn _ | .cpInfo _
  | .cpDebug _ | .cpTrace _ | .cpVal _ | .cpGet _ | .cpSet _ => false

/-- The cursors `tail` an operation may write (R24). -/
def mayWriteTail (i : Instr) (b : BufId) : Bool :=
  match i with
  | .sysReset => true
  | .cbExtend b' _ | .cbCompact b' => decide (b = b')
  | .frWrite _ => decide (b = .txf)
  | .cpFinish => decide (b = .txf) || decide (b = .txr)
  | .cpLoad => decide (b = .rxr)
  | .viWu32 _ | .viWi32 _ | .viWu1 _ | .viWu7 _ | .viWi7 _ | .tlvW8 _ _ | .tlvW16 _ _ | .tlvW32 _ _
  | .atlvW8 _ _ _ | .atlvW16 _ _ _ | .atlvW32 _ _ _ | .cpBoot _ | .cpRun _ | .cpExit _
  | .cpException _ | .cpPanic _ | .cpStdin _ | .cpStdout _ | .cpStderr _ | .cpError _ | .cpWarn _
  | .cpInfo _ | .cpDebug _ | .cpTrace _ | .cpVal _ | .cpGet _ | .cpSet _ => decide (b = .txr)
  | .cbAdvance _ _ | .cbStat _ | .cbDrain _ _ | .frEnc _ _ | .frDec _ _ | .frRead _ | .viRu32
  | .viRi32 | .viRu1 | .viRu7 | .viRi7 | .tlvR8 _ | .tlvR16 _ | .tlvR32 _ | .atlvR8 _ _
  | .atlvR16 _ _ | .atlvR32 _ _ | .cpRead _ => false

/-- The operations that may set a cursor of a buffer back (R24): `CB.COMPACT`, `CP.FINISH` on TXR, `CP.LOAD` on
RXR and `SYS.RESET`. -/
def mayMoveBack (i : Instr) (b : BufId) : Bool :=
  match i with
  | .sysReset => true
  | .cbCompact b' => decide (b = b')
  | .cpFinish => decide (b = .txr)
  | .cpLoad => decide (b = .rxr)
  | _ => false

/-- Who may answer `Incomplete` (R213). -/
def raisesIncomplete : Instr → Bool
  | .frRead _ | .viRu32 | .viRi32 | .viRu1 | .viRu7 | .viRi7 | .tlvR8 _ | .tlvR16 _ | .tlvR32 _
  | .atlvR8 _ _ | .atlvR16 _ _ | .atlvR32 _ _ | .cpLoad | .cpRead _ => true
  | .sysReset | .cbExtend _ _ | .cbAdvance _ _ | .cbCompact _ | .cbStat _ | .cbDrain _ _
  | .frEnc _ _ | .frDec _ _ | .frWrite _ | .viWu32 _ | .viWi32 _ | .viWu1 _ | .viWu7 _ | .viWi7 _
  | .tlvW8 _ _ | .tlvW16 _ _ | .tlvW32 _ _ | .atlvW8 _ _ _ | .atlvW16 _ _ _ | .atlvW32 _ _ _
  | .cpFinish | .cpBoot _ | .cpRun _ | .cpExit _ | .cpException _ | .cpPanic _ | .cpStdin _
  | .cpStdout _ | .cpStderr _ | .cpError _ | .cpWarn _ | .cpInfo _ | .cpDebug _ | .cpTrace _
  | .cpVal _ | .cpGet _ | .cpSet _ => false

/-- Who may answer `BufferTooShort` (R214). -/
def raisesBufferTooShort : Instr → Bool
  | .cbExtend _ _ | .frEnc _ _ | .frWrite _ | .viWu32 _ | .viWi32 _ | .viWu1 _ | .viWu7 _
  | .viWi7 _ | .tlvW8 _ _ | .tlvW16 _ _ | .tlvW32 _ _ | .atlvW8 _ _ _ | .atlvW16 _ _ _
  | .atlvW32 _ _ _ | .cpFinish | .cpBoot _ | .cpRun _ | .cpExit _ | .cpException _ | .cpPanic _
  | .cpStdin _ | .cpStdout _ | .cpStderr _ | .cpError _ | .cpWarn _ | .cpInfo _ | .cpDebug _
  | .cpTrace _ | .cpVal _ | .cpGet _ | .cpSet _ => true
  | .sysReset | .cbAdvance _ _ | .cbCompact _ | .cbStat _ | .cbDrain _ _ | .frDec _ _ | .frRead _
  | .viRu32 | .viRi32 | .viRu1 | .viRu7 | .viRi7 | .tlvR8 _ | .tlvR16 _ | .tlvR32 _ | .atlvR8 _ _
  | .atlvR16 _ _ | .atlvR32 _ _ | .cpLoad | .cpRead _ => false

/-- Who may answer `DestTooShort` (R215). -/
def raisesDestTooShort : Instr → Bool
  | .frDec _ _ | .frRead _ | .tlvR8 _ | .tlvR16 _ | .tlvR32 _ | .atlvR8 _ _ | .atlvR16 _ _
  | .atlvR32 _ _ | .cpLoad | .cpRead _ => true
  | .sysReset | .cbExtend _ _ | .cbAdvance _ _ | .cbCompact _ | .cbStat _ | .cbDrain _ _
  | .frEnc _ _ | .frWrite _ | .viWu32 _ | .viWi32 _ | .viWu1 _ | .viWu7 _ | .viWi7 _ | .viRu32
  | .viRi32 | .viRu1 | .viRu7 | .viRi7 | .tlvW8 _ _ | .tlvW16 _ _ | .tlvW32 _ _ | .atlvW8 _ _ _
  | .atlvW16 _ _ _ | .atlvW32 _ _ _ | .cpFinish | .cpBoot _ | .cpRun _ | .cpExit _ | .cpException _
  | .cpPanic _ | .cpStdin _ | .cpStdout _ | .cpStderr _ | .cpError _ | .cpWarn _ | .cpInfo _
  | .cpDebug _ | .cpTrace _ | .cpVal _ | .cpGet _ | .cpSet _ => false

/-- Who may answer `SourceTooShort` (R216). -/
def raisesSourceTooShort : Instr → Bool
  | .cbAdvance _ _ | .frDec _ _ | .frRead _ | .cpLoad => true
  | .sysReset | .cbExtend _ _ | .cbCompact _ | .cbStat _ | .cbDrain _ _ | .frEnc _ _ | .frWrite _
  | .viWu32 _ | .viWi32 _ | .viWu1 _ | .viWu7 _ | .viWi7 _ | .viRu32 | .viRi32 | .viRu1 | .viRu7
  | .viRi7 | .tlvW8 _ _ | .tlvW16 _ _ | .tlvW32 _ _ | .tlvR8 _ | .tlvR16 _ | .tlvR32 _
  | .atlvW8 _ _ _ | .atlvW16 _ _ _ | .atlvW32 _ _ _ | .atlvR8 _ _ | .atlvR16 _ _ | .atlvR32 _ _
  | .cpFinish | .cpRead _ | .cpBoot _ | .cpRun _ | .cpExit _ | .cpException _ | .cpPanic _
  | .cpStdin _ | .cpStdout _ | .cpStderr _ | .cpError _ | .cpWarn _ | .cpInfo _ | .cpDebug _
  | .cpTrace _ | .cpVal _ | .cpGet _ | .cpSet _ => false

/-- Who may answer `OutOfRange` (R220): no `W32` form, no general varint write. -/
def raisesOutOfRange : Instr → Bool
  | .viWu1 _ | .viWu7 _ | .viWi7 _ | .viRu32 | .viRi32 | .viRu1 | .viRu7 | .viRi7 | .tlvW8 _ _
  | .tlvW16 _ _ | .tlvR8 _ | .tlvR16 _ | .tlvR32 _ | .atlvW8 _ _ _ | .atlvW16 _ _ _ | .atlvR8 _ _
  | .atlvR16 _ _ | .atlvR32 _ _ | .cpRead _ | .cpBoot _ | .cpRun _ | .cpExit _ | .cpException _
  | .cpPanic _ | .cpStdin _ | .cpStdout _ | .cpStderr _ | .cpError _ | .cpWarn _ | .cpInfo _
  | .cpDebug _ | .cpTrace _ | .cpVal _ | .cpGet _ | .cpSet _ => true
  | .sysReset | .cbExtend _ _ | .cbAdvance _ _ | .cbCompact _ | .cbStat _ | .cbDrain _ _
  | .frEnc _ _ | .frDec _ _ | .frWrite _ | .frRead _ | .viWu32 _ | .viWi32 _ | .tlvW32 _ _
  | .atlvW32 _ _ _ | .cpFinish | .cpLoad => false

/-- The operation is `FR.DEC`. -/
def isFrDec : Instr → Bool
  | .frDec _ _ => true
  | _ => false

/-- The operation is `FR.READ`. -/
def isFrRead : Instr → Bool
  | .frRead _ => true
  | _ => false

/-- The operation is `CP.LOAD`. -/
def isCpLoad : Instr → Bool
  | .cpLoad => true
  | _ => false

/-- The operation is `CP.READ`. -/
def isCpRead : Instr → Bool
  | .cpRead _ => true
  | _ => false

/-- Which statuses an operation may answer with (R212 to R222). -/
def mayAnswer (i : Instr) : Status → Bool
  | .ok => true
  | .incomplete => raisesIncomplete i
  | .bufferTooShort => raisesBufferTooShort i
  | .destTooShort => raisesDestTooShort i
  | .sourceTooShort => raisesSourceTooShort i
  | .unexpectedNull => isFrDec i
  | .missingTerminator => isFrRead i || isCpLoad i
  | .invalidEncoding => isCpRead i
  | .outOfRange => raisesOutOfRange i
  | .unknownTag => isCpRead i
  | .illegalCommand => false

/-- `F(s)` of R112: over the maximal zero-free substrings of `s`, the sum of `floor(length / 254)`. `run` is the
length of the run that is open. -/
def fullRuns : List Byte → Nat → Nat
  | [], run => run / 254
  | c :: rest, run => if c = 0#8 then run / 254 + fullRuns rest 0 else fullRuns rest (run + 1)

/-! ## What a status other than `Ok` may leave behind (R225) -/

/-- One buffer as the spec sees it: cursors and window (R28). -/
def LiveBuf (c c' : CursorBuffer) : Prop := c'.head = c.head ∧ c'.tail = c.tail ∧ window c' = window c

/-- The (operation, status) pairs of R225 that do not leave the state as it was. -/
def failureMoves (i : Instr) : Status → Bool
  | .sourceTooShort | .destTooShort | .missingTerminator => isFrRead i || isCpLoad i
  | .unknownTag | .invalidEncoding => isCpRead i
  | .ok | .incomplete | .bufferTooShort | .unexpectedNull | .outOfRange | .illegalCommand => false

/-- `RXF.head <- z + 1`: the frame that ends at the first zero of the window is taken off it; `RESYNC` is as it
was. -/
def FrameDiscarded (s t : State) : Prop :=
  ∃ z, firstZero (window s.rxf) = some z ∧ t.rxf.head = s.rxf.head + z + 1 ∧ t.rxf.tail = s.rxf.tail ∧
    window t.rxf = (window s.rxf).drop (z + 1) ∧ t.resync = s.resync

/-- `MissingTerminator` (R115, R119): everything up to the terminator found is taken off the window and `RESYNC`
is clear, or the whole window is and `RESYNC` is set. -/
def StreamDiscarded (s t : State) : Prop :=
  t.rxf.tail = s.rxf.tail ∧
    ((∃ z, firstZero (window s.rxf) = some z ∧ s.resync = true ∧ t.rxf.head = s.rxf.head + z + 1 ∧
        window t.rxf = (window s.rxf).drop (z + 1) ∧ t.resync = false) ∨
      (firstZero (window s.rxf) = none ∧ t.rxf.head = s.rxf.tail ∧ window t.rxf = [] ∧
        t.resync = true))

/-! ## Naming an operation by its family -/

/-- The TLV write of a length width (R153 to R155). -/
def tlvWrite : LenWidth → Word → List Byte → Instr
  | .w8 => .tlvW8
  | .w16 => .tlvW16
  | .w32 => .tlvW32

/-- The TLV read of a length width (R156 to R158). -/
def tlvRead : LenWidth → Word → Instr
  | .w8 => .tlvR8
  | .w16 => .tlvR16
  | .w32 => .tlvR32

/-- The ATLV write of a length width (R161 to R163): tag, value, address. -/
def atlvWrite : LenWidth → Word → List Byte → List Byte → Instr
  | .w8 => .atlvW8
  | .w16 => .atlvW16
  | .w32 => .atlvW32

/-- The ATLV read of a length width (R164 to R166): `dcap`, `acap`. -/
def atlvRead : LenWidth → Word → Word → Instr
  | .w8 => .atlvR8
  | .w16 => .atlvR16
  | .w32 => .atlvR32

/-- The message writer of a kind other than Exit (R173, R174, R176 to R188). -/
def blobWriter : Kind → List Byte → Option Instr
  | .boot, payload => some (.cpBoot payload)
  | .run, payload => some (.cpRun payload)
  | .exit, _ => none
  | .exception, payload => some (.cpException payload)
  | .panic, payload => some (.cpPanic payload)
  | .stdin, payload => some (.cpStdin payload)
  | .stdout, payload => some (.cpStdout payload)
  | .stderr, payload => some (.cpStderr payload)
  | .error, payload => some (.cpError payload)
  | .warn, payload => some (.cpWarn payload)
  | .info, payload => some (.cpInfo payload)
  | .debug, payload => some (.cpDebug payload)
  | .trace, payload => some (.cpTrace payload)
  | .val, payload => some (.cpVal payload)
  | .get, payload => some (.cpGet payload)
  | .set, payload => some (.cpSet payload)

/-- The message writer that appends a message of a kind with a payload; an Exit message takes its one byte as
the scalar operand (R171, R175). -/
def messageWriter (k : Kind) (payload : List Byte) : Instr :=
  match blobWriter k payload with
  | some i => i
  | none => .cpExit (wordOf (fromBe payload))

/-! ## Sequences of operations -/

/-- Run operations one after the other, the host issuing each once the one before has answered (R66). -/
def runOps : List Instr → State → Option State
  | [], s => some s
  | i :: rest, s =>
    match exec i s with
    | .next t => runOps rest t
    | _ => none

/-- Successive `CP.READ` operations with room for every payload deliver these messages in order, one `Ok`
response each with its tag, length, size and payload, and then `Incomplete` with nothing left (R193). -/
def ReadsBack : List (Kind × List Byte) → State → Prop
  | [], s => remaining s.rxr = 0 ∧ ∀ dcap, OnlyAnswers (.cpRead dcap) s { status := .incomplete }
  | (k, payload) :: rest, s =>
    ∀ dcap : Word, payload.length ≤ dcap.toNat →
      ∃ t, exec (.cpRead dcap) s = .next t ∧
        Answered s t
          { status := .ok
            r0 := wordOf (kindTag k)
            r1 := wordOf payload.length
            r2 := wordOf (2 + payload.length)
            q0 := payload } ∧
        ReadsBack rest t

end Sys2Proof.Machine
end

