-- ==== Sys2Proof/Certificates/Slice0/Obligations.lean ====
section
/-! DEFINITION. The statements for the provers. Each docstring names the rules of the spec it formalises. "Good
state" is `State.Inv`. Statements that speak of every byte of a buffer cover dead bytes too, whose value
the spec leaves open (R28): that an operation keeps them is the model's choice (log entry 5). -/

open Sys2Proof Sys2Proof.Machine

/-- Decode and encode agree, both ways, for every operation and every command record. (30_encoding.md R60,
30_encoding.md R61, 30_encoding.md R62) -/
def Obligations.EncodeDecodeAgree : Prop :=
  (∀ (i : Instr), decode (encode i) = .ok i) ∧
    ∀ (c : Command) (i : Instr), decode c = .ok i →
      (encode i).cw = c.cw ∧
        (encode i).a0 = (if usesA0 i then c.a0 else 0#32) ∧
        (encode i).a1 = (if usesA1 i then c.a1 else 0#32) ∧
        (encode i).a2 = (if usesA2 i then c.a2 else 0#32) ∧
        (encode i).d0 = (if usesD0 i then c.d0 else []) ∧
        (encode i).d1 = (if usesD1 i then c.d1 else [])

/-- A command word is legal exactly when it is one of the 66 of the operation map; every other is answered
IllegalCommand. (R64, R201) -/
def Obligations.LegalCommandWords : Prop :=
  legalWords.length = 66 ∧ legalWords.Nodup ∧
    (∀ (c : Command), (∃ i, decode c = .ok i) ↔ c.cw.toNat ∈ legalWords) ∧
    ∀ (s : State) (c : Command) (rest : List Input),
      s.cursorsInBounds = true → s.pending = .command c :: rest → c.cw.toNat ∉ legalWords →
      ∃ t, step s = .next t ∧ Unchanged s t ∧ t.pending = rest ∧ t.caps = s.caps ∧
        t.responses = s.responses ++ [{ status := .illegalCommand }]

/-- An operand an operation does not use cannot affect which operation runs or with which operands.
(30_encoding.md R60, 30_encoding.md R62) -/
def Obligations.UnusedOperandsCannotMatter : Prop :=
  ∀ (c c' : Command) (i : Instr), decode c = .ok i → c'.cw = c.cw →
    (usesA0 i = true → c'.a0 = c.a0) → (usesA1 i = true → c'.a1 = c.a1) →
    (usesA2 i = true → c'.a2 = c.a2) → (usesD0 i = true → c'.d0 = c.d0) →
    (usesD1 i = true → c'.d1 = c.d1) → decode c' = .ok i

/-- One word of each unit, written out bit by bit, decodes to its operation. (30_encoding.md R61,
30_encoding.md R62, 30_encoding.md R67) -/
def Obligations.SampleWordsDecode : Prop :=
  decode { cw := 0b0000000000000000#16 } = .ok .sysReset ∧
    decode { cw := 0b0001010000000010#16, a1 := 7#32 } = .ok (.cbDrain .rxf 7#32) ∧
    decode { cw := 0b0010000100000000#16, a1 := 9#32, d0 := [2#8] } = .ok (.frDec [2#8] 9#32) ∧
    decode { cw := 0b0011110000000000#16 } = .ok .viRi7 ∧
    decode { cw := 0b0100000100000000#16, a0 := 300#32, d0 := [1#8] } = .ok (.tlvW16 300#32 [1#8]) ∧
    decode { cw := 0b0101101000000000#16, a1 := 8#32, a2 := 4#32 } = .ok (.atlvR32 8#32 4#32) ∧
    decode { cw := 0b0110000100000000#16 } = .ok .cpLoad ∧
    decode { cw := 0b1010001000000000#16, d0 := [104#8] } = .ok (.cpInfo [104#8])

/-- A step runs the operation the presented command decodes to. (00_scope.md R8, 10_state.md R26,
30_encoding.md R66) -/
def Obligations.StepRunsDecodedInstruction : Prop :=
  ∀ (s : State) (c : Command) (rest : List Input) (i : Instr),
    s.cursorsInBounds = true → s.pending = .command c :: rest → decode c = .ok i →
    i.wellFormed = true → step s = exec i (s.withPending rest)

/-- The reset input puts every cursor and RESYNC at 0 and gives no response; an idle block does not change
(model choice, log 2 and 3). (10_state.md R32, 70_reset_and_hazards.md R240, 70_reset_and_hazards.md R241) -/
def Obligations.StepResetsOnTheResetInput : Prop :=
  (∀ (s : State) (rest : List Input), s.cursorsInBounds = true → s.pending = .reset :: rest →
    ∃ t, step s = .next t ∧ (∀ b, (t.buf b).head = 0 ∧ (t.buf b).tail = 0) ∧ t.resync = false ∧
      t.pending = rest ∧ t.responses = s.responses ∧ t.caps = s.caps) ∧
    ∀ (s : State), s.cursorsInBounds = true → s.pending = [] → step s = .next s

/-- From a good state a step never faults (log 9) and refuses only a record that is no command of R60 (log 8).
Model choices: the one fault of `step`, which this excludes, is log entry 9; its one refusal, of a record
with a sampled byte string of 2^32 bytes or more, is log entry 8. No rule of the spec gives either; R60
defines what is no command. (00_scope.md R9, 10_state.md R33, 30_encoding.md R60, 60_exceptions.md R210) -/
def Obligations.GoodStatesNeverFault : Prop :=
  ∀ s : State, s.Inv →
    (∀ f, step s ≠ .fault f) ∧
      ∀ r, step s = .refused r →
        r = .operandTooLong ∧
          ∃ c rest i, s.pending = .command c :: rest ∧ decode c = .ok i ∧ i.wellFormed = false

/-- After reset, after a step on the reset input (log 2) and after SYS.RESET every cursor is 0 and RESYNC is
0. Model choice: that the reset input is a step of its own, between two operations, is log entry 2.
(10_state.md R32, 45_system.md R200, 70_reset_and_hazards.md R240) -/
def Obligations.ResetStateValues : Prop :=
  (∀ (b : BufId),
     (State.reset.buf b).head = 0 ∧ (State.reset.buf b).tail = 0) ∧ State.reset.resync = false ∧
    (∀ (s : State) (rest : List Input), s.cursorsInBounds = true → s.pending = .reset :: rest →
      ∃ t, step s = .next t ∧ (∀ b, (t.buf b).head = 0 ∧ (t.buf b).tail = 0) ∧ t.resync = false) ∧
    ∀ (s : State), ∃ t, exec .sysReset s = .next t ∧ (∀ b, (t.buf b).head = 0 ∧ (t.buf b).tail = 0) ∧
      t.resync = false

/-- The reset state satisfies the invariant, whatever the capacities. (10_state.md R33, 10_state.md R32,
00_scope.md R6) -/
def Obligations.ResetSatisfiesInvariant : Prop :=
  State.reset.Inv

/-- Every step keeps the invariant of the block. (10_state.md R33, 10_state.md R21, 00_scope.md R6,
20_memory.md R40, 20_memory.md R42) -/
def Obligations.StepKeepsInvariant : Prop :=
  ∀ s t : State, s.Inv → step s = .next t → t.Inv

/-- Every operation completes in every state with exactly one response, and touches neither the command
channel nor the capacities. (00_scope.md R9, 60_exceptions.md R210, 30_encoding.md R66) -/
def Obligations.EveryOperationAnswersOnce : Prop :=
  ∀ (i : Instr) (s : State), ∃ t r, exec i s = .next t ∧ Answered s t r

/-- A status other than Ok leaves the state as it was, but for the five listed cases, which change exactly
what the list says. (R225) -/
def Obligations.FailuresLeaveOnlyListedChanges : Prop :=
  ∀ (i : Instr) (s t : State) (r : Response),
    exec i s = .next t → t.responses = s.responses ++ [r] → r.status ≠ .ok →
    (failureMoves i r.status = false → LiveSame s t) ∧
    (∀ dcap, i = .frRead dcap → r.status = .sourceTooShort ∨ r.status = .destTooShort →
      FrameDiscarded s t ∧ LiveBuf s.txr t.txr ∧ LiveBuf s.txf t.txf ∧ LiveBuf s.rxr t.rxr) ∧
    (∀ dcap, i = .frRead dcap → r.status = .missingTerminator →
      StreamDiscarded s t ∧ LiveBuf s.txr t.txr ∧ LiveBuf s.txf t.txf ∧ LiveBuf s.rxr t.rxr) ∧
    (i = .cpLoad → r.status = .sourceTooShort ∨ r.status = .destTooShort →
      FrameDiscarded s t ∧ LiveBuf s.txr t.txr ∧ LiveBuf s.txf t.txf ∧ t.rxr.head = 0 ∧ t.rxr.tail = 0) ∧
    (i = .cpLoad → r.status = .missingTerminator →
      StreamDiscarded s t ∧ LiveBuf s.txr t.txr ∧ LiveBuf s.txf t.txf ∧ LiveBuf s.rxr t.rxr) ∧
    (∀ dcap, i = .cpRead dcap → r.status = .unknownTag ∨ r.status = .invalidEncoding →
      ∃ rec, tlvParse .w8 (window s.rxr) dcap.toNat = .ok rec ∧
        t.rxr.head = s.rxr.head + rec.consumed ∧ t.rxr.tail = s.rxr.tail ∧
        window t.rxr = (window s.rxr).drop rec.consumed ∧
        r.r0.toNat = rec.tag ∧ r.r1.toNat = rec.value.length ∧ (s.Inv → r.r2.toNat = rec.consumed) ∧
        r.q0 = rec.value ∧ r.q1 = [] ∧ LiveBuf s.txr t.txr ∧ LiveBuf s.txf t.txf ∧
        LiveBuf s.rxf t.rxf ∧ t.resync = s.resync)

/-- On every status other than Ok all result fields are default, except for CP.READ with UnknownTag or
InvalidEncoding. (30_encoding.md R65, 60_exceptions.md R225) -/
def Obligations.FailuresHaveDefaultResults : Prop :=
  ∀ (i : Instr) (s t : State) (r : Response),
    exec i s = .next t → t.responses = s.responses ++ [r] → r.status ≠ .ok →
    r = { status := r.status } ∨
      ∃ dcap, i = .cpRead dcap ∧ (r.status = .unknownTag ∨ r.status = .invalidEncoding)

/-- The block never delivers more bytes than the host said its destination can hold. (30_encoding.md R65) -/
def Obligations.DeliveredStringsFitTheHost : Prop :=
  ∀ (i : Instr) (s t : State) (r : Response), exec i s = .next t → t.responses = s.responses ++ [r] →
    (∀ dcap, dcapOf i = some dcap → r.q0.length ≤ dcap.toNat) ∧ (dcapOf i = none → r.q0 = []) ∧
    (∀ acap, acapOf i = some acap → r.q1.length ≤ acap.toNat) ∧ (acapOf i = none → r.q1 = [])

/-- An operation answers only with statuses that section 2 of 60_exceptions.md lists it under.
(60_exceptions.md R212, 60_exceptions.md R213, 60_exceptions.md R214, 60_exceptions.md R215,
60_exceptions.md R216, 60_exceptions.md R217, 60_exceptions.md R218, 60_exceptions.md R219,
60_exceptions.md R220, 60_exceptions.md R221, 60_exceptions.md R222) -/
def Obligations.OnlyListedStatusesAreRaised : Prop :=
  ∀ (i : Instr) (s t : State) (r : Response),
    i.wellFormed = true → exec i s = .next t → t.responses = s.responses ++ [r] →
    mayAnswer i r.status = true

/-- Each operation writes only the cursors the table of R24 gives it, and forward unless the rule says it may
go back. (10_state.md R24) -/
def Obligations.CursorsMoveOnlyAsListed : Prop :=
  ∀ (i : Instr) (s t : State) (b : BufId), s.Inv → exec i s = .next t →
    (mayWriteHead i b = false → (t.buf b).head = (s.buf b).head) ∧
    (mayWriteTail i b = false → (t.buf b).tail = (s.buf b).tail) ∧
    (mayMoveBack i b = false →
      (s.buf b).head ≤ (t.buf b).head ∧ (s.buf b).tail ≤ (t.buf b).tail)

/-- No operation changes a byte inside a window: bytes are only added at tail or removed at head, except by
CP.LOAD in RXR. (10_state.md R33, 20_memory.md R51) -/
def Obligations.WindowsChangeOnlyAtTheirEnds : Prop :=
  ∀ (i : Instr) (s t : State) (b : BufId), s.Inv → exec i s = .next t → ¬(i = .cpLoad ∧ b = .rxr) →
    (∃ bytes, window (t.buf b) = window (s.buf b) ++ bytes) ∨
      ∃ k, window (t.buf b) = (window (s.buf b)).drop k

/-- RESYNC is set only by FR.READ or CP.LOAD on a full window without a terminator, and cleared only by them
at a terminator or by SYS.RESET. (10_state.md R25, 41_frame_codec.md R115) -/
def Obligations.ResyncMovesOnlyAsListed : Prop :=
  ∀ (i : Instr) (s t : State), exec i s = .next t →
    (s.resync = false → t.resync = true →
      (i = .cpLoad ∨ ∃ dcap, i = .frRead dcap) ∧ window s.rxf ≠ [] ∧ (∀ b ∈ window s.rxf, b ≠ 0#8) ∧
        s.rxf.tail = s.caps.rxf ∧ window t.rxf = []) ∧
    (s.resync = true → t.resync = false →
      i = .sysReset ∨
        ((i = .cpLoad ∨ ∃ dcap, i = .frRead dcap) ∧
          ∃ z, firstZero (window s.rxf) = some z ∧ t.rxf.head = s.rxf.head + z + 1))

/-- The eleven status codes are those of the table, and no other 8-bit value is a status code. (R211) -/
def Obligations.StatusCodesAreAsTabled : Prop :=
  statusCode .ok = 0x00#8 ∧ statusCode .incomplete = 0x01#8 ∧ statusCode .bufferTooShort = 0x10#8 ∧
    statusCode .destTooShort = 0x11#8 ∧ statusCode .sourceTooShort = 0x12#8 ∧
    statusCode .unexpectedNull = 0x20#8 ∧ statusCode .missingTerminator = 0x21#8 ∧
    statusCode .invalidEncoding = 0x22#8 ∧ statusCode .outOfRange = 0x30#8 ∧
    statusCode .unknownTag = 0x40#8 ∧ statusCode .illegalCommand = 0xF0#8 ∧
    ∀ st, statusCode st ∈
      [0x00#8, 0x01#8, 0x10#8, 0x11#8, 0x12#8, 0x20#8, 0x21#8, 0x22#8, 0x30#8, 0x40#8, 0xF0#8]

/-- Unstuffing a stuffed frame gives the payload back exactly when the destination can hold it.
(41_frame_codec.md R114 (a), 41_frame_codec.md R110, 41_frame_codec.md R113) -/
def Obligations.UnstuffInvertsStuff : Prop :=
  ∀ s cap,
    (s.length ≤ cap → cobsDec (stuff s) cap = .ok s) ∧
      (cap < s.length → cobsDec (stuff s) cap = .error .destTooShort)

/-- A stuffed frame holds no zero byte and at least one byte, so its terminator is the first zero of the
stream. (41_frame_codec.md R114 (b), 41_frame_codec.md R114 (c), 30_encoding.md R72) -/
def Obligations.StuffedFramesHoldNoZero : Prop :=
  ∀ s, (∀ b ∈ stuff s, b ≠ 0#8) ∧ stuff s ≠ [] ∧
    ∀ rest, firstZero (terminatedFrame s ++ rest) = some (stuff s).length

/-- The stuffed length is |s| + 1 plus one byte per 254 bytes of each zero-free run. (41_frame_codec.md R112) -/
def Obligations.StuffedLengthIsExact : Prop :=
  ∀ s, (stuff s).length = s.length + 1 + fullRuns s 0 ∧ s.length + 1 ≤ (stuff s).length ∧
    (stuff s).length ≤ s.length + 1 + s.length / 254 ∧
    ((∀ b ∈ s, b ≠ 0#8) → (stuff s).length = s.length + 1 + s.length / 254)

/-- Decoding succeeds whenever the decoded length fits, and a destination of |src| - 1 bytes is always enough.
(41_frame_codec.md R113 (b), 70_reset_and_hazards.md R250) -/
def Obligations.UnstuffFailsOnlyWhenItDoesNotFit : Prop :=
  ∀ src,
    (∀ cap out, cobsDec src cap = .ok out →
      out.length ≤ cap ∧
        ∀ cap', cobsDec src cap' = if out.length ≤ cap' then .ok out else .error .destTooShort) ∧
    ∀ cap, src.length - 1 ≤ cap → cobsDec src cap ≠ .error .destTooShort

/-- Reading an unsigned varint back gives the value and its length, whatever follows; the encoding is minimal.
(42_varint.md R134, 42_varint.md R130, 42_varint.md R133, 30_encoding.md R77) -/
def Obligations.UnsignedVarintRoundTrip : Prop :=
  ∀ v rest, v < 2 ^ 32 →
    decU32 (lebU v ++ rest) = .ok (v, (lebU v).length) ∧
      (v ≠ 0 → (lebU v).getLast? ≠ some 0#8)

/-- Reading a signed varint back gives the value and its length, whatever follows. (42_varint.md R134,
42_varint.md R131, 30_encoding.md R75) -/
def Obligations.SignedVarintRoundTrip : Prop :=
  ∀ (v : Int) rest, -2 ^ 31 ≤ v → v < 2 ^ 31 →
    decI32 (lebS v ++ rest) = .ok (v, (lebS v).length)

/-- The encoded length of a varint, unsigned and signed, by the range of the value. (42_varint.md R130,
42_varint.md R131) -/
def Obligations.VarintLengthsByRange : Prop :=
  (∀ v : Nat, v < 2 ^ 32 →
    (lebU v).length =
      if v < 2 ^ 7 then 1 else if v < 2 ^ 14 then 2 else if v < 2 ^ 21 then 3
      else if v < 2 ^ 28 then 4 else 5) ∧
    ∀ v : Int, -2 ^ 31 ≤ v → v < 2 ^ 31 →
      (lebS v).length =
        if -2 ^ 6 ≤ v ∧ v < 2 ^ 6 then 1 else if -2 ^ 13 ≤ v ∧ v < 2 ^ 13 then 2
        else if -2 ^ 20 ≤ v ∧ v < 2 ^ 20 then 3 else if -2 ^ 27 ≤ v ∧ v < 2 ^ 27 then 4 else 5

/-- Which varints are out of range, unsigned and signed, by length and last byte. (42_varint.md R133,
42_varint.md R134, 30_encoding.md R74, 30_encoding.md R75) -/
def Obligations.VarintRangeChecks : Prop :=
  ∀ w k, varintLen w = some k →
    (6 ≤ k → decU32 w = .error .outOfRange ∧ decI32 w = .error .outOfRange) ∧
    (k ≤ 4 → (∃ v, decU32 w = .ok (v, k)) ∧ ∃ v, decI32 w = .ok (v, k)) ∧
    (k = 5 →
      ((w.getD 4 0#8).toNat ≤ 0x0F → ∃ v, decU32 w = .ok (v, k)) ∧
      (0x0F < (w.getD 4 0#8).toNat → decU32 w = .error .outOfRange) ∧
      ((w.getD 4 0#8).toNat ≤ 0x07 ∨ 0x78 ≤ (w.getD 4 0#8).toNat → ∃ v, decI32 w = .ok (v, k)) ∧
      (0x07 < (w.getD 4 0#8).toNat ∧ (w.getD 4 0#8).toNat < 0x78 → decI32 w = .error .outOfRange)) ∧
    (∀ v n, decU32 w = .ok (v, n) → v < 2 ^ 32 ∧ n = k) ∧
    ∀ v n, decI32 w = .ok (v, n) → -2 ^ 31 ≤ v ∧ v < 2 ^ 31 ∧ n = k

/-- A run of continuation bytes never becomes an error, however long, for the varint, TLV, ATLV and message
readers. (42_varint.md R132, 43_tlv.md R160, 70_reset_and_hazards.md R245) -/
def Obligations.ContinuationRunsStayIncomplete : Prop :=
  (∀ (s : State), (∀ b ∈ window s.rxr, topBit b = true) →
    OnlyAnswers .viRu32 s { status := .incomplete } ∧ OnlyAnswers .viRi32 s { status := .incomplete } ∧
      ∀ dcap, OnlyAnswers (.cpRead dcap) s { status := .incomplete } ∧
        ∀ n, OnlyAnswers (tlvRead n dcap) s { status := .incomplete }) ∧
    ∀ (n : LenWidth) (addr run : List Byte) (dcap acap : Word) (s : State),
      window s.rxr = lenField n addr.length ++ addr ++ run → addr.length ≤ maxLen n →
      addr.length ≤ acap.toNat → (∀ b ∈ run, topBit b = true) →
      OnlyAnswers (atlvRead n dcap acap) s { status := .incomplete }

/-- Parsing an encoded TLV record gives its tag and value back, at every length width and whatever follows.
(43_tlv.md R152, 43_tlv.md R151, 30_encoding.md R79) -/
def Obligations.TlvParseInvertsEncode : Prop :=
  ∀ n tag value e rest dcap, tag < 2 ^ 32 → tlvEnc n tag value = .ok e →
    tlvParse n (e ++ rest) dcap =
      if value.length ≤ dcap then .ok { tag := tag, value := value, consumed := e.length }
      else .error .destTooShort

/-- Parsing an encoded address-TLV record gives its address, tag and value back, at every length width.
(43_tlv.md R159, 43_tlv.md R160, 30_encoding.md R80) -/
def Obligations.AtlvParseInvertsEncode : Prop :=
  ∀ n addr tag value e rest dcap acap, tag < 2 ^ 32 → atlvEnc n addr tag value = .ok e →
    atlvParse n (e ++ rest) dcap acap =
      if addr.length ≤ acap ∧ value.length ≤ dcap then
        .ok { tag := tag, value := value, addr := addr, consumed := e.length }
      else .error .destTooShort

/-- Every proper front part of a record that would fit is Incomplete, never an error. (43_tlv.md R152,
43_tlv.md R160, 70_reset_and_hazards.md R249) -/
def Obligations.TruncatedRecordsStayIncomplete : Prop :=
  (∀ n tag value e j dcap, tag < 2 ^ 32 → tlvEnc n tag value = .ok e → value.length ≤ dcap →
    j < e.length → tlvParse n (e.take j) dcap = .error .incomplete) ∧
    ∀ n addr tag value e j dcap acap, tag < 2 ^ 32 → atlvEnc n addr tag value = .ok e →
      value.length ≤ dcap → addr.length ≤ acap → j < e.length →
      atlvParse n (e.take j) dcap acap = .error .incomplete

/-- DestTooShort is reported as soon as the length field is known, whatever part of the value has arrived.
(43_tlv.md R152, 43_tlv.md R160, 60_exceptions.md R224) -/
def Obligations.TooLongValueIsReportedAtItsLength : Prop :=
  (∀ n tag length part dcap, tag < 2 ^ 32 → length ≤ maxLen n → dcap < length →
    tlvParse n (lebU tag ++ lenField n length ++ part) dcap = .error .destTooShort) ∧
    ∀ n length part dcap acap, length ≤ maxLen n → acap < length →
      atlvParse n (lenField n length ++ part) dcap acap = .error .destTooShort

/-- Exactly the sixteen tags are control messages, each of its own kind, and only a one-byte Exit is well
formed. (30_encoding.md R82, 44_control_protocol.md R170, 44_control_protocol.md R172) -/
def Obligations.VocabularyIsClosed : Prop :=
  (∀ k, kindOfTag (kindTag k) = some k) ∧ (∀ tag k, kindOfTag tag = some k → kindTag k = tag) ∧
    (∀ tag, kindOfTag tag ≠ none ↔
      tag ∈ [1, 2, 3, 4, 5, 0x10, 0x11, 0x12, 0x20, 0x21, 0x22, 0x23, 0x24, 0x30, 0x31, 0x32]) ∧
    ∀ tag len, classify tag len =
      if kindOfTag tag = none then .unknownTag
      else if tag = 3 ∧ len ≠ 1 then .invalidEncoding else .ok

/-- SYS.RESET empties all buffers, clears RESYNC, writes no byte and answers Ok. (45_system.md R200) -/
def Obligations.SysResetResult : Prop :=
  ∀ (s : State), ∃ t, exec .sysReset s = .next t ∧ Answered s t { status := .ok } ∧ t.resync = false ∧
    ∀ b, (t.buf b).head = 0 ∧ (t.buf b).tail = 0 ∧ window (t.buf b) = [] ∧
      ∀ a, memRead (t.buf b).mem a = memRead (s.buf b).mem a

/-- CB.EXTEND appends the whole string at tail or nothing at all. (40_cursor_buffer.md R100,
40_cursor_buffer.md R101) -/
def Obligations.CbExtendResult : Prop :=
  ∀ (b : BufId) (bytes : List Byte) (s : State), s.Inv →
    (bytes.length ≤ s.space b → AppendsAndAnswers (.cbExtend b bytes) s b bytes) ∧
      (s.space b < bytes.length → OnlyAnswers (.cbExtend b bytes) s { status := .bufferTooShort })

/-- CB.ADVANCE drops n unread bytes, or rejects n past tail without clamping. (40_cursor_buffer.md R102,
40_cursor_buffer.md R106) -/
def Obligations.CbAdvanceResult : Prop :=
  ∀ (b : BufId) (n : Word) (s : State), s.Inv →
    (n.toNat ≤ remaining (s.buf b) →
      ∃ t, exec (.cbAdvance b n) s = .next t ∧ Consumed s t b n.toNat ∧ Answered s t { status := .ok }) ∧
    (remaining (s.buf b) < n.toNat → OnlyAnswers (.cbAdvance b n) s { status := .sourceTooShort })

/-- CB.COMPACT resets the cursors of an empty buffer and does nothing to any other. (40_cursor_buffer.md R103) -/
def Obligations.CbCompactResult : Prop :=
  ∀ (b : BufId) (s : State),
    ((s.buf b).head = (s.buf b).tail →
      ∃ t, exec (.cbCompact b) s = .next t ∧ (t.buf b).head = 0 ∧ (t.buf b).tail = 0 ∧
        (∀ a, memRead (t.buf b).mem a = memRead (s.buf b).mem a) ∧ OthersSame s t b ∧
        Answered s t { status := .ok, r0 := 1#32 }) ∧
    ((s.buf b).head ≠ (s.buf b).tail → OnlyAnswers (.cbCompact b) s { status := .ok })

/-- CB.STAT reports head, tail and capacity exactly and changes nothing. (40_cursor_buffer.md R104) -/
def Obligations.CbStatResult : Prop :=
  ∀ (b : BufId) (s : State), s.Inv →
    ∃ r0 r1 r2 : Word, r0.toNat = (s.buf b).head ∧ r1.toNat = (s.buf b).tail ∧ r2.toNat = s.cap b ∧
      OnlyAnswers (.cbStat b) s { status := .ok, r0 := r0, r1 := r1, r2 := r2 }

/-- CB.DRAIN delivers the first min(dcap, remaining) bytes of the window and consumes them.
(40_cursor_buffer.md R105) -/
def Obligations.CbDrainResult : Prop :=
  ∀ (b : BufId) (dcap : Word) (s : State), s.Inv →
    ∃ t n, exec (.cbDrain b dcap) s = .next t ∧ n.toNat = min dcap.toNat (remaining (s.buf b)) ∧
      Consumed s t b n.toNat ∧
      Answered s t { status := .ok, r0 := n, q0 := (window (s.buf b)).take n.toNat }

/-- FR.ENC delivers the stuffed string when it fits dcap, and touches no state. (41_frame_codec.md R111,
41_frame_codec.md R116) -/
def Obligations.FrEncResult : Prop :=
  ∀ (src : List Byte) (dcap : Word) (s : State),
    ((stuff src).length ≤ dcap.toNat →
      ∃ n : Word, n.toNat = (stuff src).length ∧
        OnlyAnswers (.frEnc src dcap) s { status := .ok, r0 := n, q0 := stuff src }) ∧
    (dcap.toNat < (stuff src).length → OnlyAnswers (.frEnc src dcap) s { status := .bufferTooShort })

/-- FR.DEC delivers what cobs_dec makes of its source or answers its failure, and cobs_dec goes group by group
as R113 says. (41_frame_codec.md R113, 41_frame_codec.md R117) -/
def Obligations.FrDecResult : Prop :=
  (∀ (src : List Byte) (dcap : Word) (s : State),
    (∀ p, cobsDec src dcap.toNat = .ok p →
      ∃ n : Word, n.toNat = p.length ∧
        OnlyAnswers (.frDec src dcap) s { status := .ok, r0 := n, q0 := p }) ∧
    ∀ e, cobsDec src dcap.toNat = .error e →
      (e = .unexpectedNull ∨ e = .sourceTooShort ∨ e = .destTooShort) ∧
      OnlyAnswers (.frDec src dcap) s { status := e }) ∧
  (∀ cap, cobsDec [] cap = .ok []) ∧
  (∀ rest cap, cobsDec (0#8 :: rest) cap = .error .unexpectedNull) ∧
  (∀ (code : Byte) rest cap, rest.length + 1 < code.toNat →
    cobsDec (code :: rest) cap = .error .sourceTooShort) ∧
  ∀ (code : Byte) (lits rest : List Byte) cap, lits.length + 1 = code.toNat →
    (∀ k, firstZero lits = some k →
      cobsDec (code :: (lits ++ rest)) cap =
        .error (if k ≤ cap then .unexpectedNull else .destTooShort)) ∧
    (firstZero lits = none →
      cobsDec (code :: (lits ++ rest)) cap =
        if cap < lits.length then .error .destTooShort
        else if rest = [] then .ok lits
        else if code = 0xFF#8 then (cobsDec rest (cap - lits.length)).map (fun out => lits ++ out)
        else if cap = lits.length then .error .destTooShort
        else (cobsDec rest (cap - lits.length - 1)).map (fun out => lits ++ 0#8 :: out))

/-- FR.WRITE appends the stuffed frame and its terminator to TXF together or not at all. (41_frame_codec.md
R118, 40_cursor_buffer.md R100) -/
def Obligations.FrWriteResult : Prop :=
  ∀ (src : List Byte) (s : State), s.Inv →
    ((stuff src).length + 1 ≤ s.space .txf →
      AppendsAndAnswers (.frWrite src) s .txf (stuff src ++ [0#8])) ∧
    (s.space .txf < (stuff src).length + 1 →
      OnlyAnswers (.frWrite src) s { status := .bufferTooShort })

/-- FR.READ delivers the payload of the first terminated frame of the stream and consumes that frame only. Any
span that decodes is meant: the frames E makes, the bare terminator of R115 (d), and those E never makes.
(41_frame_codec.md R115, 41_frame_codec.md R119, 41_frame_codec.md R113) -/
def Obligations.FrReadDeliversTheNextFrame : Prop :=
  ∀ (z cap : Nat) (p : List Byte) (dcap : Word) (s : State), s.Inv → s.resync = false →
    firstZero (window s.rxf) = some z → cobsDec ((window s.rxf).take z) cap = .ok p →
    (p.length ≤ dcap.toNat →
      ∃ t n, exec (.frRead dcap) s = .next t ∧ n.toNat = p.length ∧ Consumed s t .rxf (z + 1) ∧
        Answered s t { status := .ok, r0 := n, q0 := p }) ∧
    (dcap.toNat < p.length →
      ∃ t, exec (.frRead dcap) s = .next t ∧ Consumed s t .rxf (z + 1) ∧
        Answered s t { status := .destTooShort })

/-- What FR.READ and CP.LOAD do when there is no frame to take: Incomplete, MissingTerminator and
resynchronisation. (41_frame_codec.md R115, 10_state.md R25, 44_control_protocol.md R190) -/
def Obligations.StreamReaderWithoutAFrame : Prop :=
  ∀ (i : Instr) (s : State), (i = .cpLoad ∨ ∃ dcap, i = .frRead dcap) → s.Inv →
    (s.resync = false → firstZero (window s.rxf) = none →
      window s.rxf = [] ∨ s.rxf.tail < s.caps.rxf → OnlyAnswers i s { status := .incomplete }) ∧
    (s.resync = true → window s.rxf = [] → OnlyAnswers i s { status := .incomplete }) ∧
    (firstZero (window s.rxf) = none → window s.rxf ≠ [] →
      s.resync = true ∨ s.rxf.tail = s.caps.rxf →
      ∃ t, exec i s = .next t ∧ Answered s t { status := .missingTerminator } ∧
        t.rxf = { s.rxf with head := s.rxf.tail } ∧ t.resync = true ∧
        ∀ b, b ≠ .rxf → t.buf b = s.buf b) ∧
    ∀ (z : Nat), s.resync = true → firstZero (window s.rxf) = some z →
      ∃ t, exec i s = .next t ∧ Answered s t { status := .missingTerminator } ∧
        t.rxf = { s.rxf with head := s.rxf.head + z + 1 } ∧ t.resync = false ∧
        ∀ b, b ≠ .rxf → t.buf b = s.buf b

/-- A terminated span that does not decode is discarded, with SourceTooShort or DestTooShort, by FR.READ and
by CP.LOAD. That CP.LOAD leaves RXR empty is R190, R215 and R225. Model choice: that the bytes of RXR, all
dead then, keep what they held is log entry 5. (41_frame_codec.md R115, 44_control_protocol.md R190,
60_exceptions.md R215, 60_exceptions.md R217, 60_exceptions.md R225) -/
def Obligations.CorruptFramesAreDiscarded : Prop :=
  ∀ (s : State) (z : Nat), s.Inv → s.resync = false → firstZero (window s.rxf) = some z →
    (∀ (dcap : Word) e, cobsDec ((window s.rxf).take z) dcap.toNat = .error e →
      (e = .sourceTooShort ∨ e = .destTooShort) ∧
      ∃ t, exec (.frRead dcap) s = .next t ∧ Consumed s t .rxf (z + 1) ∧
        Answered s t { status := e }) ∧
    ∀ e, cobsDec ((window s.rxf).take z) s.caps.rxr = .error e →
      (e = .sourceTooShort ∨ e = .destTooShort) ∧
      ∃ t, exec .cpLoad s = .next t ∧ t.rxf = { s.rxf with head := s.rxf.head + z + 1 } ∧
        t.rxr = { s.rxr with head := 0, tail := 0 } ∧ t.txr = s.txr ∧ t.txf = s.txf ∧
        t.resync = s.resync ∧ Answered s t { status := e }

/-- Feeding more stream bytes first does not change the frame that is read next. (41_frame_codec.md R119,
20_memory.md R51) -/
def Obligations.LaterBytesDoNotChangeAFrame : Prop :=
  ∀ (dcap : Word) (bytes : List Byte) (s t : State) (r : Response) (u : State),
    s.Inv → exec (.frRead dcap) s = .next t →
    t.responses = s.responses ++ [r] → r.status = .ok → bytes.length ≤ s.space .rxf →
    exec (.cbExtend .rxf bytes) s = .next u →
    ∃ v, exec (.frRead dcap) u = .next v ∧ v.responses = u.responses ++ [r]

/-- VI.WU32 and VI.WI32 append the canonical varint of their operand to TXR, or nothing. (42_varint.md R135,
42_varint.md R136) -/
def Obligations.VarintWritersResult : Prop :=
  ∀ (value : Word) (s : State), s.Inv →
    ((lebU value.toNat).length ≤ s.space .txr →
      AppendsAndAnswers (.viWu32 value) s .txr (lebU value.toNat)) ∧
    (s.space .txr < (lebU value.toNat).length →
      OnlyAnswers (.viWu32 value) s { status := .bufferTooShort }) ∧
    ((lebS value.toInt).length ≤ s.space .txr →
      AppendsAndAnswers (.viWi32 value) s .txr (lebS value.toInt)) ∧
    (s.space .txr < (lebS value.toInt).length →
      OnlyAnswers (.viWi32 value) s { status := .bufferTooShort })

/-- VI.WU1, VI.WU7 and VI.WI7 append one byte equal to the general varint, reject operands out of range first,
then a full TXR. (42_varint.md R137, 42_varint.md R138, 42_varint.md R139, 60_exceptions.md R224) -/
def Obligations.NarrowWritersResult : Prop :=
  ∀ (value : Word) (s : State), s.Inv →
    (1 ≤ s.space .txr →
      (value.toNat ≤ 1 → AppendsAndAnswers (.viWu1 value) s .txr (lebU value.toNat)) ∧
      (value.toNat ≤ 127 → AppendsAndAnswers (.viWu7 value) s .txr (lebU value.toNat)) ∧
      (-64 ≤ value.toInt ∧ value.toInt ≤ 63 →
        AppendsAndAnswers (.viWi7 value) s .txr (lebS value.toInt))) ∧
    (s.space .txr = 0 →
      (value.toNat ≤ 1 → OnlyAnswers (.viWu1 value) s { status := .bufferTooShort }) ∧
      (value.toNat ≤ 127 → OnlyAnswers (.viWu7 value) s { status := .bufferTooShort }) ∧
      (-64 ≤ value.toInt ∧ value.toInt ≤ 63 →
        OnlyAnswers (.viWi7 value) s { status := .bufferTooShort })) ∧
    (1 < value.toNat → OnlyAnswers (.viWu1 value) s { status := .outOfRange }) ∧
    (127 < value.toNat → OnlyAnswers (.viWu7 value) s { status := .outOfRange }) ∧
    (value.toInt < -64 ∨ 63 < value.toInt → OnlyAnswers (.viWi7 value) s { status := .outOfRange })

/-- VI.RU32 and VI.RI32 deliver the value of the varint at RXR.head and consume it, or change nothing.
(42_varint.md R140, 42_varint.md R141) -/
def Obligations.VarintReadersResult : Prop :=
  ∀ (s : State), s.Inv →
    (∀ v k, decU32 (window s.rxr) = .ok (v, k) →
      ∃ r0 r1 : Word, r0.toNat = v ∧ r1.toNat = k ∧
        ConsumesAndAnswers .viRu32 s k { status := .ok, r0 := r0, r1 := r1 }) ∧
    (∀ e, decU32 (window s.rxr) = .error e → OnlyAnswers .viRu32 s { status := e }) ∧
    (∀ v k, decI32 (window s.rxr) = .ok (v, k) →
      ∃ r0 r1 : Word, r0.toInt = v ∧ r1.toNat = k ∧
        ConsumesAndAnswers .viRi32 s k { status := .ok, r0 := r0, r1 := r1 }) ∧
    ∀ e, decI32 (window s.rxr) = .error e → OnlyAnswers .viRi32 s { status := e }

/-- VI.RU1, VI.RU7 and VI.RI7 deliver the one byte at RXR.head, or reject its reserved bits, or are Incomplete
on an empty window. (42_varint.md R142, 42_varint.md R143, 42_varint.md R144, 30_encoding.md R76) -/
def Obligations.NarrowReadersResult : Prop :=
  ∀ (s : State), s.Inv →
    (window s.rxr = [] →
      OnlyAnswers .viRu1 s { status := .incomplete } ∧ OnlyAnswers .viRu7 s { status := .incomplete } ∧
        OnlyAnswers .viRi7 s { status := .incomplete }) ∧
    ∀ (b : Byte) (rest : List Byte), window s.rxr = b :: rest →
      (b.toNat ≤ 1 → ∃ r0 : Word, r0.toNat = b.toNat ∧
        ConsumesAndAnswers .viRu1 s 1 { status := .ok, r0 := r0, r1 := 1#32 }) ∧
      (1 < b.toNat → OnlyAnswers .viRu1 s { status := .outOfRange }) ∧
      (b.toNat ≤ 127 → ∃ r0 : Word, r0.toNat = b.toNat ∧
        ConsumesAndAnswers .viRu7 s 1 { status := .ok, r0 := r0, r1 := 1#32 }) ∧
      (127 < b.toNat → OnlyAnswers .viRu7 s { status := .outOfRange }) ∧
      (b.toNat ≤ 127 → ∃ r0 : Word,
        r0.toInt = (if b.toNat ≤ 63 then (b.toNat : Int) else (b.toNat : Int) - 128) ∧
        ConsumesAndAnswers .viRi7 s 1 { status := .ok, r0 := r0, r1 := 1#32 }) ∧
      (127 < b.toNat → OnlyAnswers .viRi7 s { status := .outOfRange })

/-- TLV.W8, TLV.W16 and TLV.W32 append tag, big-endian length and value to TXR whole, or change nothing.
(43_tlv.md R153, 43_tlv.md R154, 43_tlv.md R155, 60_exceptions.md R224) -/
def Obligations.TlvWritersResult : Prop :=
  ∀ (n : LenWidth) (tag : Word) (value : List Byte) (s : State), s.Inv →
    (value.length ≤ maxLen n →
      (lebU tag.toNat).length + lenBytes n + value.length ≤ s.space .txr →
      AppendsAndAnswers (tlvWrite n tag value) s .txr
        (lebU tag.toNat ++ lenField n value.length ++ value)) ∧
    (maxLen n < value.length → OnlyAnswers (tlvWrite n tag value) s { status := .outOfRange }) ∧
    (value.length ≤ maxLen n →
      s.space .txr < (lebU tag.toNat).length + lenBytes n + value.length →
      OnlyAnswers (tlvWrite n tag value) s { status := .bufferTooShort })

/-- TLV.R8, TLV.R16 and TLV.R32 deliver the record at RXR.head and consume it, or change nothing. (43_tlv.md
R156, 43_tlv.md R157, 43_tlv.md R158) -/
def Obligations.TlvReadersResult : Prop :=
  ∀ (n : LenWidth) (dcap : Word) (s : State), s.Inv →
    (∀ rec, tlvParse n (window s.rxr) dcap.toNat = .ok rec →
      ∃ r0 r1 r2 : Word, r0.toNat = rec.tag ∧ r1.toNat = rec.value.length ∧ r2.toNat = rec.consumed ∧
        ConsumesAndAnswers (tlvRead n dcap) s rec.consumed
          { status := .ok, r0 := r0, r1 := r1, r2 := r2, q0 := rec.value }) ∧
    ∀ e, tlvParse n (window s.rxr) dcap.toNat = .error e →
      OnlyAnswers (tlvRead n dcap) s { status := e }

/-- ATLV.W8, ATLV.W16 and ATLV.W32 append address, tag and value with their length fields to TXR whole, or
change nothing. (43_tlv.md R161, 43_tlv.md R162, 43_tlv.md R163, 60_exceptions.md R224) -/
def Obligations.AtlvWritersResult : Prop :=
  ∀ (n : LenWidth) (tag : Word) (value addr : List Byte) (s : State), s.Inv →
    (addr.length ≤ maxLen n → value.length ≤ maxLen n →
      lenBytes n + addr.length + (lebU tag.toNat).length + lenBytes n + value.length ≤ s.space .txr →
      AppendsAndAnswers (atlvWrite n tag value addr) s .txr
        (lenField n addr.length ++ addr ++ (lebU tag.toNat ++ lenField n value.length ++ value))) ∧
    (maxLen n < addr.length ∨ maxLen n < value.length →
      OnlyAnswers (atlvWrite n tag value addr) s { status := .outOfRange }) ∧
    (addr.length ≤ maxLen n → value.length ≤ maxLen n →
      s.space .txr < lenBytes n + addr.length + (lebU tag.toNat).length + lenBytes n + value.length →
      OnlyAnswers (atlvWrite n tag value addr) s { status := .bufferTooShort })

/-- ATLV.R8, ATLV.R16 and ATLV.R32 deliver the addressed record at RXR.head and consume it, or change nothing.
(43_tlv.md R164, 43_tlv.md R165, 43_tlv.md R166) -/
def Obligations.AtlvReadersResult : Prop :=
  ∀ (n : LenWidth) (dcap acap : Word) (s : State), s.Inv →
    (∀ rec, atlvParse n (window s.rxr) dcap.toNat acap.toNat = .ok rec →
      ∃ r0 r1 r2 : Word, r0.toNat = rec.tag ∧ r1.toNat = rec.value.length ∧ r2.toNat = rec.addr.length ∧
        ConsumesAndAnswers (atlvRead n dcap acap) s rec.consumed
          { status := .ok, r0 := r0, r1 := r1, r2 := r2, q0 := rec.value, q1 := rec.addr }) ∧
    ∀ e, atlvParse n (window s.rxr) dcap.toNat acap.toNat = .error e →
      OnlyAnswers (atlvRead n dcap acap) s { status := e }

/-- Each of the fifteen blob message writers appends its tag byte, the length byte and the payload to TXR, or
changes nothing. (44_control_protocol.md R171, 44_control_protocol.md R173, 44_control_protocol.md R174,
44_control_protocol.md R176, 44_control_protocol.md R177, 30_encoding.md R81, 30_encoding.md R82) -/
def Obligations.MessageWritersResult : Prop :=
  ∀ (k : Kind) (payload : List Byte) (i : Instr) (s : State), blobWriter k payload = some i → s.Inv →
    (payload.length ≤ 255 → 2 + payload.length ≤ s.space .txr →
      AppendsAndAnswers i s .txr (byteOf (kindTag k) :: byteOf payload.length :: payload)) ∧
    (255 < payload.length → OnlyAnswers i s { status := .outOfRange }) ∧
    (payload.length ≤ 255 → s.space .txr < 2 + payload.length →
      OnlyAnswers i s { status := .bufferTooShort })

/-- CP.EXIT appends 03 01 and the status byte, or changes nothing. (44_control_protocol.md R175,
30_encoding.md R83) -/
def Obligations.CpExitResult : Prop :=
  ∀ (status : Word) (s : State), s.Inv →
    (status.toNat ≤ 255 → 3 ≤ s.space .txr →
      AppendsAndAnswers (.cpExit status) s .txr [0x03#8, 0x01#8, status.setWidth 8]) ∧
    (255 < status.toNat → OnlyAnswers (.cpExit status) s { status := .outOfRange }) ∧
    (status.toNat ≤ 255 → s.space .txr < 3 →
      OnlyAnswers (.cpExit status) s { status := .bufferTooShort })

/-- CP.FINISH frames the records of TXR into TXF and empties TXR, or changes nothing. (44_control_protocol.md
R189, 70_reset_and_hazards.md R252) -/
def Obligations.CpFinishResult : Prop :=
  ∀ (s : State), s.Inv →
    ((stuff (window s.txr)).length + 1 ≤ s.space .txf →
      ∃ t n, exec .cpFinish s = .next t ∧ n.toNat = (stuff (window s.txr)).length + 1 ∧
        Answered s t { status := .ok, r0 := n } ∧
        t.txf.head = s.txf.head ∧ t.txf.tail = s.txf.tail + n.toNat ∧
        window t.txf = window s.txf ++ stuff (window s.txr) ++ [0#8] ∧
        (∀ a, a < s.txf.tail ∨ s.txf.tail + n.toNat ≤ a →
          memRead t.txf.mem a = memRead s.txf.mem a) ∧
        t.txr.head = 0 ∧ t.txr.tail = 0 ∧
        (∀ a, memRead t.txr.mem a = memRead s.txr.mem a) ∧
        t.rxf = s.rxf ∧ t.rxr = s.rxr ∧ t.resync = s.resync) ∧
    (s.space .txf < (stuff (window s.txr)).length + 1 →
      OnlyAnswers .cpFinish s { status := .bufferTooShort })

/-- CP.LOAD replaces the content of RXR by the payload of the next frame of the stream. Any span that decodes
is meant: the frames E makes, the bare terminator of R115 (d), and those E never makes. Model choice: that
the bytes of RXR past the payload, which are dead, keep what they held is log entry 5.
(44_control_protocol.md R190, 41_frame_codec.md R115, 41_frame_codec.md R113, 70_reset_and_hazards.md
R243) -/
def Obligations.CpLoadResult : Prop :=
  ∀ (z : Nat) (p : List Byte) (s : State), s.Inv → s.resync = false →
    firstZero (window s.rxf) = some z → cobsDec ((window s.rxf).take z) s.caps.rxr = .ok p →
    ∃ t n, exec .cpLoad s = .next t ∧ n.toNat = p.length ∧ Answered s t { status := .ok, r0 := n } ∧
      t.rxf = { s.rxf with head := s.rxf.head + z + 1 } ∧
      window t.rxf = (window s.rxf).drop (z + 1) ∧
      t.rxr.head = 0 ∧ t.rxr.tail = p.length ∧ window t.rxr = p ∧
      (∀ a, p.length ≤ a → memRead t.rxr.mem a = memRead s.rxr.mem a) ∧
      t.txr = s.txr ∧ t.txf = s.txf ∧ t.resync = false

/-- CP.READ delivers and consumes the next record under the status of its class, or changes nothing.
(44_control_protocol.md R191, 44_control_protocol.md R192, 44_control_protocol.md R172) -/
def Obligations.CpReadResult : Prop :=
  ∀ (dcap : Word) (s : State), s.Inv →
    (∀ rec, tlvParse .w8 (window s.rxr) dcap.toNat = .ok rec →
      ∃ r0 r1 r2 : Word, r0.toNat = rec.tag ∧ r1.toNat = rec.value.length ∧ r2.toNat = rec.consumed ∧
        ConsumesAndAnswers (.cpRead dcap) s rec.consumed
          { status :=
              if kindOfTag rec.tag = none then .unknownTag
              else if rec.tag = 3 ∧ rec.value.length ≠ 1 then .invalidEncoding else .ok
            r0 := r0, r1 := r1, r2 := r2, q0 := rec.value }) ∧
    ∀ e, tlvParse .w8 (window s.rxr) dcap.toNat = .error e →
      OnlyAnswers (.cpRead dcap) s { status := e }

/-- End to end: messages written, framed, carried over and loaded are read back in order with the same tags
and payloads. (44_control_protocol.md R193) -/
def Obligations.MessagesComeBackInOrder : Prop :=
  ∀ (msgs : List (Kind × List Byte)) (s t u : State) (rs : List Response),
    s.Inv → s.txr.head = s.txr.tail → s.txf.head = s.txf.tail →
    (∀ m ∈ msgs, m.1 = .exit → m.2.length = 1) →
    runOps (msgs.map (fun m => messageWriter m.1 m.2) ++ [.cpFinish]) s = some t →
    t.responses = s.responses ++ rs → (∀ r ∈ rs, r.status = .ok) →
    u.Inv → u.resync = false → u.rxf.head = u.rxf.tail →
    (window t.txf).length ≤ u.space .rxf →
    (msgs.map (fun m => 2 + m.2.length)).sum ≤ u.caps.rxr →
    ∃ v r1 r2, runOps [.cbExtend .rxf (window t.txf), .cpLoad] u = some v ∧
      v.responses = u.responses ++ [r1, r2] ∧ r1.status = .ok ∧ r2.status = .ok ∧
      window v.rxf = [] ∧ ReadsBack msgs v
end

