-- ==== Sys2Proof/Laws/Codec.lean ====
section
/-! SUPPORT. What the pure codec functions can answer, each said once. -/

namespace Sys2Proof.Machine

/-! ## Bytes and scalars -/

theorem byteOf_toNat (n : Nat) (h : n < 256) : (byteOf n).toNat = n := by
  rw [byteOf, BitVec.toNat_ofNat, Nat.mod_eq_of_lt h]

theorem byteOf_ne_zero (n : Nat) (h : n < 256) (h0 : 0 < n) : byteOf n ≠ 0#8 := by
  intro h'
  have := congrArg BitVec.toNat h'
  rw [byteOf_toNat n h] at this
  exact absurd this (Nat.ne_of_gt h0)

theorem wordOf_toNat (n : Nat) (h : n < 2 ^ 32) : (wordOf n).toNat = n := by
  rw [wordOf, BitVec.toNat_ofNat, Nat.mod_eq_of_lt h]

/-- A group below 128 is the last of its varint, and its seven bits are the number (R73). -/
theorem last_group (n : Nat) (h : n < 128) : topBit (byteOf n) = false ∧ low7 (byteOf n) = n := by
  have key : ∀ n : Fin 128, topBit (byteOf n.val) = false ∧ low7 (byteOf n.val) = n.val := by decide
  exact key ⟨n, h⟩

/-- A group with bit 7 set is not the last, and its seven bits are the number (R73). -/
theorem continued_group (n : Nat) (h : n < 128) :
    topBit (byteOf (0x80 + n)) = true ∧ low7 (byteOf (0x80 + n)) = n := by
  have key : ∀ n : Fin 128, topBit (byteOf (0x80 + n.val)) = true ∧ low7 (byteOf (0x80 + n.val)) = n.val := by
    decide
  exact key ⟨n, h⟩

/-! ## Big-endian fields -/

@[simp] theorem beBytes_length (count n : Nat) : (beBytes count n).length = count := by
  induction count with
  | zero => rfl
  | succ count ih => rw [beBytes, List.length_cons, ih]

@[simp] theorem lenField_length (n : LenWidth) (length : Nat) : (lenField n length).length = lenBytes n :=
  beBytes_length ..

/-- `from_be` undoes `be_N` for every number the field can hold (R11). -/
theorem fromBe_beBytes (count n : Nat) (h : n < 256 ^ count) : fromBe (beBytes count n) = n := by
  have key : ∀ count n, fromBe (beBytes count n) = n % 256 ^ count := by
    intro count
    induction count with
    | zero => intro n; simp [beBytes, fromBe, Nat.mod_one]
    | succ count ih =>
      intro n
      rw [beBytes, fromBe, ih, beBytes_length, byteOf, BitVec.toNat_ofNat, Nat.pow_succ, Nat.mul_comm,
        Nat.add_comm]
      exact (Nat.mod_mul ..).symm
  rw [key, Nat.mod_eq_of_lt h]

theorem lenBytes_pos (n : LenWidth) : 0 < lenBytes n := by cases n <;> decide

/-- A length that passes the check of R150 is below `256^(N/8)`. -/
theorem lt_of_le_maxLen (n : LenWidth) (length : Nat) (h : length ≤ maxLen n) : length < 256 ^ lenBytes n := by
  have : 0 < 256 ^ lenBytes n := Nat.pow_pos (by decide)
  rw [maxLen] at h
  omega

theorem maxLen_lt (n : LenWidth) : maxLen n < 2 ^ 32 := by cases n <;> decide

/-! ## Decoding a stuffed frame -/

/-- All that copying a group's literals can answer (R113): the literals themselves when none is zero and they
fit; otherwise one of two statuses. -/
theorem copyLiterals_cases (l : List Byte) (room : Nat) :
    (copyLiterals l room = .ok l ∧ l.length ≤ room ∧ ∀ b ∈ l, b ≠ 0#8) ∨
      (copyLiterals l room = .error .unexpectedNull ∧ ∃ b ∈ l, b = 0#8) ∨
      (copyLiterals l room = .error .destTooShort ∧ room < l.length) := by
  induction l generalizing room with
  | nil => exact .inl ⟨by simp [copyLiterals], by simp, by simp⟩
  | cons c rest ih =>
    unfold copyLiterals
    split
    · exact .inr (.inl ⟨rfl, c, List.mem_cons_self .., ‹_›⟩)
    · cases room with
      | zero => exact .inr (.inr ⟨rfl, by simp⟩)
      | succ room =>
        rcases ih room with ⟨h, hl, hz⟩ | ⟨h, b, hb, h0⟩ | ⟨h, hl⟩ <;> simp only [h]
        · refine .inl ⟨by simp, by simp; omega, ?_⟩
          intro b hb
          rcases List.mem_cons.mp hb with rfl | hb
          · assumption
          · exact hz b hb
        · exact .inr (.inl ⟨by simp, b, List.mem_cons_of_mem _ hb, h0⟩)
        · exact .inr (.inr ⟨by simp, by simp; omega⟩)

/-- Literals that are not zero and fit are copied as they are (R113). -/
theorem copyLiterals_of_fits (l : List Byte) (room : Nat) (h : l.length ≤ room) (hz : ∀ b ∈ l, b ≠ 0#8) :
    copyLiterals l room = .ok l := by
  rcases copyLiterals_cases l room with ⟨hc, -⟩ | ⟨-, b, hb, h0⟩ | ⟨-, hl⟩
  · exact hc
  · exact absurd h0 (hz b hb)
  · omega

/-- Which of the answers copying gives (R113 (d)): the first zero literal is met exactly when the literals before
it fit. -/
theorem copyLiterals_eq (l : List Byte) (room : Nat) :
    copyLiterals l room =
      match firstZero l with
      | some k => .error (if k ≤ room then .unexpectedNull else .destTooShort)
      | none => if l.length ≤ room then .ok l else .error .destTooShort := by
  induction l generalizing room with
  | nil => simp [copyLiterals, firstZero]
  | cons c rest ih =>
    unfold copyLiterals firstZero
    split
    · simp
    · cases room with
      | zero => cases firstZero rest <;> simp
      | succ room =>
        simp only [ih]
        cases firstZero rest with
        | some k => simp
        | none => by_cases h : rest.length ≤ room <;> simp [h]

/-- What a decoder that succeeds delivers fits the room it had (R113, R65). -/
theorem unstuffGroups_length (fuel : Nat) (src : List Byte) (room : Nat) (out : List Byte)
    (h : unstuffGroups fuel src room = .ok out) : out.length ≤ room := by
  induction fuel generalizing src room out with
  | zero => cases src <;> (simp [unstuffGroups] at h; subst h; simp)
  | succ fuel ih =>
    cases src with
    | nil => simp [unstuffGroups] at h; subst h; simp
    | cons code rest =>
      simp only [unstuffGroups] at h
      split at h
      · cases h
      · split at h
        · cases h
        · rcases copyLiterals_cases (rest.take (code.toNat - 1)) room with ⟨hc, hl, -⟩ | ⟨hc, -⟩ | ⟨hc, -⟩ <;>
            simp only [hc] at h
          · rw [List.length_take, Nat.min_eq_left (by omega)] at hl
            split at h
            · split at h
              · cases h
              · rename_i hroom
                split at h
                · cases h
                · rename_i htail
                  cases h
                  have := ih _ _ _ htail
                  simp only [List.length_append, List.length_take, List.length_cons]
                  omega
            · split at h
              · cases h
              · rename_i htail
                cases h
                have := ih _ _ _ htail
                simp only [List.length_append, List.length_take]
                omega
          · cases h
          · cases h

/-- What `cobs_dec` delivers fits the capacity it was given (R113). -/
theorem cobsDec_length (src : List Byte) (cap : Nat) (out : List Byte) (h : cobsDec src cap = .ok out) :
    out.length ≤ cap :=
  unstuffGroups_length _ _ _ _ h

/-- The statuses with which a decode can fail (R113). -/
theorem cobsDec_error (src : List Byte) (cap : Nat) (e : Status) (h : cobsDec src cap = .error e) :
    e = .unexpectedNull ∨ e = .sourceTooShort ∨ e = .destTooShort := by
  unfold cobsDec at h
  generalize src.length = fuel at h
  induction fuel generalizing src cap with
  | zero => cases src <;> simp [unstuffGroups] at h
  | succ fuel ih =>
    cases src with
    | nil => simp [unstuffGroups] at h
    | cons code rest =>
      simp only [unstuffGroups] at h
      split at h
      · cases h; simp
      · split at h
        · cases h; simp
        · rcases copyLiterals_cases (rest.take (code.toNat - 1)) cap with ⟨hc, hl, -⟩ | ⟨hc, -⟩ | ⟨hc, -⟩ <;>
            simp only [hc] at h
          · split at h
            · split at h
              · cases h; simp
              · split at h
                · rename_i htail; cases h; exact ih _ _ htail
                · cases h
            · split at h
              · rename_i htail; cases h; exact ih _ _ htail
              · cases h
          · cases h; simp
          · cases h; simp

/-- A string without a zero never fails with `UnexpectedNull` (R217). -/
theorem cobsDec_ne_unexpectedNull (src : List Byte) (cap : Nat) (hz : ∀ b ∈ src, b ≠ 0#8) :
    cobsDec src cap ≠ .error .unexpectedNull := by
  unfold cobsDec
  generalize src.length = fuel
  induction fuel generalizing src cap with
  | zero => cases src <;> simp [unstuffGroups]
  | succ fuel ih =>
    cases src with
    | nil => simp [unstuffGroups]
    | cons code rest =>
      intro h
      simp only [unstuffGroups] at h
      have hrest : ∀ b ∈ rest, b ≠ 0#8 := fun b hb => hz b (List.mem_cons_of_mem _ hb)
      have hdrop : ∀ n, ∀ b ∈ rest.drop n, b ≠ 0#8 := fun n b hb => hrest b (List.mem_of_mem_drop hb)
      split at h
      · exact hz code (List.mem_cons_self ..) ‹_›
      · split at h
        · cases h
        · rcases copyLiterals_cases (rest.take (code.toNat - 1)) cap with
            ⟨hc, hl, -⟩ | ⟨hc, b, hb, h0⟩ | ⟨hc, -⟩ <;> simp only [hc] at h
          · split at h
            · split at h
              · cases h
              · split at h
                · rename_i htail; cases h; exact ih _ _ (hdrop _) htail
                · cases h
            · split at h
              · rename_i htail; cases h; exact ih _ _ (hdrop _) htail
              · cases h
          · exact hrest b (List.mem_of_mem_take hb) h0
          · cases h

/-! ## Varints -/

/-- A varint that has ended lies inside the string and takes at least one byte (R132). -/
theorem varintLen_bounds (w : List Byte) (k : Nat) (h : varintLen w = some k) : 1 ≤ k ∧ k ≤ w.length := by
  induction w generalizing k with
  | nil => cases h
  | cons b rest ih =>
    rw [varintLen] at h
    split at h
    · obtain ⟨j, hj, rfl⟩ := Option.map_eq_some_iff.mp h
      have := ih j hj
      rw [List.length_cons]; omega
    · cases h; simp

/-- A signed group is the last exactly when what is left fits its seven bits (R131). -/
theorem lebSGroups_succ (fuel : Nat) (v : Int) :
    lebSGroups (fuel + 1) v =
      if -64 ≤ v ∧ v < 64 then [byteOf (v % 128).toNat]
      else byteOf (0x80 + (v % 128).toNat) :: lebSGroups fuel (v / 128) := by
  have h7 : asr7 v = v / 128 := rfl
  rw [lebSGroups]
  by_cases h : -64 ≤ v ∧ v < 64
  · rw [if_pos h, if_pos (by rw [h7]; omega)]
  · rw [if_neg h, if_neg (by rw [h7]; omega), h7]

theorem groupSum_append (a b : List Byte) : groupSum (a ++ b) = groupSum a + 128 ^ a.length * groupSum b := by
  induction a with
  | nil => simp [groupSum]
  | cons c rest ih =>
    simp only [List.cons_append, groupSum, ih, List.length_cons, pow_succ]
    ring

theorem groupSum_lt (w : List Byte) : groupSum w < 128 ^ w.length := by
  induction w with
  | nil => simp [groupSum]
  | cons b rest ih =>
    simp only [groupSum, List.length_cons, pow_succ]
    have : low7 b < 128 := Nat.mod_lt _ (by decide)
    omega

/-- Bytes that all continue hold no whole varint (R132). -/
theorem varintLen_eq_none (w : List Byte) (h : ∀ b ∈ w, topBit b = true) : varintLen w = none := by
  induction w with
  | nil => rfl
  | cons b rest ih =>
    rw [varintLen, if_pos (h b (List.mem_cons_self ..)), ih fun c hc => h c (List.mem_cons_of_mem _ hc)]
    rfl

/-- A varint cut short holds no whole varint (R132). -/
theorem varintLen_take (w : List Byte) (k j : Nat) (h : varintLen w = some k) (hj : j < k) :
    varintLen (w.take j) = none := by
  induction w generalizing k j with
  | nil => cases h
  | cons b rest ih =>
    cases j with
    | zero => rfl
    | succ j =>
      unfold varintLen at h
      split at h
      · rename_i hb
        obtain ⟨k', hk', rfl⟩ := Option.map_eq_some_iff.mp h
        rw [List.take_succ_cons, varintLen, if_pos hb, ih k' j hk' (by omega)]
        rfl
      · cases h; omega

/-- All that `dec_u32` can answer (R133). -/
theorem decU32_cases (w : List Byte) :
    (varintLen w = none ∧ decU32 w = .error .incomplete) ∨
    (∃ k, varintLen w = some k ∧ 32 < 7 * (k - 1) + bitlen (w.getD (k - 1) 0#8) ∧
      decU32 w = .error .outOfRange) ∨
    (∃ k, varintLen w = some k ∧ 7 * (k - 1) + bitlen (w.getD (k - 1) 0#8) ≤ 32 ∧
      decU32 w = .ok (groupSum (w.take k), k)) := by
  cases h : varintLen w with
  | none => exact .inl ⟨rfl, by simp [decU32, h]⟩
  | some k =>
    by_cases hr : 7 * (k - 1) + bitlen (w.getD (k - 1) 0#8) > 32
    · exact .inr (.inl ⟨k, rfl, hr, by simp only [decU32, h, if_pos hr]⟩)
    · exact .inr (.inr ⟨k, rfl, by omega, by simp only [decU32, h, if_neg hr]⟩)

/-- A successful `dec_u32` says how many bytes it takes, and they are there (R133). -/
theorem decU32_bounds (w : List Byte) (v k : Nat) (h : decU32 w = .ok (v, k)) : 1 ≤ k ∧ k ≤ w.length := by
  rcases decU32_cases w with ⟨-, hd⟩ | ⟨_, -, -, hd⟩ | ⟨j, hj, -, hd⟩ <;> rw [hd] at h
  · cases h
  · cases h
  · cases h; exact varintLen_bounds w _ hj

theorem decU32_error (w : List Byte) (e : Status) (h : decU32 w = .error e) :
    e = .incomplete ∨ e = .outOfRange := by
  rcases decU32_cases w with ⟨-, hd⟩ | ⟨_, -, -, hd⟩ | ⟨_, -, -, hd⟩ <;> rw [hd] at h <;> cases h
  · exact .inl rfl
  · exact .inr rfl

/-- All that `dec_i32` can answer (R134). -/
theorem decI32_cases (w : List Byte) :
    (varintLen w = none ∧ decI32 w = .error .incomplete) ∨
    (∃ k, varintLen w = some k ∧ (6 ≤ k ∨ k = 5 ∧ signBitsAgree (w.getD 4 0#8) = false) ∧
      decI32 w = .error .outOfRange) ∨
    (∃ k, varintLen w = some k ∧ k ≤ 4 ∧ decI32 w = .ok (sext (7 * k) (groupSum (w.take k)), k)) ∨
    (varintLen w = some 5 ∧ signBitsAgree (w.getD 4 0#8) = true ∧
      decI32 w = .ok (s32 (wordOf (groupSum (w.take 5))), 5)) := by
  cases h : varintLen w with
  | none => exact .inl ⟨rfl, by simp [decI32, h]⟩
  | some k =>
    by_cases h6 : k ≥ 6
    · exact .inr (.inl ⟨k, rfl, .inl h6, by simp [decI32, h, h6]⟩)
    · by_cases h5 : k = 5 ∧ signBitsAgree (w.getD 4 0#8) = false
      · exact .inr (.inl ⟨k, rfl, .inr h5, by simp only [decI32, h, if_neg h6, if_pos h5]⟩)
      · by_cases h4 : k ≤ 4
        · exact .inr (.inr (.inl ⟨k, rfl, h4, by simp only [decI32, h, if_neg h6, if_neg h5, if_pos h4]⟩))
        · obtain rfl : k = 5 := by omega
          have hs : signBitsAgree (w.getD 4 0#8) = true := by simpa using h5
          exact .inr (.inr (.inr ⟨rfl, hs, by simp [decI32, h]; simpa using hs⟩))

/-- A successful `dec_i32` says how many bytes it takes, and they are there (R134). -/
theorem decI32_bounds (w : List Byte) (v : Int) (k : Nat) (h : decI32 w = .ok (v, k)) :
    1 ≤ k ∧ k ≤ w.length := by
  rcases decI32_cases w with ⟨-, hd⟩ | ⟨_, -, -, hd⟩ | ⟨j, hj, -, hd⟩ | ⟨hj, -, hd⟩ <;> rw [hd] at h
  · cases h
  · cases h
  · cases h; exact varintLen_bounds w _ hj
  · cases h; exact varintLen_bounds w _ hj

theorem decI32_error (w : List Byte) (e : Status) (h : decI32 w = .error e) :
    e = .incomplete ∨ e = .outOfRange := by
  rcases decI32_cases w with ⟨-, hd⟩ | ⟨_, -, -, hd⟩ | ⟨_, -, -, hd⟩ | ⟨-, -, hd⟩ <;> rw [hd] at h <;> cases h
  · exact .inl rfl
  · exact .inr rfl

/-! ## Records -/

/-- All that `tlv_parse` can answer (R152), stage by stage. -/
theorem tlvParse_cases (n : LenWidth) (w : List Byte) (dcap : Nat) :
    (∃ e, decU32 w = .error e ∧ tlvParse n w dcap = .error e) ∨
    (∃ tag k, decU32 w = .ok (tag, k) ∧ w.length < k + lenBytes n ∧
      tlvParse n w dcap = .error .incomplete) ∨
    (∃ tag k, decU32 w = .ok (tag, k) ∧ k + lenBytes n ≤ w.length ∧
      dcap < fromBe ((w.drop k).take (lenBytes n)) ∧ tlvParse n w dcap = .error .destTooShort) ∨
    (∃ tag k, decU32 w = .ok (tag, k) ∧ k + lenBytes n ≤ w.length ∧
      fromBe ((w.drop k).take (lenBytes n)) ≤ dcap ∧
      w.length < k + lenBytes n + fromBe ((w.drop k).take (lenBytes n)) ∧
      tlvParse n w dcap = .error .incomplete) ∨
    (∃ tag k length, decU32 w = .ok (tag, k) ∧ length = fromBe ((w.drop k).take (lenBytes n)) ∧
      length ≤ dcap ∧ k + lenBytes n + length ≤ w.length ∧
      tlvParse n w dcap =
        .ok { tag := tag
              value := (w.drop (k + lenBytes n)).take length
              consumed := k + lenBytes n + length }) := by
  rcases hd : decU32 w with e | ⟨tag, k⟩
  · exact .inl ⟨e, rfl, by simp only [tlvParse, hd]⟩
  · right
    by_cases h1 : w.length < k + lenBytes n
    · exact .inl ⟨tag, k, rfl, h1, by simp only [tlvParse, hd, if_pos h1]⟩
    · right
      by_cases h2 : fromBe ((w.drop k).take (lenBytes n)) > dcap
      · exact .inl ⟨tag, k, rfl, by omega, h2, by simp only [tlvParse, hd, if_neg h1, if_pos h2]⟩
      · right
        by_cases h3 : w.length < k + lenBytes n + fromBe ((w.drop k).take (lenBytes n))
        · exact .inl ⟨tag, k, rfl, by omega, by omega, h3,
            by simp only [tlvParse, hd, if_neg h1, if_neg h2, if_pos h3]⟩
        · exact .inr ⟨tag, k, _, rfl, rfl, by omega, by omega,
            by simp only [tlvParse, hd, if_neg h1, if_neg h2, if_neg h3]⟩

/-- A parsed TLV record lies inside the window, its value fits the destination, and it has no address (R152). -/
theorem tlvParse_bounds (n : LenWidth) (w : List Byte) (dcap : Nat) (rec : ParsedRecord)
    (h : tlvParse n w dcap = .ok rec) :
    rec.consumed ≤ w.length ∧ rec.value.length ≤ dcap ∧ rec.value.length < rec.consumed ∧ rec.addr = [] := by
  rcases tlvParse_cases n w dcap with ⟨_, -, hp⟩ | ⟨_, _, -, -, hp⟩ | ⟨_, _, -, -, -, hp⟩ |
    ⟨_, _, -, -, -, -, hp⟩ | ⟨tag, k, length, hd, -, hl, hw, hp⟩ <;> rw [hp] at h
  · cases h
  · cases h
  · cases h
  · cases h
  · cases h
    have := decU32_bounds w _ _ hd
    simp only [List.length_take, List.length_drop]
    exact ⟨hw, by omega, by omega, trivial⟩

/-- The statuses with which parsing a TLV record can fail (R152). -/
theorem tlvParse_error (n : LenWidth) (w : List Byte) (dcap : Nat) (e : Status)
    (h : tlvParse n w dcap = .error e) : e = .incomplete ∨ e = .outOfRange ∨ e = .destTooShort := by
  rcases tlvParse_cases n w dcap with ⟨e', hd, hp⟩ | ⟨_, _, -, -, hp⟩ | ⟨_, _, -, -, -, hp⟩ |
    ⟨_, _, -, -, -, -, hp⟩ | ⟨_, _, _, -, -, -, -, hp⟩ <;> rw [hp] at h <;> cases h
  · rcases decU32_error w _ hd with h | h
    · exact .inl h
    · exact .inr (.inl h)
  · exact .inl rfl
  · exact .inr (.inr rfl)
  · exact .inl rfl

/-- All that `atlv_parse` can answer (R160), stage by stage. -/
theorem atlvParse_cases (n : LenWidth) (w : List Byte) (dcap acap : Nat) :
    (w.length < lenBytes n ∧ atlvParse n w dcap acap = .error .incomplete) ∨
    (lenBytes n ≤ w.length ∧ acap < fromBe (w.take (lenBytes n)) ∧
      atlvParse n w dcap acap = .error .destTooShort) ∨
    (lenBytes n ≤ w.length ∧ fromBe (w.take (lenBytes n)) ≤ acap ∧
      w.length < lenBytes n + fromBe (w.take (lenBytes n)) ∧
      atlvParse n w dcap acap = .error .incomplete) ∨
    (∃ alen e, alen = fromBe (w.take (lenBytes n)) ∧ alen ≤ acap ∧ lenBytes n + alen ≤ w.length ∧
      tlvParse n (w.drop (lenBytes n + alen)) dcap = .error e ∧ atlvParse n w dcap acap = .error e) ∨
    (∃ alen rec, alen = fromBe (w.take (lenBytes n)) ∧ alen ≤ acap ∧ lenBytes n + alen ≤ w.length ∧
      tlvParse n (w.drop (lenBytes n + alen)) dcap = .ok rec ∧
      atlvParse n w dcap acap =
        .ok { tag := rec.tag
              value := rec.value
              addr := (w.drop (lenBytes n)).take alen
              consumed := lenBytes n + alen + rec.consumed }) := by
  by_cases h1 : w.length < lenBytes n
  · exact .inl ⟨h1, by simp only [atlvParse, if_pos h1]⟩
  · right
    by_cases h2 : fromBe (w.take (lenBytes n)) > acap
    · exact .inl ⟨by omega, h2, by simp only [atlvParse, if_neg h1, if_pos h2]⟩
    · right
      by_cases h3 : w.length < lenBytes n + fromBe (w.take (lenBytes n))
      · exact .inl ⟨by omega, by omega, h3, by simp only [atlvParse, if_neg h1, if_neg h2, if_pos h3]⟩
      · right
        rcases hp : tlvParse n (w.drop (lenBytes n + fromBe (w.take (lenBytes n)))) dcap with e | rec
        · exact .inl ⟨_, e, rfl, by omega, by omega, hp,
            by simp only [atlvParse, if_neg h1, if_neg h2, if_neg h3, hp]⟩
        · exact .inr ⟨_, rec, rfl, by omega, by omega, hp,
            by simp only [atlvParse, if_neg h1, if_neg h2, if_neg h3, hp]⟩

/-- A parsed address-TLV record lies inside the window and its parts fit their destinations (R160). -/
theorem atlvParse_bounds (n : LenWidth) (w : List Byte) (dcap acap : Nat) (rec : ParsedRecord)
    (h : atlvParse n w dcap acap = .ok rec) :
    rec.consumed ≤ w.length ∧ rec.value.length ≤ dcap ∧ rec.addr.length ≤ acap := by
  rcases atlvParse_cases n w dcap acap with ⟨-, hp⟩ | ⟨-, -, hp⟩ | ⟨-, -, -, hp⟩ | ⟨_, _, -, -, -, -, hp⟩ |
    ⟨alen, rec', -, ha, hw, ht, hp⟩ <;> rw [hp] at h
  · cases h
  · cases h
  · cases h
  · cases h
  · cases h
    have := tlvParse_bounds n _ dcap rec' ht
    rw [List.length_drop] at this
    simp only [List.length_take, List.length_drop]
    exact ⟨by omega, by omega, by omega⟩

/-- The statuses with which parsing an address-TLV record can fail (R160). -/
theorem atlvParse_error (n : LenWidth) (w : List Byte) (dcap acap : Nat) (e : Status)
    (h : atlvParse n w dcap acap = .error e) : e = .incomplete ∨ e = .outOfRange ∨ e = .destTooShort := by
  rcases atlvParse_cases n w dcap acap with ⟨-, hp⟩ | ⟨-, -, hp⟩ | ⟨-, -, -, hp⟩ | ⟨_, e', -, -, -, ht, hp⟩ |
    ⟨_, _, -, -, -, -, hp⟩ <;> rw [hp] at h <;> cases h
  · exact .inl rfl
  · exact .inr (.inr rfl)
  · exact .inl rfl
  · exact tlvParse_error _ _ _ _ ht

/-- All that `tlv_enc` can answer (R151). -/
theorem tlvEnc_cases (n : LenWidth) (tag : Nat) (value : List Byte) :
    (maxLen n < value.length ∧ tlvEnc n tag value = .error .outOfRange) ∨
    (value.length ≤ maxLen n ∧ tlvEnc n tag value = .ok (lebU tag ++ lenField n value.length ++ value)) := by
  by_cases h : value.length > maxLen n
  · exact .inl ⟨h, by rw [tlvEnc, if_pos h]⟩
  · exact .inr ⟨by omega, by rw [tlvEnc, if_neg h]⟩

/-- All that `atlv_enc` can answer (R159). -/
theorem atlvEnc_cases (n : LenWidth) (addr : List Byte) (tag : Nat) (value : List Byte) :
    ((maxLen n < addr.length ∨ maxLen n < value.length) ∧ atlvEnc n addr tag value = .error .outOfRange) ∨
    (addr.length ≤ maxLen n ∧ value.length ≤ maxLen n ∧
      atlvEnc n addr tag value =
        .ok (lenField n addr.length ++ addr ++ (lebU tag ++ lenField n value.length ++ value))) := by
  by_cases h : addr.length > maxLen n
  · exact .inl ⟨.inl h, by rw [atlvEnc, if_pos h]⟩
  · rcases tlvEnc_cases n tag value with ⟨hv, he⟩ | ⟨hv, he⟩
    · exact .inl ⟨.inr hv, by simp only [atlvEnc, if_neg h, he]⟩
    · exact .inr ⟨by omega, hv, by simp only [atlvEnc, if_neg h, he]⟩

end Sys2Proof.Machine
end

