-- ==== Sys2Proof/Laws/Decode.lean ====
section
/-! SUPPORT. A command word and its fields (R61): a word whose zero fields are zero is put together again from
the fields the decoder reads. -/

namespace Sys2Proof

theorem selOfBuf_bufOfSel (sel : BitVec 2) : selOfBuf (bufOfSel sel) = sel := by
  revert sel; decide

/-- A zero field is zero bit by bit. -/
theorem getLsbD_of_extract_zero (cw : CmdWord) (start len : Nat) (h : cw.extractLsb' start len = 0#len)
    (j : Nat) (hj : j < len) : cw.getLsbD (start + j) = false := by
  have := congrArg (fun x => x.getLsbD j) h
  simpa [hj] using this

/-- A format U word is its unit, funct and sel (R61). -/
theorem word_eq_formatU (cw : CmdWord) (h : isMessageFormat cw = false) (hz : zeroField cw = 0#6) :
    cw = formatU (unitField cw) (functField cw) (selField cw) := by
  simp only [isMessageFormat, zeroField, formatU, unitField, functField, selField] at *
  have hz' := getLsbD_of_extract_zero cw 2 6 hz
  apply BitVec.eq_of_getLsbD_eq
  intro i hi
  change _ = BitVec.getLsbD (w := 4 + 4 + 6 + 2) _ i
  rw [BitVec.getLsbD_append, BitVec.getLsbD_append, BitVec.getLsbD_append]
  have h0 := hz' 0 (by omega)
  have h1 := hz' 1 (by omega)
  have h2 := hz' 2 (by omega)
  have h3 := hz' 3 (by omega)
  have h4 := hz' 4 (by omega)
  have h5 := hz' 5 (by omega)
  interval_cases i <;> simp_all

/-- A format M word is its tag (R61). -/
theorem word_eq_formatM (cw : CmdWord) (h : isMessageFormat cw = true) (hz : lowByteField cw = 0#8) :
    cw = formatM (tagField cw) := by
  simp only [isMessageFormat, lowByteField, formatM, tagField] at *
  have hz' := getLsbD_of_extract_zero cw 0 8 hz
  apply BitVec.eq_of_getLsbD_eq
  intro i hi
  change _ = BitVec.getLsbD (w := 1 + 7 + 8) _ i
  rw [BitVec.getLsbD_append, BitVec.getLsbD_append]
  have h0 := hz' 0 (by omega)
  have h1 := hz' 1 (by omega)
  have h2 := hz' 2 (by omega)
  have h3 := hz' 3 (by omega)
  have h4 := hz' 4 (by omega)
  have h5 := hz' 5 (by omega)
  have h6 := hz' 6 (by omega)
  have h7 := hz' 7 (by omega)
  interval_cases i <;> simp_all

end Sys2Proof
end

