-- ==== Sys2Proof/Laws/Memory.lean ====
section
/-! SUPPORT. Buffer memory: every operation keeps the canonical form, a read after a write, and what reading a
stretch of bytes gives. -/

namespace Sys2Proof.Machine

/-! ## The canonical form -/

theorem Memory.wf_nil : Memory.wf [] = true := rfl

/-- The canonical form of a non-empty memory, with the offsets after the first all above it. -/
theorem Memory.wf_cons (k : Nat) (v : Byte) (rest : Memory) :
    Memory.wf ((k, v) :: rest) = true ↔
      v ≠ unlistedByte ∧ (∀ c ∈ rest, k < c.1) ∧ Memory.wf rest = true := by
  induction rest generalizing k v with
  | nil => simp [Memory.wf]
  | cons c rest ih =>
    obtain ⟨k', v'⟩ := c
    rw [Memory.wf, Bool.and_eq_true, Bool.and_eq_true, decide_eq_true_eq, decide_eq_true_eq]
    constructor
    · rintro ⟨⟨hv, hk⟩, h⟩
      refine ⟨hv, ?_, h⟩
      intro c hc
      rcases List.mem_cons.mp hc with rfl | hc
      · exact hk
      · exact lt_trans hk (((ih k' v').mp h).2.1 c hc)
    · rintro ⟨hv, hk, h⟩
      exact ⟨⟨hv, hk _ (List.mem_cons_self ..)⟩, h⟩

/-- An offset below every listed one reads as unlisted. -/
theorem memRead_below (m : Memory) (a : Nat) (h : ∀ c ∈ m, a < c.1) : memRead m a = unlistedByte := by
  induction m with
  | nil => rfl
  | cons c rest ih =>
    obtain ⟨k, v⟩ := c
    have hk := h _ (List.mem_cons_self ..)
    rw [memRead, if_neg (by simp at hk; omega)]
    exact ih fun c hc => h c (List.mem_cons_of_mem _ hc)

/-- Every cell after a write was there before or is at the offset written. -/
theorem mem_memWrite (m : Memory) (i : Nat) (v : Byte) (c : Host.Cell) (h : c ∈ memWrite m i v) :
    c ∈ m ∨ c.1 = i := by
  induction m with
  | nil =>
    rw [memWrite] at h
    split at h <;> simp_all
  | cons d rest ih =>
    obtain ⟨k, w⟩ := d
    rw [memWrite] at h
    split at h
    · rcases List.mem_cons.mp h with rfl | h
      · exact .inl (List.mem_cons_self ..)
      · exact (ih h).imp_left (List.mem_cons_of_mem _)
    · split at h
      · split at h
        · exact .inl (List.mem_cons_of_mem _ h)
        · rcases List.mem_cons.mp h with rfl | h
          · exact .inr rfl
          · exact .inl (List.mem_cons_of_mem _ h)
      · split at h
        · exact .inl h
        · rcases List.mem_cons.mp h with rfl | h
          · exact .inr rfl
          · exact .inl h

/-- A write keeps the canonical form. -/
theorem memWrite_wf (m : Memory) (i : Nat) (v : Byte) (h : Memory.wf m = true) :
    Memory.wf (memWrite m i v) = true := by
  induction m with
  | nil =>
    rw [memWrite]
    split
    · rfl
    · simpa [Memory.wf] using ‹_›
  | cons d rest ih =>
    obtain ⟨k, w⟩ := d
    obtain ⟨hw, hk, hr⟩ := (Memory.wf_cons ..).mp h
    rw [memWrite]
    split
    · refine (Memory.wf_cons ..).mpr ⟨hw, ?_, ih hr⟩
      intro c hc
      rcases mem_memWrite rest i v c hc with hc | rfl
      · exact hk c hc
      · assumption
    · split
      · split
        · exact hr
        · subst i
          exact (Memory.wf_cons ..).mpr ⟨‹_›, hk, hr⟩
      · split
        · exact h
        · refine (Memory.wf_cons ..).mpr ⟨‹_›, ?_, h⟩
          intro c hc
          rcases List.mem_cons.mp hc with rfl | hc
          · simp; omega
          · have := hk c hc; omega

/-- Storing a string keeps the canonical form. -/
theorem memWriteBytes_wf (bytes : List Byte) (m : Memory) (i : Nat) (h : Memory.wf m = true) :
    Memory.wf (memWriteBytes m i bytes) = true := by
  induction bytes generalizing m i with
  | nil => exact h
  | cons v rest ih => exact ih _ _ (memWrite_wf m i v h)

/-- Storing a string below a bound lists no offset at or above it. -/
theorem memWriteBytes_below (bytes : List Byte) (m : Memory) (i bound : Nat)
    (h : ∀ c ∈ m, c.1 < bound) (hb : i + bytes.length ≤ bound) :
    ∀ c ∈ memWriteBytes m i bytes, c.1 < bound := by
  induction bytes generalizing m i with
  | nil => exact h
  | cons v rest ih =>
    rw [List.length_cons] at hb
    refine ih _ _ (fun c hc => ?_) (by omega)
    rcases mem_memWrite m i v c hc with hc | hc
    · exact h c hc
    · omega

/-! ## A read after a write -/

/-- A read after a write of one byte. -/
theorem memRead_memWrite (m : Memory) (i a : Nat) (v : Byte) (h : Memory.wf m = true) :
    memRead (memWrite m i v) a = if a = i then v else memRead m a := by
  induction m with
  | nil =>
    rw [memWrite]
    split
    · simp [memRead, *]
    · simp [memRead, eq_comm]
  | cons d rest ih =>
    obtain ⟨k, w⟩ := d
    obtain ⟨hw, hk, hr⟩ := (Memory.wf_cons ..).mp h
    rw [memWrite]
    split
    · rw [memRead, memRead, ih hr]
      split_ifs <;> first | rfl | omega
    · split
      · subst i
        split
        · rw [memRead]
          split_ifs with ha hka
          · rw [ha, memRead_below rest k hk]; exact Eq.symm ‹_›
          · omega
          · rfl
        · rw [memRead, memRead]
          split_ifs <;> first | rfl | omega
      · split
        · have hlt : ∀ c ∈ (k, w) :: rest, i < c.1 := by
            intro c hc
            rcases List.mem_cons.mp hc with rfl | hc
            · simp; omega
            · have := hk c hc; omega
          split_ifs with ha
          · rw [ha, memRead_below _ i hlt]; exact Eq.symm ‹_›
          · rfl
        · rw [memRead]
          split_ifs <;> first | rfl | omega

/-- A read after storing a string: the byte of the string inside the stretch stored to, the old byte outside. -/
theorem memRead_memWriteBytes (bytes : List Byte) (m : Memory) (i a : Nat) (h : Memory.wf m = true) :
    memRead (memWriteBytes m i bytes) a =
      if i ≤ a ∧ a < i + bytes.length then bytes.getD (a - i) 0#8 else memRead m a := by
  induction bytes generalizing m i with
  | nil => rw [memWriteBytes, if_neg (by rw [List.length_nil]; omega)]
  | cons v rest ih =>
    rw [memWriteBytes, ih _ _ (memWrite_wf m i v h), memRead_memWrite m i a v h, List.length_cons]
    by_cases ha : a = i
    · subst ha
      rw [if_neg (by omega), if_pos rfl, if_pos (by omega), Nat.sub_self]
      rfl
    · by_cases hin : i + 1 ≤ a ∧ a < i + 1 + rest.length
      · rw [if_pos hin, if_pos (by omega)]
        obtain ⟨j, rfl⟩ : ∃ j, a = i + 1 + j := ⟨a - (i + 1), by omega⟩
        rw [show i + 1 + j - (i + 1) = j by omega, show i + 1 + j - i = j + 1 by omega,
          List.getD_cons_succ]
      · rw [if_neg hin, if_neg ha, if_neg (by omega)]

/-! ## Reading a stretch of bytes -/

@[simp] theorem memReadBytes_length (m : Memory) (i n : Nat) : (memReadBytes m i n).length = n := by
  induction n generalizing i with
  | zero => rfl
  | succ n ih => rw [memReadBytes, List.length_cons, ih]

/-- Two memories that agree on a stretch read the same there. -/
theorem memReadBytes_congr (m m' : Memory) (i n : Nat)
    (h : ∀ a, i ≤ a → a < i + n → memRead m a = memRead m' a) :
    memReadBytes m i n = memReadBytes m' i n := by
  induction n generalizing i with
  | zero => rfl
  | succ n ih =>
    rw [memReadBytes, memReadBytes, h i (by omega) (by omega),
      ih (i + 1) fun a ha ha' => h a (by omega) (by omega)]

/-- A stretch is its first part followed by its second. -/
theorem memReadBytes_add (m : Memory) (i n k : Nat) :
    memReadBytes m i (n + k) = memReadBytes m i n ++ memReadBytes m (i + n) k := by
  induction n generalizing i with
  | zero => simp [memReadBytes]
  | succ n ih =>
    rw [show n + 1 + k = n + k + 1 by omega, memReadBytes, memReadBytes, ih,
      show i + 1 + n = i + (n + 1) by omega, List.cons_append]

/-- Dropping the first bytes of a stretch. -/
theorem memReadBytes_drop (m : Memory) (i n k : Nat) :
    (memReadBytes m i n).drop k = memReadBytes m (i + k) (n - k) := by
  induction k generalizing i n with
  | zero => simp
  | succ k ih =>
    cases n with
    | zero => simp [memReadBytes]
    | succ n =>
      rw [memReadBytes, List.drop_succ_cons, ih, show i + 1 + k = i + (k + 1) by omega,
        show n + 1 - (k + 1) = n - k by omega]

/-- Keeping the first bytes of a stretch. -/
theorem memReadBytes_take (m : Memory) (i n k : Nat) :
    (memReadBytes m i n).take k = memReadBytes m i (min k n) := by
  induction k generalizing i n with
  | zero => simp [memReadBytes]
  | succ k ih =>
    cases n with
    | zero => simp [memReadBytes]
    | succ n => rw [memReadBytes, List.take_succ_cons, ih, Nat.succ_min_succ, memReadBytes]

/-- Reading back the stretch a string was stored to. -/
theorem memReadBytes_memWriteBytes (bytes : List Byte) (m : Memory) (i : Nat) (h : Memory.wf m = true) :
    memReadBytes (memWriteBytes m i bytes) i bytes.length = bytes := by
  induction bytes generalizing m i with
  | nil => rfl
  | cons v rest ih =>
    have h' := memWrite_wf m i v h
    rw [List.length_cons, memReadBytes, memWriteBytes, ih _ _ h', memRead_memWriteBytes _ _ _ _ h',
      if_neg (by omega), memRead_memWrite m i i v h, if_pos rfl]

/-! ## Equal contents, equal data -/

/-- Two memories in canonical form that read the same everywhere are the same list. -/
theorem Memory.ext_of_wf (m m' : Memory) (h : Memory.wf m = true) (h' : Memory.wf m' = true)
    (hread : ∀ a, memRead m a = memRead m' a) : m = m' := by
  induction m generalizing m' with
  | nil =>
    cases m' with
    | nil => rfl
    | cons d rest' =>
      obtain ⟨k, v⟩ := d
      obtain ⟨hv, -, -⟩ := (Memory.wf_cons ..).mp h'
      have := hread k
      simp [memRead] at this
      exact absurd this.symm hv
  | cons c rest ih =>
    obtain ⟨k, v⟩ := c
    obtain ⟨hv, hk, hr⟩ := (Memory.wf_cons ..).mp h
    cases m' with
    | nil =>
      have := hread k
      simp [memRead] at this
      exact absurd this hv
    | cons d rest' =>
      obtain ⟨k', v'⟩ := d
      obtain ⟨hv', hk', hr'⟩ := (Memory.wf_cons ..).mp h'
      have hkk : k = k' := by
        rcases lt_trichotomy k k' with hlt | heq | hgt
        · have := hread k
          rw [memRead, if_pos rfl, memRead_below _ k] at this
          · exact absurd this hv
          · intro c hc
            rcases List.mem_cons.mp hc with rfl | hc
            · exact hlt
            · exact lt_trans hlt (hk' c hc)
        · exact heq
        · have := hread k'
          rw [memRead_below _ k', memRead, if_pos rfl] at this
          · exact absurd this.symm hv'
          · intro c hc
            rcases List.mem_cons.mp hc with rfl | hc
            · exact hgt
            · exact lt_trans hgt (hk c hc)
      subst hkk
      have hvv : v = v' := by simpa [memRead] using hread k
      subst hvv
      congr 1
      refine ih rest' hr hr' fun a => ?_
      by_cases ha : k = a
      · subst ha
        rw [memRead_below rest k hk, memRead_below rest' k hk']
      · have := hread a
        rwa [memRead, memRead, if_neg ha, if_neg ha] at this

end Sys2Proof.Machine
end

