-- ==== Sys2Proof/Laws/State.lean ====
section
/-! SUPPORT. The fields of a state after each of its updates, one lemma per field per update. -/

namespace Sys2Proof.Machine

/-! ## Buffers by name -/

@[simp] theorem State.buf_txr (s : State) : s.buf .txr = s.txr := rfl

@[simp] theorem State.buf_txf (s : State) : s.buf .txf = s.txf := rfl

@[simp] theorem State.buf_rxf (s : State) : s.buf .rxf = s.rxf := rfl

@[simp] theorem State.buf_rxr (s : State) : s.buf .rxr = s.rxr := rfl

@[simp] theorem State.cap_txr (s : State) : s.cap .txr = s.caps.txr := rfl

@[simp] theorem State.cap_txf (s : State) : s.cap .txf = s.caps.txf := rfl

@[simp] theorem State.cap_rxf (s : State) : s.cap .rxf = s.caps.rxf := rfl

@[simp] theorem State.cap_rxr (s : State) : s.cap .rxr = s.caps.rxr := rfl

/-! ## Writing one buffer -/

@[simp] theorem State.setBuf_txr_txr (s : State) (c : CursorBuffer) : (s.setBuf .txr c).txr = c := rfl

@[simp] theorem State.setBuf_txr_txf (s : State) (c : CursorBuffer) : (s.setBuf .txr c).txf = s.txf := rfl

@[simp] theorem State.setBuf_txr_rxf (s : State) (c : CursorBuffer) : (s.setBuf .txr c).rxf = s.rxf := rfl

@[simp] theorem State.setBuf_txr_rxr (s : State) (c : CursorBuffer) : (s.setBuf .txr c).rxr = s.rxr := rfl

@[simp] theorem State.setBuf_txf_txr (s : State) (c : CursorBuffer) : (s.setBuf .txf c).txr = s.txr := rfl

@[simp] theorem State.setBuf_txf_txf (s : State) (c : CursorBuffer) : (s.setBuf .txf c).txf = c := rfl

@[simp] theorem State.setBuf_txf_rxf (s : State) (c : CursorBuffer) : (s.setBuf .txf c).rxf = s.rxf := rfl

@[simp] theorem State.setBuf_txf_rxr (s : State) (c : CursorBuffer) : (s.setBuf .txf c).rxr = s.rxr := rfl

@[simp] theorem State.setBuf_rxf_txr (s : State) (c : CursorBuffer) : (s.setBuf .rxf c).txr = s.txr := rfl

@[simp] theorem State.setBuf_rxf_txf (s : State) (c : CursorBuffer) : (s.setBuf .rxf c).txf = s.txf := rfl

@[simp] theorem State.setBuf_rxf_rxf (s : State) (c : CursorBuffer) : (s.setBuf .rxf c).rxf = c := rfl

@[simp] theorem State.setBuf_rxf_rxr (s : State) (c : CursorBuffer) : (s.setBuf .rxf c).rxr = s.rxr := rfl

@[simp] theorem State.setBuf_rxr_txr (s : State) (c : CursorBuffer) : (s.setBuf .rxr c).txr = s.txr := rfl

@[simp] theorem State.setBuf_rxr_txf (s : State) (c : CursorBuffer) : (s.setBuf .rxr c).txf = s.txf := rfl

@[simp] theorem State.setBuf_rxr_rxf (s : State) (c : CursorBuffer) : (s.setBuf .rxr c).rxf = s.rxf := rfl

@[simp] theorem State.setBuf_rxr_rxr (s : State) (c : CursorBuffer) : (s.setBuf .rxr c).rxr = c := rfl

@[simp] theorem State.setBuf_resync (s : State) (b : BufId) (c : CursorBuffer) : (s.setBuf b c).resync = s.resync := by
  cases b <;> rfl

@[simp] theorem State.setBuf_caps (s : State) (b : BufId) (c : CursorBuffer) : (s.setBuf b c).caps = s.caps := by
  cases b <;> rfl

@[simp] theorem State.setBuf_pending (s : State) (b : BufId) (c : CursorBuffer) : (s.setBuf b c).pending = s.pending := by
  cases b <;> rfl

@[simp] theorem State.setBuf_responses (s : State) (b : BufId) (c : CursorBuffer) : (s.setBuf b c).responses = s.responses := by
  cases b <;> rfl

@[simp] theorem State.buf_setBuf_same (s : State) (b : BufId) (c : CursorBuffer) : (s.setBuf b c).buf b = c := by
  cases b <;> rfl

theorem State.buf_setBuf_ne (s : State) (b b' : BufId) (c : CursorBuffer) (h : b' ≠ b) :
    (s.setBuf b c).buf b' = s.buf b' := by
  cases b <;> cases b' <;> first | rfl | exact absurd rfl h

@[simp] theorem State.cap_setBuf (s : State) (b b' : BufId) (c : CursorBuffer) : (s.setBuf b c).cap b' = s.cap b' := by
  cases b <;> rfl

@[simp] theorem State.setBuf_buf (s : State) (b : BufId) : s.setBuf b (s.buf b) = s := by
  cases b <;> rfl

/-! ## Writing a channel -/

@[simp] theorem State.respond_txr (s : State) (r : Response) : (s.respond r).txr = s.txr := rfl

@[simp] theorem State.respond_txf (s : State) (r : Response) : (s.respond r).txf = s.txf := rfl

@[simp] theorem State.respond_rxf (s : State) (r : Response) : (s.respond r).rxf = s.rxf := rfl

@[simp] theorem State.respond_rxr (s : State) (r : Response) : (s.respond r).rxr = s.rxr := rfl

@[simp] theorem State.respond_resync (s : State) (r : Response) : (s.respond r).resync = s.resync := rfl

@[simp] theorem State.respond_caps (s : State) (r : Response) : (s.respond r).caps = s.caps := rfl

@[simp] theorem State.respond_pending (s : State) (r : Response) : (s.respond r).pending = s.pending := rfl

@[simp] theorem State.respond_responses (s : State) (r : Response) :
    (s.respond r).responses = s.responses ++ [r] := rfl

@[simp] theorem State.buf_respond (s : State) (r : Response) (b : BufId) :
    (s.respond r).buf b = s.buf b := by
  cases b <;> rfl

@[simp] theorem State.cap_respond (s : State) (r : Response) (b : BufId) :
    (s.respond r).cap b = s.cap b := by
  cases b <;> rfl

@[simp] theorem State.space_respond (s : State) (r : Response) (b : BufId) :
    (s.respond r).space b = s.space b := by
  cases b <;> rfl

@[simp] theorem State.withPending_txr (s : State) (rest : List Input) : (s.withPending rest).txr = s.txr := rfl

@[simp] theorem State.withPending_txf (s : State) (rest : List Input) : (s.withPending rest).txf = s.txf := rfl

@[simp] theorem State.withPending_rxf (s : State) (rest : List Input) : (s.withPending rest).rxf = s.rxf := rfl

@[simp] theorem State.withPending_rxr (s : State) (rest : List Input) : (s.withPending rest).rxr = s.rxr := rfl

@[simp] theorem State.withPending_resync (s : State) (rest : List Input) : (s.withPending rest).resync = s.resync := rfl

@[simp] theorem State.withPending_caps (s : State) (rest : List Input) : (s.withPending rest).caps = s.caps := rfl

@[simp] theorem State.withPending_responses (s : State) (rest : List Input) : (s.withPending rest).responses = s.responses := rfl

@[simp] theorem State.withPending_pending (s : State) (rest : List Input) :
    (s.withPending rest).pending = rest := rfl

@[simp] theorem State.buf_withPending (s : State) (rest : List Input) (b : BufId) :
    (s.withPending rest).buf b = s.buf b := by
  cases b <;> rfl

@[simp] theorem State.cap_withPending (s : State) (rest : List Input) (b : BufId) :
    (s.withPending rest).cap b = s.cap b := by
  cases b <;> rfl

@[simp] theorem State.space_withPending (s : State) (rest : List Input) (b : BufId) :
    (s.withPending rest).space b = s.space b := by
  cases b <;> rfl

/-! ## The stream Reader's updates and the reset -/

@[simp] theorem discardStream_txr (s : State) : (discardStream s).txr = s.txr := rfl

@[simp] theorem discardStream_txf (s : State) : (discardStream s).txf = s.txf := rfl

@[simp] theorem discardStream_rxf (s : State) : (discardStream s).rxf = { s.rxf with head := s.rxf.tail } := rfl

@[simp] theorem discardStream_rxr (s : State) : (discardStream s).rxr = s.rxr := rfl

@[simp] theorem discardStream_resync (s : State) : (discardStream s).resync = s.resync := rfl

@[simp] theorem discardStream_caps (s : State) : (discardStream s).caps = s.caps := rfl

@[simp] theorem discardStream_pending (s : State) : (discardStream s).pending = s.pending := rfl

@[simp] theorem discardStream_responses (s : State) : (discardStream s).responses = s.responses := rfl

@[simp] theorem passTerminator_txr (s : State) (z : Nat) : (passTerminator s z).txr = s.txr := rfl

@[simp] theorem passTerminator_txf (s : State) (z : Nat) : (passTerminator s z).txf = s.txf := rfl

@[simp] theorem passTerminator_rxf (s : State) (z : Nat) : (passTerminator s z).rxf = { s.rxf with head := s.rxf.head + z + 1 } := rfl

@[simp] theorem passTerminator_rxr (s : State) (z : Nat) : (passTerminator s z).rxr = s.rxr := rfl

@[simp] theorem passTerminator_resync (s : State) (z : Nat) : (passTerminator s z).resync = s.resync := rfl

@[simp] theorem passTerminator_caps (s : State) (z : Nat) : (passTerminator s z).caps = s.caps := rfl

@[simp] theorem passTerminator_pending (s : State) (z : Nat) : (passTerminator s z).pending = s.pending := rfl

@[simp] theorem passTerminator_responses (s : State) (z : Nat) : (passTerminator s z).responses = s.responses := rfl

@[simp] theorem setResync_txr (s : State) : (setResync s).txr = s.txr := rfl

@[simp] theorem setResync_txf (s : State) : (setResync s).txf = s.txf := rfl

@[simp] theorem setResync_rxf (s : State) : (setResync s).rxf = s.rxf := rfl

@[simp] theorem setResync_rxr (s : State) : (setResync s).rxr = s.rxr := rfl

@[simp] theorem setResync_resync (s : State) : (setResync s).resync = true := rfl

@[simp] theorem setResync_caps (s : State) : (setResync s).caps = s.caps := rfl

@[simp] theorem setResync_pending (s : State) : (setResync s).pending = s.pending := rfl

@[simp] theorem setResync_responses (s : State) : (setResync s).responses = s.responses := rfl

@[simp] theorem clearResync_txr (s : State) : (clearResync s).txr = s.txr := rfl

@[simp] theorem clearResync_txf (s : State) : (clearResync s).txf = s.txf := rfl

@[simp] theorem clearResync_rxf (s : State) : (clearResync s).rxf = s.rxf := rfl

@[simp] theorem clearResync_rxr (s : State) : (clearResync s).rxr = s.rxr := rfl

@[simp] theorem clearResync_resync (s : State) : (clearResync s).resync = false := rfl

@[simp] theorem clearResync_caps (s : State) : (clearResync s).caps = s.caps := rfl

@[simp] theorem clearResync_pending (s : State) : (clearResync s).pending = s.pending := rfl

@[simp] theorem clearResync_responses (s : State) : (clearResync s).responses = s.responses := rfl

@[simp] theorem resetCore_txr (s : State) : (resetCore s).txr = resetCursors s.txr := rfl

@[simp] theorem resetCore_txf (s : State) : (resetCore s).txf = resetCursors s.txf := rfl

@[simp] theorem resetCore_rxf (s : State) : (resetCore s).rxf = resetCursors s.rxf := rfl

@[simp] theorem resetCore_rxr (s : State) : (resetCore s).rxr = resetCursors s.rxr := rfl

@[simp] theorem resetCore_resync (s : State) : (resetCore s).resync = false := rfl

@[simp] theorem resetCore_caps (s : State) : (resetCore s).caps = s.caps := rfl

@[simp] theorem resetCore_pending (s : State) : (resetCore s).pending = s.pending := rfl

@[simp] theorem resetCore_responses (s : State) : (resetCore s).responses = s.responses := rfl

@[simp] theorem cap_discardStream (s : State) (b : BufId) : (discardStream s).cap b = s.cap b := by
  cases b <;> rfl

@[simp] theorem cap_passTerminator (s : State) (z : Nat) (b : BufId) : (passTerminator s z).cap b = s.cap b := by
  cases b <;> rfl

@[simp] theorem cap_setResync (s : State) (b : BufId) : (setResync s).cap b = s.cap b := by
  cases b <;> rfl

@[simp] theorem cap_clearResync (s : State) (b : BufId) : (clearResync s).cap b = s.cap b := by
  cases b <;> rfl

@[simp] theorem cap_resetCore (s : State) (b : BufId) : (resetCore s).cap b = s.cap b := by
  cases b <;> rfl

/-! ## Consuming -/

@[simp] theorem consume_resync (s : State) (b : BufId) (n : Nat) : (consume s b n).resync = s.resync := by
  cases b <;> rfl

@[simp] theorem consume_caps (s : State) (b : BufId) (n : Nat) : (consume s b n).caps = s.caps := by
  cases b <;> rfl

@[simp] theorem consume_pending (s : State) (b : BufId) (n : Nat) : (consume s b n).pending = s.pending := by
  cases b <;> rfl

@[simp] theorem consume_responses (s : State) (b : BufId) (n : Nat) : (consume s b n).responses = s.responses := by
  cases b <;> rfl

@[simp] theorem cap_consume (s : State) (b b' : BufId) (n : Nat) : (consume s b n).cap b' = s.cap b' := by
  cases b <;> rfl

@[simp] theorem buf_consume_same (s : State) (b : BufId) (n : Nat) :
    (consume s b n).buf b = { s.buf b with head := (s.buf b).head + n } := by
  cases b <;> rfl

theorem buf_consume_ne (s : State) (b b' : BufId) (n : Nat) (h : b' ≠ b) :
    (consume s b n).buf b' = s.buf b' :=
  State.buf_setBuf_ne s b b' _ h

end Sys2Proof.Machine
end

