-- ==== Sys2Proof/Laws/Ops.lean ====
section
/-! SUPPORT. What the shared operations can do, each said once: appending, consuming, reloading, ending an
operation, and taking the next frame. Proofs about an instruction cite these and unfold none of them. -/

namespace Sys2Proof.Machine

/-! ## Windows -/

@[simp] theorem window_length (c : CursorBuffer) : (window c).length = remaining c :=
  memReadBytes_length ..

/-- Moving `head` drops bytes off the front of the window. -/
theorem window_advance (c : CursorBuffer) (n : Nat) :
    window { c with head := c.head + n } = (window c).drop n := by
  simp only [window, remaining, memReadBytes_drop]
  rw [Nat.sub_add_eq]

/-- A window whose cursors are equal is empty (R23). -/
theorem window_of_empty {c : CursorBuffer} (h : c.head = c.tail) : window c = [] := by
  simp [window, remaining, h, memReadBytes]

/-- The window of a buffer whose cursors are both 0 is empty. -/
@[simp] theorem window_resetCursors (c : CursorBuffer) : window (resetCursors c) = [] := rfl

/-- An appended string stands at the end of the window (R100). -/
theorem window_appendBytes (c : CursorBuffer) (bytes : List Byte) (hm : Memory.wf c.mem = true)
    (hc : c.head ≤ c.tail) : window (appendBytes c bytes) = window c ++ bytes := by
  simp only [window, remaining, appendBytes]
  rw [show c.tail + bytes.length - c.head = (c.tail - c.head) + bytes.length by omega, memReadBytes_add,
    show c.head + (c.tail - c.head) = c.tail by omega, memReadBytes_memWriteBytes _ _ _ hm]
  congr 1
  refine memReadBytes_congr _ _ _ _ fun a _ ha => ?_
  rw [memRead_memWriteBytes _ _ _ _ hm, if_neg (by omega)]

/-- The window of a reloaded buffer is the string loaded (R190). -/
theorem window_reload (c : CursorBuffer) (bytes : List Byte) (hm : Memory.wf c.mem = true) :
    window (reload c bytes) = bytes := by
  simp only [window, remaining, reload, Nat.sub_zero]
  exact memReadBytes_memWriteBytes bytes c.mem 0 hm

/-! ## Append and Consume -/

/-- All that `Append` can do (R100): it fails exactly when the string is longer than the space, and otherwise
writes at `tail` and moves `tail`. -/
theorem append_cases (s : State) (b : BufId) (bytes : List Byte) :
    (append s b bytes = none ∧ bytes.length > s.space b) ∨
      (append s b bytes = some (s.setBuf b (appendBytes (s.buf b) bytes)) ∧ bytes.length ≤ s.space b) := by
  rw [append]
  split
  · exact .inl ⟨rfl, ‹_›⟩
  · exact .inr ⟨rfl, by omega⟩

theorem append_eq_some (s s' : State) (b : BufId) (bytes : List Byte) :
    append s b bytes = some s' ↔
      bytes.length ≤ s.space b ∧ s' = s.setBuf b (appendBytes (s.buf b) bytes) := by
  rcases append_cases s b bytes with ⟨h, hl⟩ | ⟨h, hl⟩ <;> rw [h]
  · simp; omega
  · simp [hl, eq_comm]

/-! ## Ending an operation -/

/-- All that ending an operation can do (R14): one response is appended, nothing else moves. -/
theorem complete_eq_next (p : State × Response) (t : State) :
    complete p = .next t ↔ t = p.1.respond p.2 := by
  rw [complete, Host.Outcome.next.injEq, eq_comm]

/-- All that the appending operations can do. -/
theorem appendResult_cases (s : State) (b : BufId) (built : Except Status (List Byte)) :
    (∃ e, built = .error e ∧ appendResult s b built = (s, failWith e)) ∨
    (∃ bytes, built = .ok bytes ∧ bytes.length > s.space b ∧
      appendResult s b built = (s, failWith .bufferTooShort)) ∨
    (∃ bytes, built = .ok bytes ∧ bytes.length ≤ s.space b ∧
      appendResult s b built =
        (s.setBuf b (appendBytes (s.buf b) bytes), { status := .ok, r0 := wordOf bytes.length })) := by
  cases built with
  | error e => exact .inl ⟨e, rfl, rfl⟩
  | ok bytes =>
    rcases append_cases s b bytes with ⟨h, hl⟩ | ⟨h, hl⟩
    · exact .inr (.inl ⟨bytes, rfl, hl, by simp [appendResult, h]⟩)
    · exact .inr (.inr ⟨bytes, rfl, hl, by simp [appendResult, h]⟩)

/-- All that the parsing operations can do. -/
theorem consumeResult_cases (s : State) (parsed : Except Status (Nat × Response)) :
    (∃ e, parsed = .error e ∧ consumeResult s parsed = (s, failWith e)) ∨
    (∃ n r, parsed = .ok (n, r) ∧ consumeResult s parsed = (consume s .rxr n, r)) := by
  cases parsed with
  | error e => exact .inl ⟨e, rfl, rfl⟩
  | ok p => exact .inr ⟨p.1, p.2, rfl, rfl⟩

/-! ## Taking the next frame -/

/-- All that `NextFrame` can do (R115), in the order of its checks. -/
theorem nextFrame_cases (s : State) (cap : Nat) :
    (s.resync = true ∧ s.rxf.head = s.rxf.tail ∧ nextFrame s cap = (s, .error .incomplete)) ∨
    (s.resync = true ∧ s.rxf.head ≠ s.rxf.tail ∧ firstZero (window s.rxf) = none ∧
      nextFrame s cap = (discardStream s, .error .missingTerminator)) ∨
    (∃ z, s.resync = true ∧ s.rxf.head ≠ s.rxf.tail ∧ firstZero (window s.rxf) = some z ∧
      nextFrame s cap = (clearResync (passTerminator s z), .error .missingTerminator)) ∨
    (s.resync = false ∧ firstZero (window s.rxf) = none ∧ streamStuck s = true ∧
      nextFrame s cap = (setResync (discardStream s), .error .missingTerminator)) ∨
    (s.resync = false ∧ firstZero (window s.rxf) = none ∧ streamStuck s = false ∧
      nextFrame s cap = (s, .error .incomplete)) ∨
    (∃ z, s.resync = false ∧ firstZero (window s.rxf) = some z ∧
      nextFrame s cap = (passTerminator s z, cobsDec ((window s.rxf).take z) cap)) := by
  cases hr : s.resync <;> cases hz : firstZero (window s.rxf) with
  | none =>
    by_cases hs : streamStuck s = true <;> by_cases hh : s.rxf.head = s.rxf.tail <;>
      simp [nextFrame, hr, hz, hs, hh]
  | some z => by_cases hh : s.rxf.head = s.rxf.tail <;> simp [nextFrame, hr, hz, hh]

/-! ## The terminator search -/

/-- The index the search finds is inside the string and holds the zero. -/
theorem firstZero_lt (w : List Byte) (z : Nat) (h : firstZero w = some z) : z < w.length := by
  induction w generalizing z with
  | nil => cases h
  | cons b rest ih =>
    rw [firstZero] at h
    split at h
    · cases h; simp
    · obtain ⟨y, hy, rfl⟩ := Option.map_eq_some_iff.mp h
      have := ih y hy
      rw [List.length_cons]; omega

/-- No byte before the one the search finds is zero. -/
theorem firstZero_take (w : List Byte) (z : Nat) (h : firstZero w = some z) :
    ∀ b ∈ w.take z, b ≠ 0#8 := by
  induction w generalizing z with
  | nil => cases h
  | cons b rest ih =>
    rw [firstZero] at h
    split at h
    · cases h; simp
    · obtain ⟨y, hy, rfl⟩ := Option.map_eq_some_iff.mp h
      intro c hc
      rw [List.take_succ_cons] at hc
      rcases List.mem_cons.mp hc with rfl | hc
      · assumption
      · exact ih y hy c hc

/-- The search fails exactly on a string with no zero. -/
theorem firstZero_eq_none (w : List Byte) : firstZero w = none ↔ ∀ b ∈ w, b ≠ 0#8 := by
  induction w with
  | nil => simp [firstZero]
  | cons b rest ih =>
    rw [firstZero]
    split <;> simp_all

end Sys2Proof.Machine
end

