-- ==== Sys2Proof/Laws/Invariant.lean ====
section
/-! SUPPORT. The invariant of the block (R33 (I1), R6, R40) and the shared operations: each keeps it. -/

namespace Sys2Proof.Machine

/-! ## The invariant, buffer by buffer -/

theorem State.inv_iff (s : State) : s.Inv ↔ s.caps.wf ∧ ∀ b, bufferOk (s.cap b) (s.buf b) := by
  constructor
  · rintro ⟨h, h1, h2, h3, h4⟩
    exact ⟨h, fun b => by cases b <;> assumption⟩
  · rintro ⟨h, hb⟩
    exact ⟨h, hb .txr, hb .txf, hb .rxf, hb .rxr⟩

theorem State.Inv.buffer {s : State} (h : s.Inv) (b : BufId) : bufferOk (s.cap b) (s.buf b) :=
  ((State.inv_iff s).mp h).2 b

theorem State.cursorsInBounds_iff (s : State) :
    s.cursorsInBounds = true ↔ ∀ b, (s.buf b).head ≤ (s.buf b).tail ∧ (s.buf b).tail ≤ s.cap b := by
  simp only [State.cursorsInBounds, List.all_cons, List.all_nil, Bool.and_true, Bool.and_eq_true, Nat.ble_eq]
  constructor
  · rintro ⟨h1, h2, h3, h4⟩ b
    cases b <;> assumption
  · intro h
    exact ⟨h .txr, h .txf, h .rxf, h .rxr⟩

/-- A good state passes the check a step starts with (log entry 9). -/
theorem State.Inv.cursorsInBounds {s : State} (h : s.Inv) : s.cursorsInBounds = true :=
  (State.cursorsInBounds_iff s).mpr fun b => ⟨(h.buffer b).1, (h.buffer b).2.1⟩

theorem State.Inv.cap_lt {s : State} (h : s.Inv) (b : BufId) : s.cap b < 2 ^ 32 := by
  obtain ⟨⟨h1, h2, h3, h4⟩, -⟩ := h
  cases b
  · exact Nat.lt_succ_of_le h1.2
  · exact Nat.lt_succ_of_le h2.2
  · exact Nat.lt_succ_of_le h3.2
  · exact Nat.lt_succ_of_le h4.2

/-! ## What keeps a buffer good -/

theorem bufferOk_appendBytes (cap : Nat) (c : CursorBuffer) (bytes : List Byte) (h : bufferOk cap c)
    (hfit : bytes.length ≤ cap - c.tail) : bufferOk cap (appendBytes c bytes) := by
  obtain ⟨h1, h2, h3, h4⟩ := h
  have h5 : c.tail + bytes.length ≤ cap := by omega
  exact ⟨Nat.le_trans h1 (Nat.le_add_right ..), h5, memWriteBytes_wf _ _ _ h3,
    memWriteBytes_below _ _ _ _ h4 h5⟩

theorem bufferOk_advance (cap : Nat) (c : CursorBuffer) (n : Nat) (h : bufferOk cap c)
    (hn : n ≤ remaining c) : bufferOk cap { c with head := c.head + n } := by
  obtain ⟨h1, h2, h3, h4⟩ := h
  rw [remaining] at hn
  exact ⟨by simp only; omega, h2, h3, h4⟩

theorem bufferOk_resetCursors (cap : Nat) (c : CursorBuffer) (h : bufferOk cap c) :
    bufferOk cap (resetCursors c) :=
  ⟨Nat.le_refl _, Nat.zero_le _, h.2.2.1, h.2.2.2⟩

theorem bufferOk_reload (cap : Nat) (c : CursorBuffer) (bytes : List Byte) (h : bufferOk cap c)
    (hfit : bytes.length ≤ cap) : bufferOk cap (reload c bytes) := by
  obtain ⟨h1, h2, h3, h4⟩ := h
  exact ⟨Nat.zero_le _, hfit, memWriteBytes_wf _ _ _ h3, memWriteBytes_below _ _ _ _ h4 (by omega)⟩

/-! ## What keeps a state good -/

theorem State.Inv.setBuf {s : State} {b : BufId} {c : CursorBuffer} (h : s.Inv)
    (hc : bufferOk (s.cap b) c) : (s.setBuf b c).Inv := by
  rw [State.inv_iff] at h ⊢
  refine ⟨by simpa using h.1, fun b' => ?_⟩
  rw [State.cap_setBuf]
  by_cases hb : b' = b
  · subst hb; rwa [State.buf_setBuf_same]
  · rw [State.buf_setBuf_ne _ _ _ _ hb]; exact h.2 b'

/-- Taking the next frame keeps the invariant, whatever comes of it (R115). -/
theorem State.Inv.nextFrame {s : State} (h : s.Inv) (cap : Nat) : (nextFrame s cap).1.Inv := by
  obtain ⟨h0, h1, h2, h3, h4⟩ := h
  have hz : ∀ z, firstZero (window s.rxf) = some z → z + 1 ≤ remaining s.rxf := by
    intro z hz
    have := firstZero_lt _ _ hz
    rwa [window_length] at this
  have hall : bufferOk s.caps.rxf { s.rxf with head := s.rxf.tail } := ⟨Nat.le_refl _, h3.2.1, h3.2.2⟩
  rcases nextFrame_cases s cap with ⟨-, -, e⟩ | ⟨-, -, -, e⟩ | ⟨z, -, -, hf, e⟩ | ⟨-, -, -, e⟩ | ⟨-, -, -, e⟩ |
    ⟨z, -, hf, e⟩ <;> rw [e]
  · exact ⟨h0, h1, h2, h3, h4⟩
  · exact ⟨h0, h1, h2, hall, h4⟩
  · exact ⟨h0, h1, h2, bufferOk_advance _ _ _ h3 (hz z hf), h4⟩
  · exact ⟨h0, h1, h2, hall, h4⟩
  · exact ⟨h0, h1, h2, h3, h4⟩
  · exact ⟨h0, h1, h2, bufferOk_advance _ _ _ h3 (hz z hf), h4⟩

/-- Taking the next frame leaves three buffers, the parameters and the channels alone (R115). -/
theorem nextFrame_frame (s : State) (cap : Nat) :
    (nextFrame s cap).1.txr = s.txr ∧ (nextFrame s cap).1.txf = s.txf ∧ (nextFrame s cap).1.rxr = s.rxr ∧
      (nextFrame s cap).1.caps = s.caps ∧ (nextFrame s cap).1.pending = s.pending ∧
      (nextFrame s cap).1.responses = s.responses := by
  rcases nextFrame_cases s cap with ⟨-, -, e⟩ | ⟨-, -, -, e⟩ | ⟨z, -, -, hf, e⟩ | ⟨-, -, -, e⟩ | ⟨-, -, -, e⟩ |
    ⟨z, -, hf, e⟩ <;> rw [e] <;> exact ⟨rfl, rfl, rfl, rfl, rfl, rfl⟩

/-- A frame that is taken fits the capacity it was taken with (R115). -/
theorem nextFrame_length (s : State) (cap : Nat) (p : List Byte) (h : (nextFrame s cap).2 = .ok p) :
    p.length ≤ cap := by
  rcases nextFrame_cases s cap with ⟨-, -, e⟩ | ⟨-, -, -, e⟩ | ⟨z, -, -, hf, e⟩ | ⟨-, -, -, e⟩ | ⟨-, -, -, e⟩ |
    ⟨z, -, hf, e⟩ <;> rw [e] at h <;> first | exact cobsDec_length _ _ _ h | cases h

/-- What failing to take a frame leaves behind, status by status (R115, R225). -/
theorem nextFrame_error (s : State) (cap : Nat) (er : Status) (hr : (nextFrame s cap).2 = .error er) :
    (er = .incomplete ∧ (nextFrame s cap).1 = s) ∨
      (er = .missingTerminator ∧ StreamDiscarded s (nextFrame s cap).1) ∨
      ((er = .sourceTooShort ∨ er = .destTooShort) ∧ FrameDiscarded s (nextFrame s cap).1) := by
  rcases nextFrame_cases s cap with ⟨h, -, e⟩ | ⟨h, -, hn, e⟩ | ⟨z, h, -, hf, e⟩ | ⟨h, hz, hst, e⟩ |
    ⟨h, -, -, e⟩ | ⟨z, h', hf, e⟩ <;> rw [e] at hr ⊢
  · cases hr; exact .inl ⟨rfl, rfl⟩
  · cases hr; exact .inr (.inl ⟨rfl, rfl, .inr ⟨hn, rfl, window_of_empty rfl, ‹_›⟩⟩)
  · cases hr; exact .inr (.inl ⟨rfl, rfl, .inl ⟨z, hf, ‹_›, rfl, window_advance s.rxf (z + 1), rfl⟩⟩)
  · cases hr; exact .inr (.inl ⟨rfl, rfl, .inr ⟨hz, rfl, window_of_empty rfl, rfl⟩⟩)
  · cases hr; exact .inl ⟨rfl, rfl⟩
  · refine .inr (.inr ⟨?_, z, hf, rfl, rfl, window_advance s.rxf (z + 1), rfl⟩)
    rcases cobsDec_error _ _ _ hr with rfl | h | h
    · exact absurd hr (cobsDec_ne_unexpectedNull _ _ (firstZero_take _ _ hf))
    · exact .inl h
    · exact .inr h

end Sys2Proof.Machine
end

