-- ==== Sys2Proof/Laws/Exec.lean ====
section
/-! SUPPORT. What the meaning of an instruction can do, said once: every operation ends (`complete`) in one of
a few shapes. Proofs over all instructions go through `exec_shape` and unfold no meaning. -/

namespace Sys2Proof.Machine

/-! ## What a parsed record takes -/

theorem u32Result_bounds (w : List Byte) (n : Nat) (r : Response) (h : u32Result w = .ok (n, r)) :
    n ≤ w.length ∧ r.status = .ok ∧ r.q0 = [] ∧ r.q1 = [] := by
  unfold u32Result at h
  split at h
  · cases h
  · cases h; exact ⟨(decU32_bounds w _ _ ‹_›).2, rfl, rfl, rfl⟩

theorem i32Result_bounds (w : List Byte) (n : Nat) (r : Response) (h : i32Result w = .ok (n, r)) :
    n ≤ w.length ∧ r.status = .ok ∧ r.q0 = [] ∧ r.q1 = [] := by
  unfold i32Result at h
  split at h
  · cases h
  · cases h; exact ⟨(decI32_bounds w _ _ ‹_›).2, rfl, rfl, rfl⟩

theorem narrowRead_bounds (form : Byte → Except Status Word) (w : List Byte) (n : Nat) (r : Response)
    (h : narrowRead form w = .ok (n, r)) : n ≤ w.length ∧ r.status = .ok ∧ r.q0 = [] ∧ r.q1 = [] := by
  unfold narrowRead at h
  split at h
  · cases h
  · split at h
    · cases h
    · cases h; exact ⟨by simp, rfl, rfl, rfl⟩

theorem tlvResult_bounds (n : LenWidth) (w : List Byte) (dcap k : Nat) (r : Response)
    (h : tlvResult (tlvParse n w dcap) = .ok (k, r)) :
    k ≤ w.length ∧ r.status = .ok ∧ r.q0.length ≤ dcap ∧ r.q1 = [] := by
  unfold tlvResult at h
  split at h
  · cases h
  · cases h
    have := tlvParse_bounds n w dcap _ ‹_›
    exact ⟨this.1, rfl, this.2.1, rfl⟩

theorem atlvResult_bounds (n : LenWidth) (w : List Byte) (dcap acap k : Nat) (r : Response)
    (h : atlvResult (atlvParse n w dcap acap) = .ok (k, r)) :
    k ≤ w.length ∧ r.status = .ok ∧ r.q0.length ≤ dcap ∧ r.q1.length ≤ acap := by
  unfold atlvResult at h
  split at h
  · cases h
  · cases h
    have := atlvParse_bounds n w dcap acap _ ‹_›
    exact ⟨this.1, rfl, this.2.1, this.2.2⟩

/-! ## Shapes -/

/-- The ways in which an operation can end: the state it leaves and the response it gives. -/
inductive Shape (i : Instr) (s : State) : State × Response → Prop
  /-- No mutation: an `Ok` with results, or a status that leaves the state as it was, with default results. -/
  | stay (r : Response) (hr : r.status = .ok ∨ r = failWith r.status ∧ failureMoves i r.status = false) :
      Shape i s (s, r)
  /-- A string appended to a buffer. -/
  | grow (b : BufId) (bytes : List Byte) (hfit : bytes.length ≤ s.space b)
      (hwho : mayWriteTail i b = true) :
      Shape i s
        (s.setBuf b (appendBytes (s.buf b) bytes), { status := .ok, r0 := wordOf bytes.length })
  /-- Unread bytes taken from a buffer. -/
  | take (b : BufId) (n : Nat) (r : Response) (hfit : n ≤ remaining (s.buf b))
      (hwho : mayWriteHead i b = true) (hr : r.status = .ok) : Shape i s (consume s b n, r)
  /-- `CP.READ` of a record, whatever its class. -/
  | read (dcap : Word) (rec : ParsedRecord) (hi : i = .cpRead dcap)
      (hp : tlvParse .w8 (window s.rxr) dcap.toNat = .ok rec) (hfit : rec.consumed ≤ remaining s.rxr) :
      Shape i s
        (consume s .rxr rec.consumed,
         { status := classify rec.tag rec.value.length
           r0 := wordOf rec.tag
           r1 := wordOf rec.value.length
           r2 := wordOf rec.consumed
           q0 := rec.value })
  /-- `CB.COMPACT` on an empty window. -/
  | compact (b : BufId) (hi : i = .cbCompact b) (hempty : (s.buf b).head = (s.buf b).tail) :
      Shape i s (s.setBuf b (resetCursors (s.buf b)), { status := .ok, r0 := 1#32 })
  /-- `SYS.RESET`. -/
  | reset (hi : i = .sysReset) : Shape i s (resetCore s, { status := .ok })
  /-- `FR.READ`. -/
  | frame (dcap : Word) (hi : i = .frRead dcap) :
      Shape i s ((nextFrame s dcap.toNat).1, deliver (nextFrame s dcap.toNat).2)
  /-- `CP.FINISH` when the frame fits. -/
  | finish (hi : i = .cpFinish) (hfit : (terminatedFrame (window s.txr)).length ≤ s.space .txf) :
      Shape i s
        ((s.setBuf .txf (appendBytes s.txf (terminatedFrame (window s.txr)))).setBuf .txr (resetCursors s.txr),
         { status := .ok, r0 := wordOf (terminatedFrame (window s.txr)).length })
  /-- `CP.LOAD` when there is no frame to take. -/
  | loadNone (e : Status) (hi : i = .cpLoad) (he : e = .incomplete ∨ e = .missingTerminator)
      (hf : (nextFrame s s.caps.rxr).2 = .error e) :
      Shape i s ((nextFrame s s.caps.rxr).1, failWith e)
  /-- `CP.LOAD` of a frame that does not decode. -/
  | loadBad (e : Status) (hi : i = .cpLoad) (he : e ≠ .incomplete ∧ e ≠ .missingTerminator)
      (hf : (nextFrame s s.caps.rxr).2 = .error e) :
      Shape i s
        ((nextFrame s s.caps.rxr).1.setBuf .rxr (resetCursors (nextFrame s s.caps.rxr).1.rxr),
         failWith e)
  /-- `CP.LOAD` of a frame that decodes. -/
  | load (p : List Byte) (hi : i = .cpLoad) (hf : (nextFrame s s.caps.rxr).2 = .ok p) :
      Shape i s
        ((nextFrame s s.caps.rxr).1.setBuf .rxr (reload (nextFrame s s.caps.rxr).1.rxr p),
         { status := .ok, r0 := wordOf p.length })

theorem shape_append (i : Instr) (s : State) (b : BufId) (built : Except Status (List Byte))
    (hwho : mayWriteTail i b = true) (he : ∀ e, failureMoves i e = false) :
    Shape i s (appendResult s b built) := by
  rcases appendResult_cases s b built with ⟨e, -, h⟩ | ⟨bytes, -, -, h⟩ | ⟨bytes, -, hl, h⟩ <;> rw [h]
  · exact .stay _ (.inr ⟨rfl, he _⟩)
  · exact .stay _ (.inr ⟨rfl, he _⟩)
  · exact .grow b bytes hl hwho

theorem shape_consume (i : Instr) (s : State) (parsed : Except Status (Nat × Response))
    (hwho : mayWriteHead i .rxr = true)
    (hp : ∀ n r, parsed = .ok (n, r) →
      n ≤ (window s.rxr).length ∧ r.status = .ok) (he : ∀ e, failureMoves i e = false) :
    Shape i s (consumeResult s parsed) := by
  rcases consumeResult_cases s parsed with ⟨e, -, h⟩ | ⟨n, r, hok, h⟩ <;> rw [h]
  · exact .stay _ (.inr ⟨rfl, he e⟩)
  · have hn := (hp n r hok).1
    rw [window_length] at hn
    exact .take .rxr n r hn hwho (hp n r hok).2

theorem deliver_status (r : Except Status (List Byte)) :
    (deliver r).status = .ok ∨ deliver r = failWith (deliver r).status := by
  cases r
  · exact .inr rfl
  · exact .inl rfl

theorem shape_deliver (i : Instr) (s : State) (r : Except Status (List Byte))
    (he : ∀ e, failureMoves i e = false) : Shape i s (s, deliver r) :=
  .stay _ ((deliver_status r).imp_right fun h => ⟨h, he _⟩)

/-- All that the meaning of an instruction can do: it ends in one of the shapes. -/
theorem exec_shape (i : Instr) (s : State) : ∃ p, Shape i s p ∧ exec i s = complete p := by
  cases i with
  | sysReset => exact ⟨_, .reset rfl, rfl⟩
  | cbExtend b bytes => exact ⟨_, shape_append _ s b _ (decide_eq_true rfl) fun e => by cases e <;> rfl, rfl⟩
  | cbAdvance b n =>
    refine ⟨_, ?_, rfl⟩
    split
    · exact .stay _ (.inr ⟨rfl, rfl⟩)
    · rename_i h
      exact .take b (unsignedOperand n) _ (Nat.le_of_not_gt h) (decide_eq_true rfl) rfl
  | cbCompact b =>
    refine ⟨_, ?_, rfl⟩
    split
    · exact .compact b rfl ‹_›
    · exact .stay _ (.inl rfl)
  | cbStat b => exact ⟨_, .stay _ (.inl rfl), rfl⟩
  | cbDrain b dcap =>
    exact ⟨_, .take b (min (unsignedOperand dcap) (remaining (s.buf b))) _ (Nat.min_le_right _ _)
      (decide_eq_true rfl) rfl, rfl⟩
  | frEnc src dcap => exact ⟨_, shape_deliver _ s _ fun e => by cases e <;> rfl, rfl⟩
  | frDec src dcap => exact ⟨_, shape_deliver _ s _ fun e => by cases e <;> rfl, rfl⟩
  | frWrite src => exact ⟨_, shape_append _ s _ _ rfl fun e => by cases e <;> rfl, rfl⟩
  | frRead dcap => exact ⟨_, .frame dcap rfl, rfl⟩
  | viRu32 =>
    exact ⟨_, shape_consume _ s _ rfl (fun n r h => have hb := u32Result_bounds _ n r h; ⟨hb.1, hb.2.1⟩)
      (fun e => by cases e <;> rfl), rfl⟩
  | viRi32 =>
    exact ⟨_, shape_consume _ s _ rfl (fun n r h => have hb := i32Result_bounds _ n r h; ⟨hb.1, hb.2.1⟩)
      (fun e => by cases e <;> rfl), rfl⟩
  | viRu1 | viRu7 | viRi7 =>
    exact ⟨_, shape_consume _ s _ rfl (fun n r h => have hb := narrowRead_bounds _ _ n r h; ⟨hb.1, hb.2.1⟩)
      (fun e => by cases e <;> rfl), rfl⟩
  | tlvR8 dcap | tlvR16 dcap | tlvR32 dcap =>
    exact ⟨_, shape_consume _ s _ rfl (fun n r h => have hb := tlvResult_bounds _ _ _ n r h; ⟨hb.1, hb.2.1⟩)
      (fun e => by cases e <;> rfl), rfl⟩
  | atlvR8 dcap acap | atlvR16 dcap acap | atlvR32 dcap acap =>
    exact ⟨_, shape_consume _ s _ rfl (fun n r h => have hb := atlvResult_bounds _ _ _ _ n r h; ⟨hb.1, hb.2.1⟩)
      (fun e => by cases e <;> rfl), rfl⟩
  | cpRead dcap =>
    refine ⟨_, ?_, rfl⟩
    rcases hp : tlvParse .w8 (window s.rxr) (unsignedOperand dcap) with e | rec
    · refine .stay _ (.inr ⟨rfl, ?_⟩)
      rcases tlvParse_error _ _ _ _ hp with rfl | rfl | rfl <;> rfl
    · have hfit := (tlvParse_bounds _ _ _ _ hp).1
      rw [window_length] at hfit
      exact .read dcap rec rfl hp hfit
  | cpFinish =>
    refine ⟨_, ?_, rfl⟩
    rcases append_cases s .txf (terminatedFrame (window s.txr)) with ⟨h, -⟩ | ⟨h, hl⟩ <;> simp only [h]
    · exact .stay _ (.inr ⟨rfl, rfl⟩)
    · exact .finish rfl hl
  | cpLoad =>
    refine ⟨_, ?_, rfl⟩
    rcases h : (nextFrame s s.caps.rxr).2 with e | p
    · cases e
      case incomplete => exact .loadNone _ rfl (.inl rfl) h
      case missingTerminator => exact .loadNone _ rfl (.inr rfl) h
      all_goals exact .loadBad _ rfl ⟨nofun, nofun⟩ h
    · exact .load p rfl h
  | viWu32 _ | viWi32 _ | viWu1 _ | viWu7 _ | viWi7 _ | tlvW8 _ _ | tlvW16 _ _ | tlvW32 _ _
  | atlvW8 _ _ _ | atlvW16 _ _ _ | atlvW32 _ _ _ | cpBoot _ | cpRun _ | cpExit _ | cpException _
  | cpPanic _ | cpStdin _ | cpStdout _ | cpStderr _ | cpError _ | cpWarn _ | cpInfo _ | cpDebug _
  | cpTrace _ | cpVal _ | cpGet _ | cpSet _ => exact ⟨_, shape_append _ s .txr _ rfl fun e => by cases e <;> rfl, rfl⟩

/-- The state an operation leaves before its response is sent has the channels and parameters it found. -/
theorem shape_channels (i : Instr) (s : State) (p : State × Response) (h : Shape i s p) :
    p.1.responses = s.responses ∧ p.1.pending = s.pending ∧ p.1.caps = s.caps := by
  have hn : ∀ cap, (nextFrame s cap).1.responses = s.responses ∧ (nextFrame s cap).1.pending = s.pending ∧
      (nextFrame s cap).1.caps = s.caps := by
    intro cap
    obtain ⟨-, -, -, hc, hp, hr⟩ := nextFrame_frame s cap
    exact ⟨hr, hp, hc⟩
  cases h with
  | frame | loadNone => exact hn _
  | loadBad | load => simpa using hn _
  | _ => simp

/-- All that an operation can answer: the state of its shape with one response sent. -/
theorem exec_eq_next (i : Instr) (s t : State) (h : exec i s = .next t) :
    ∃ p, Shape i s p ∧ t = p.1.respond p.2 := by
  obtain ⟨p, hp, he⟩ := exec_shape i s
  rw [he, complete_eq_next] at h
  exact ⟨p, hp, h⟩

/-! ## From a meaning to its effect -/

/-- An operation that ends in the state it found changes nothing. -/
theorem onlyAnswers_of (i : Instr) (s : State) (r : Response) (h : exec i s = complete (s, r)) :
    OnlyAnswers i s r :=
  ⟨_, h, ⟨fun b => by simp, rfl⟩, rfl, rfl, rfl⟩

/-- An operation that appends a string which fits has the effect of appending it. -/
theorem appendsAndAnswers_of (i : Instr) (s : State) (b : BufId) (bytes : List Byte) (hs : s.Inv)
    (hfit : bytes.length ≤ s.space b)
    (h : exec i s = complete
      (s.setBuf b (appendBytes (s.buf b) bytes), { status := .ok, r0 := wordOf bytes.length })) :
    AppendsAndAnswers i s b bytes := by
  have hb := hs.buffer b
  have hcap := hs.cap_lt b
  refine ⟨_, wordOf bytes.length, h, ⟨?_, ?_, ?_, ?_, ?_, ?_⟩, ?_, ?_⟩
  · simp [appendBytes]
  · simp [appendBytes]
  · simp only [State.buf_respond, State.buf_setBuf_same]
    exact window_appendBytes _ _ hb.2.2.1 hb.1
  · intro a ha
    simp only [State.buf_respond, State.buf_setBuf_same, appendBytes]
    rw [memRead_memWriteBytes _ _ _ _ hb.2.2.1, if_neg (by omega)]
  · intro b' hne
    simp [State.buf_setBuf_ne _ _ _ _ hne]
  · simp
  · rw [State.space] at hfit
    exact wordOf_toNat _ (by omega)
  · exact ⟨by simp, by simp, by simp⟩

/-- An operation that consumes unread bytes of a buffer has the effect of consuming them. -/
theorem consumed_of (i : Instr) (s : State) (b : BufId) (n : Nat) (r : Response)
    (h : exec i s = complete (consume s b n, r)) :
    ∃ t, exec i s = .next t ∧ Consumed s t b n ∧ Answered s t r := by
  refine ⟨_, h, ⟨?_, ?_, ?_, ?_, ?_, ?_⟩, ?_⟩
  · simp
  · simp
  · simp only [State.buf_respond, buf_consume_same]
    exact window_advance _ _
  · simp
  · intro b' hne
    simp [buf_consume_ne _ _ _ _ hne]
  · simp
  · exact ⟨by simp, by simp, by simp⟩

end Sys2Proof.Machine
end

