-- ==== Sys2Proof/Laws/PerInstr.lean ====
section
/-! SUPPORT. One law stated of every operation, one lemma per constructor (LAWS.json): the command record that
carries an operation obeys R60 exactly when the operands of the operation do. -/

namespace Sys2Proof.Laws.EncodeWellFormed

/-- The encoded record is a command of R60 exactly when the operation is well formed (R7, R60). -/
def Statement (i : Instr) : Prop := (encode i).wellFormed = i.wellFormed

/-- A record with one byte string is well formed when that string is short. -/
theorem oneString (c : Command) (h : c.d1 = []) : c.wellFormed = shortString c.d0 := by
  rw [Command.wellFormed, h, show shortString [] = true from rfl, Bool.and_true]

theorem sysReset : Statement .sysReset := rfl

theorem cbExtend (b : BufId) (bytes : List Byte) : Statement (.cbExtend b bytes) := oneString _ rfl

theorem cbAdvance (b : BufId) (n : Word) : Statement (.cbAdvance b n) := rfl

theorem cbCompact (b : BufId) : Statement (.cbCompact b) := rfl

theorem cbStat (b : BufId) : Statement (.cbStat b) := rfl

theorem cbDrain (b : BufId) (dcap : Word) : Statement (.cbDrain b dcap) := rfl

theorem frEnc (src : List Byte) (dcap : Word) : Statement (.frEnc src dcap) := oneString _ rfl

theorem frDec (src : List Byte) (dcap : Word) : Statement (.frDec src dcap) := oneString _ rfl

theorem frWrite (src : List Byte) : Statement (.frWrite src) := oneString _ rfl

theorem frRead (dcap : Word) : Statement (.frRead dcap) := rfl

theorem viWu32 (value : Word) : Statement (.viWu32 value) := rfl

theorem viWi32 (value : Word) : Statement (.viWi32 value) := rfl

theorem viWu1 (value : Word) : Statement (.viWu1 value) := rfl

theorem viWu7 (value : Word) : Statement (.viWu7 value) := rfl

theorem viWi7 (value : Word) : Statement (.viWi7 value) := rfl

theorem viRu32 : Statement .viRu32 := rfl

theorem viRi32 : Statement .viRi32 := rfl

theorem viRu1 : Statement .viRu1 := rfl

theorem viRu7 : Statement .viRu7 := rfl

theorem viRi7 : Statement .viRi7 := rfl

theorem tlvW8 (tag : Word) (value : List Byte) : Statement (.tlvW8 tag value) := oneString _ rfl

theorem tlvW16 (tag : Word) (value : List Byte) : Statement (.tlvW16 tag value) := oneString _ rfl

theorem tlvW32 (tag : Word) (value : List Byte) : Statement (.tlvW32 tag value) := oneString _ rfl

theorem tlvR8 (dcap : Word) : Statement (.tlvR8 dcap) := rfl

theorem tlvR16 (dcap : Word) : Statement (.tlvR16 dcap) := rfl

theorem tlvR32 (dcap : Word) : Statement (.tlvR32 dcap) := rfl

theorem atlvW8 (tag : Word) (value addr : List Byte) : Statement (.atlvW8 tag value addr) := rfl

theorem atlvW16 (tag : Word) (value addr : List Byte) : Statement (.atlvW16 tag value addr) := rfl

theorem atlvW32 (tag : Word) (value addr : List Byte) : Statement (.atlvW32 tag value addr) := rfl

theorem atlvR8 (dcap acap : Word) : Statement (.atlvR8 dcap acap) := rfl

theorem atlvR16 (dcap acap : Word) : Statement (.atlvR16 dcap acap) := rfl

theorem atlvR32 (dcap acap : Word) : Statement (.atlvR32 dcap acap) := rfl

theorem cpFinish : Statement .cpFinish := rfl

theorem cpLoad : Statement .cpLoad := rfl

theorem cpRead (dcap : Word) : Statement (.cpRead dcap) := rfl

theorem cpBoot (payload : List Byte) : Statement (.cpBoot payload) := oneString _ rfl

theorem cpRun (payload : List Byte) : Statement (.cpRun payload) := oneString _ rfl

theorem cpExit (status : Word) : Statement (.cpExit status) := rfl

theorem cpException (payload : List Byte) : Statement (.cpException payload) := oneString _ rfl

theorem cpPanic (payload : List Byte) : Statement (.cpPanic payload) := oneString _ rfl

theorem cpStdin (payload : List Byte) : Statement (.cpStdin payload) := oneString _ rfl

theorem cpStdout (payload : List Byte) : Statement (.cpStdout payload) := oneString _ rfl

theorem cpStderr (payload : List Byte) : Statement (.cpStderr payload) := oneString _ rfl

theorem cpError (payload : List Byte) : Statement (.cpError payload) := oneString _ rfl

theorem cpWarn (payload : List Byte) : Statement (.cpWarn payload) := oneString _ rfl

theorem cpInfo (payload : List Byte) : Statement (.cpInfo payload) := oneString _ rfl

theorem cpDebug (payload : List Byte) : Statement (.cpDebug payload) := oneString _ rfl

theorem cpTrace (payload : List Byte) : Statement (.cpTrace payload) := oneString _ rfl

theorem cpVal (payload : List Byte) : Statement (.cpVal payload) := oneString _ rfl

theorem cpGet (payload : List Byte) : Statement (.cpGet payload) := oneString _ rfl

theorem cpSet (payload : List Byte) : Statement (.cpSet payload) := oneString _ rfl

end Sys2Proof.Laws.EncodeWellFormed
end

