-- ==== Sys2Proof/Machine/Assembler.lean ====
section
/-! DEFINITION. The assembler syntax of the spec's examples (30_encoding.md Part C, R96) and its pseudo-operations
(R97). Nothing a step does depends on this file. Log entry 14. -/

namespace Sys2Proof.Machine

/-! ## Text (R96) -/

/-- A hexadecimal digit. -/
def hexDigit (n : Nat) : Char := "0123456789ABCDEF".toList.getD n '0'

/-- A byte as a hexadecimal pair. -/
def hexPair (b : Byte) : String := String.ofList [hexDigit (b.toNat / 16), hexDigit (b.toNat % 16)]

/-- A byte string operand or result: `name=h"AA BB"`. -/
def bytesText (name : String) (d : List Byte) : String :=
  name ++ "=h\"" ++ String.intercalate " " (d.map hexPair) ++ "\""

/-- A scalar operand or result: `name=value`, decimal. -/
def scalarText (name : String) (a : Word) : String := name ++ "=" ++ toString a.toNat

/-- A signed scalar operand: `name=value`, decimal. -/
def signedText (name : String) (a : Word) : String := name ++ "=" ++ toString a.toInt

/-- The name of a buffer. -/
def bufName : BufId → String
  | .txr => "TXR"
  | .txf => "TXF"
  | .rxf => "RXF"
  | .rxr => "RXR"

/-- The mnemonic of an operation (R62). -/
def mnemonic : Instr → String
  | .sysReset => "SYS.RESET"
  | .cbExtend _ _ => "CB.EXTEND"
  | .cbAdvance _ _ => "CB.ADVANCE"
  | .cbCompact _ => "CB.COMPACT"
  | .cbStat _ => "CB.STAT"
  | .cbDrain _ _ => "CB.DRAIN"
  | .frEnc _ _ => "FR.ENC"
  | .frDec _ _ => "FR.DEC"
  | .frWrite _ => "FR.WRITE"
  | .frRead _ => "FR.READ"
  | .viWu32 _ => "VI.WU32"
  | .viWi32 _ => "VI.WI32"
  | .viWu1 _ => "VI.WU1"
  | .viWu7 _ => "VI.WU7"
  | .viWi7 _ => "VI.WI7"
  | .viRu32 => "VI.RU32"
  | .viRi32 => "VI.RI32"
  | .viRu1 => "VI.RU1"
  | .viRu7 => "VI.RU7"
  | .viRi7 => "VI.RI7"
  | .tlvW8 _ _ => "TLV.W8"
  | .tlvW16 _ _ => "TLV.W16"
  | .tlvW32 _ _ => "TLV.W32"
  | .tlvR8 _ => "TLV.R8"
  | .tlvR16 _ => "TLV.R16"
  | .tlvR32 _ => "TLV.R32"
  | .atlvW8 _ _ _ => "ATLV.W8"
  | .atlvW16 _ _ _ => "ATLV.W16"
  | .atlvW32 _ _ _ => "ATLV.W32"
  | .atlvR8 _ _ => "ATLV.R8"
  | .atlvR16 _ _ => "ATLV.R16"
  | .atlvR32 _ _ => "ATLV.R32"
  | .cpFinish => "CP.FINISH"
  | .cpLoad => "CP.LOAD"
  | .cpRead _ => "CP.READ"
  | .cpBoot _ => "CP.BOOT"
  | .cpRun _ => "CP.RUN"
  | .cpExit _ => "CP.EXIT"
  | .cpException _ => "CP.EXCEPTION"
  | .cpPanic _ => "CP.PANIC"
  | .cpStdin _ => "CP.STDIN"
  | .cpStdout _ => "CP.STDOUT"
  | .cpStderr _ => "CP.STDERR"
  | .cpError _ => "CP.ERROR"
  | .cpWarn _ => "CP.WARN"
  | .cpInfo _ => "CP.INFO"
  | .cpDebug _ => "CP.DEBUG"
  | .cpTrace _ => "CP.TRACE"
  | .cpVal _ => "CP.VAL"
  | .cpGet _ => "CP.GET"
  | .cpSet _ => "CP.SET"

/-- The operands of an operation, in the order of R96: the buffer, the scalars, the byte strings. -/
def operandTexts : Instr → List String
  | .sysReset => []
  | .cbExtend b bytes => [bufName b, bytesText "bytes" bytes]
  | .cbAdvance b n => [bufName b, scalarText "n" n]
  | .cbCompact b => [bufName b]
  | .cbStat b => [bufName b]
  | .cbDrain b dcap => [bufName b, scalarText "dcap" dcap]
  | .frEnc src dcap => [scalarText "dcap" dcap, bytesText "src" src]
  | .frDec src dcap => [scalarText "dcap" dcap, bytesText "src" src]
  | .frWrite src => [bytesText "src" src]
  | .frRead dcap => [scalarText "dcap" dcap]
  | .viWu32 value => [scalarText "value" value]
  | .viWi32 value => [signedText "value" value]
  | .viWu1 value => [scalarText "value" value]
  | .viWu7 value => [scalarText "value" value]
  | .viWi7 value => [signedText "value" value]
  | .viRu32 => []
  | .viRi32 => []
  | .viRu1 => []
  | .viRu7 => []
  | .viRi7 => []
  | .tlvW8 tag value => [scalarText "tag" tag, bytesText "value" value]
  | .tlvW16 tag value => [scalarText "tag" tag, bytesText "value" value]
  | .tlvW32 tag value => [scalarText "tag" tag, bytesText "value" value]
  | .tlvR8 dcap => [scalarText "dcap" dcap]
  | .tlvR16 dcap => [scalarText "dcap" dcap]
  | .tlvR32 dcap => [scalarText "dcap" dcap]
  | .atlvW8 tag value addr => [scalarText "tag" tag, bytesText "value" value, bytesText "addr" addr]
  | .atlvW16 tag value addr => [scalarText "tag" tag, bytesText "value" value, bytesText "addr" addr]
  | .atlvW32 tag value addr => [scalarText "tag" tag, bytesText "value" value, bytesText "addr" addr]
  | .atlvR8 dcap acap => [scalarText "dcap" dcap, scalarText "acap" acap]
  | .atlvR16 dcap acap => [scalarText "dcap" dcap, scalarText "acap" acap]
  | .atlvR32 dcap acap => [scalarText "dcap" dcap, scalarText "acap" acap]
  | .cpFinish => []
  | .cpLoad => []
  | .cpRead dcap => [scalarText "dcap" dcap]
  | .cpBoot payload => [bytesText "payload" payload]
  | .cpRun payload => [bytesText "payload" payload]
  | .cpExit status => [scalarText "status" status]
  | .cpException payload => [bytesText "payload" payload]
  | .cpPanic payload => [bytesText "payload" payload]
  | .cpStdin payload => [bytesText "payload" payload]
  | .cpStdout payload => [bytesText "payload" payload]
  | .cpStderr payload => [bytesText "payload" payload]
  | .cpError payload => [bytesText "payload" payload]
  | .cpWarn payload => [bytesText "payload" payload]
  | .cpInfo payload => [bytesText "payload" payload]
  | .cpDebug payload => [bytesText "payload" payload]
  | .cpTrace payload => [bytesText "payload" payload]
  | .cpVal payload => [bytesText "payload" payload]
  | .cpGet payload => [bytesText "payload" payload]
  | .cpSet payload => [bytesText "payload" payload]

/-- One operation as a line of R96: `MNEMONIC operand, operand, ...`. -/
def asmLine (i : Instr) : String :=
  match operandTexts i with
  | [] => mnemonic i
  | operands => mnemonic i ++ " " ++ String.intercalate ", " operands

/-- The name of a status (R211). -/
def statusName : Status → String
  | .ok => "Ok"
  | .incomplete => "Incomplete"
  | .bufferTooShort => "BufferTooShort"
  | .destTooShort => "DestTooShort"
  | .sourceTooShort => "SourceTooShort"
  | .unexpectedNull => "UnexpectedNull"
  | .missingTerminator => "MissingTerminator"
  | .invalidEncoding => "InvalidEncoding"
  | .outOfRange => "OutOfRange"
  | .unknownTag => "UnknownTag"
  | .illegalCommand => "IllegalCommand"

/-- A response as R96 writes it, default fields omitted. -/
def responseText (r : Response) : String :=
  let scalar (name : String) (a : Word) := if a = 0#32 then [] else [scalarText name a]
  let bytes (name : String) (d : List Byte) := if d = [] then [] else [bytesText name d]
  match scalar "r0" r.r0 ++ scalar "r1" r.r1 ++ scalar "r2" r.r2 ++ bytes "q0" r.q0 ++ bytes "q1" r.q1 with
  | [] => statusName r.status
  | fields => statusName r.status ++ "(" ++ String.intercalate ", " fields ++ ")"

/-! ## Pseudo-operations (R97) -/

/-- `CP.APPEND tag, payload`: the format M command `0x8000 + (tag << 8)`. For tag 3 the payload is one byte and
becomes the status operand; a tag outside the vocabulary names no message (R63). -/
def cpAppend (tag : Nat) (payload : List Byte) : Option Command :=
  match kindOfTag tag with
  | none => none
  | some .exit =>
    match payload with
    | [status] => some { cw := formatM (BitVec.ofNat 7 tag), a0 := wordOf status.toNat }
    | _ => none
  | some _ => some { cw := formatM (BitVec.ofNat 7 tag), d0 := payload }

/-- `CB.REMAINING b`: the operation it issues. -/
def cbRemaining (b : BufId) : Instr := .cbStat b

/-- `CB.REMAINING b`: what the host makes of the response, `r1 - r0`. -/
def remainingOf (r : Response) : Word := r.r1 - r.r0

end Sys2Proof.Machine
end

