-- ==== Sys2Proof/Tests/Slice0.lean ====
section
/-! SUPPORT. The model's own tests: the well-formedness smoke, every constructor decoded from a word written out
from the tables of 30_encoding.md, single steps with the values 95_test_vectors.md gives, and for every
statement with hypotheses a witness that meets them. -/

namespace Sys2Proof.Tests

open Sys2Proof.Machine

/-! ## Small states -/

/-- A buffer whose window is `bytes`, at the offset `head`. -/
def bufAt (head : Nat) (bytes : List Byte) : CursorBuffer where
  mem := memWriteBytes [] head bytes
  head := head
  tail := head + bytes.length

/-- Four empty buffers of 8 bytes. -/
def small : State where
  txr := {}
  txf := {}
  rxf := {}
  rxr := {}
  resync := false
  caps := ⟨8, 8, 8, 8⟩
  pending := []
  responses := []

/-- `small` with a window in RXR. -/
def rxrHolds (bytes : List Byte) : State := { small with rxr := bufAt 0 bytes, caps := ⟨8, 8, 8, 64⟩ }

/-- `small` with a window in RXF. -/
def rxfHolds (bytes : List Byte) : State := { small with rxf := bufAt 0 bytes }

/-- `small`, resynchronising, with a window in RXF. -/
def resyncing (bytes : List Byte) : State := { rxfHolds bytes with resync := true }

/-- TXR as `95_test_vectors.md` section 2.3 has it for a full buffer: `(0, 3, 4)`. -/
def nearlyFull : State := { small with txr := bufAt 0 [1#8, 2#8, 3#8], caps := ⟨4, 8, 8, 8⟩ }

/-- `small` with 16 bytes of TXR. -/
def roomy : State := { small with caps := ⟨16, 8, 8, 8⟩ }

/-- The response of an operation and the windows of TXR, TXF, RXF, RXR it leaves. -/
def outcome (i : Instr) (s : State) : Option (Option Response × List (List Byte)) :=
  match exec i s with
  | .next t => some (t.lastResponse, [t.txr, t.txf, t.rxf, t.rxr].map window)
  | _ => none

/-- The cursors of TXR, TXF, RXF, RXR and `RESYNC` an operation leaves. -/
def cursorsAfter (i : Instr) (s : State) : Option (List (Nat × Nat) × Bool) :=
  match exec i s with
  | .next t => some ([t.txr, t.txf, t.rxf, t.rxr].map fun c => (c.head, c.tail), t.resync)
  | _ => none

/-- What an operation answers. -/
def answer (i : Instr) (s : State) : Option Response := (outcome i s).bind Prod.fst

/-! ## Well-formedness smoke: a byte string of 2^32 bytes is no operand (R60) -/

/-- One byte too long for R60. -/
@[irreducible] def long : List Byte := List.replicate (2 ^ 32) 0#8

theorem long_length : long.length = 2 ^ 32 := by
  unfold long
  exact List.length_replicate

theorem test_long_is_refused : shortString long = false := by
  unfold shortString
  rw [long_length]
  decide

theorem test_wellFormed_refuses_cb_fr :
    Instr.wellFormed (.cbExtend .rxf long) = false ∧
      Instr.wellFormed (.frEnc long 1#32) = false ∧
      Instr.wellFormed (.frDec long 1#32) = false ∧
      Instr.wellFormed (.frWrite long) = false := by
  simp [Instr.wellFormed, test_long_is_refused]

theorem test_wellFormed_refuses_tlv :
    Instr.wellFormed (.tlvW8 0#32 long) = false ∧
      Instr.wellFormed (.tlvW16 0#32 long) = false ∧
      Instr.wellFormed (.tlvW32 0#32 long) = false := by
  simp [Instr.wellFormed, test_long_is_refused]

theorem test_wellFormed_refuses_atlv :
    Instr.wellFormed (.atlvW8 0#32 long []) = false ∧
      Instr.wellFormed (.atlvW8 0#32 [] long) = false ∧
      Instr.wellFormed (.atlvW16 0#32 long []) = false ∧
      Instr.wellFormed (.atlvW16 0#32 [] long) = false ∧
      Instr.wellFormed (.atlvW32 0#32 long []) = false ∧
      Instr.wellFormed (.atlvW32 0#32 [] long) = false := by
  simp [Instr.wellFormed, test_long_is_refused]

theorem test_wellFormed_refuses_cp :
    Instr.wellFormed (.cpBoot long) = false ∧
      Instr.wellFormed (.cpRun long) = false ∧
      Instr.wellFormed (.cpException long) = false ∧
      Instr.wellFormed (.cpPanic long) = false ∧
      Instr.wellFormed (.cpStdin long) = false ∧
      Instr.wellFormed (.cpStdout long) = false ∧
      Instr.wellFormed (.cpStderr long) = false ∧
      Instr.wellFormed (.cpError long) = false ∧
      Instr.wellFormed (.cpWarn long) = false ∧
      Instr.wellFormed (.cpInfo long) = false ∧
      Instr.wellFormed (.cpDebug long) = false ∧
      Instr.wellFormed (.cpTrace long) = false ∧
      Instr.wellFormed (.cpVal long) = false ∧
      Instr.wellFormed (.cpGet long) = false ∧
      Instr.wellFormed (.cpSet long) = false := by
  simp [Instr.wellFormed, test_long_is_refused]

theorem test_command_wellFormed_refuses :
    Command.wellFormed { cw := 0#16, d0 := long } = false ∧
      Command.wellFormed { cw := 0#16, d1 := long } = false ∧
      Command.wellFormed { cw := 0#16, d0 := [1#8], d1 := [2#8] } = true := by
  simp [Command.wellFormed, shortString, long_length]

/-- What `GoodStatesNeverFault` says of a refusal happens. -/
theorem test_step_refuses_a_long_operand :
    step (small.present { cw := 0x1000#16, d0 := long }) = .refused .operandTooLong := by
  have hb : (small.present { cw := 0x1000#16, d0 := long }).cursorsInBounds = true := rfl
  have hi : ¬(Instr.cbExtend .txr long).wellFormed = true := by
    simp [Instr.wellFormed, test_long_is_refused]
  unfold step
  rw [if_pos hb]
  show (if (Instr.cbExtend .txr long).wellFormed = true then _ else Host.Outcome.refused _) = _
  rw [if_neg hi]

/-! ## Decoding: every operation from its command word (30_encoding.md R61 to R63, R67) -/

theorem test_decode_sys :
    decode { cw := 0b0000000000000000#16, a0 := 1#32, a1 := 2#32, a2 := 3#32, d0 := [4#8], d1 := [5#8] } =
        .ok .sysReset := by
  decide

theorem test_decode_cb :
    decode { cw := 0b0001000000000000#16, d0 := [7#8] } = .ok (.cbExtend .txr [7#8]) ∧
      decode { cw := 0b0001000000000001#16, d0 := [7#8] } = .ok (.cbExtend .txf [7#8]) ∧
      decode { cw := 0b0001000000000010#16, d0 := [7#8] } = .ok (.cbExtend .rxf [7#8]) ∧
      decode { cw := 0b0001000000000011#16, d0 := [7#8] } = .ok (.cbExtend .rxr [7#8]) ∧
      decode { cw := 0b0001000100000000#16, a0 := 5#32 } = .ok (.cbAdvance .txr 5#32) ∧
      decode { cw := 0b0001000100000001#16, a0 := 5#32 } = .ok (.cbAdvance .txf 5#32) ∧
      decode { cw := 0b0001000100000010#16, a0 := 5#32 } = .ok (.cbAdvance .rxf 5#32) ∧
      decode { cw := 0b0001000100000011#16, a0 := 5#32 } = .ok (.cbAdvance .rxr 5#32) := by
  decide

theorem test_decode_cb2 :
    decode { cw := 0b0001001000000000#16 } = .ok (.cbCompact .txr) ∧
      decode { cw := 0b0001001000000001#16 } = .ok (.cbCompact .txf) ∧
      decode { cw := 0b0001001000000010#16 } = .ok (.cbCompact .rxf) ∧
      decode { cw := 0b0001001000000011#16 } = .ok (.cbCompact .rxr) ∧
      decode { cw := 0b0001001100000000#16 } = .ok (.cbStat .txr) ∧
      decode { cw := 0b0001001100000001#16 } = .ok (.cbStat .txf) ∧
      decode { cw := 0b0001001100000010#16 } = .ok (.cbStat .rxf) ∧
      decode { cw := 0b0001001100000011#16 } = .ok (.cbStat .rxr) ∧
      decode { cw := 0b0001010000000000#16, a1 := 6#32 } = .ok (.cbDrain .txr 6#32) ∧
      decode { cw := 0b0001010000000001#16, a1 := 6#32 } = .ok (.cbDrain .txf 6#32) ∧
      decode { cw := 0b0001010000000010#16, a1 := 6#32 } = .ok (.cbDrain .rxf 6#32) ∧
      decode { cw := 0b0001010000000011#16, a1 := 6#32 } = .ok (.cbDrain .rxr 6#32) := by
  decide

theorem test_decode_fr :
    decode { cw := 0b0010000000000000#16, a1 := 6#32, d0 := [7#8] } = .ok (.frEnc [7#8] 6#32) ∧
      decode { cw := 0b0010000100000000#16, a1 := 6#32, d0 := [7#8] } = .ok (.frDec [7#8] 6#32) ∧
      decode { cw := 0b0010001000000000#16, d0 := [7#8] } = .ok (.frWrite [7#8]) ∧
      decode { cw := 0b0010001100000000#16, a1 := 6#32 } = .ok (.frRead 6#32) := by
  decide

theorem test_decode_vi :
    decode { cw := 0b0011000000000000#16, a0 := 5#32 } = .ok (.viWu32 5#32) ∧
      decode { cw := 0b0011000100000000#16, a0 := 5#32 } = .ok (.viWi32 5#32) ∧
      decode { cw := 0b0011001000000000#16, a0 := 5#32 } = .ok (.viWu1 5#32) ∧
      decode { cw := 0b0011001100000000#16, a0 := 5#32 } = .ok (.viWu7 5#32) ∧
      decode { cw := 0b0011010000000000#16, a0 := 5#32 } = .ok (.viWi7 5#32) ∧
      decode { cw := 0b0011100000000000#16, a0 := 5#32 } = .ok (.viRu32) ∧
      decode { cw := 0b0011100100000000#16, a0 := 5#32 } = .ok (.viRi32) ∧
      decode { cw := 0b0011101000000000#16, a0 := 5#32 } = .ok (.viRu1) ∧
      decode { cw := 0b0011101100000000#16, a0 := 5#32 } = .ok (.viRu7) ∧
      decode { cw := 0b0011110000000000#16, a0 := 5#32 } = .ok (.viRi7) := by
  decide

theorem test_decode_tlv :
    decode { cw := 0b0100000000000000#16, a0 := 5#32, d0 := [7#8] } = .ok (.tlvW8 5#32 [7#8]) ∧
      decode { cw := 0b0100000100000000#16, a0 := 5#32, d0 := [7#8] } = .ok (.tlvW16 5#32 [7#8]) ∧
      decode { cw := 0b0100001000000000#16, a0 := 5#32, d0 := [7#8] } = .ok (.tlvW32 5#32 [7#8]) ∧
      decode { cw := 0b0100100000000000#16, a1 := 6#32 } = .ok (.tlvR8 6#32) ∧
      decode { cw := 0b0100100100000000#16, a1 := 6#32 } = .ok (.tlvR16 6#32) ∧
      decode { cw := 0b0100101000000000#16, a1 := 6#32 } = .ok (.tlvR32 6#32) := by
  decide

theorem test_decode_atlv :
    decode { cw := 0b0101000000000000#16, a0 := 5#32, d0 := [7#8], d1 := [8#8] } =
        .ok (.atlvW8 5#32 [7#8] [8#8]) ∧
      decode { cw := 0b0101000100000000#16, a0 := 5#32, d0 := [7#8], d1 := [8#8] } =
          .ok (.atlvW16 5#32 [7#8] [8#8]) ∧
      decode { cw := 0b0101001000000000#16, a0 := 5#32, d0 := [7#8], d1 := [8#8] } =
          .ok (.atlvW32 5#32 [7#8] [8#8]) ∧
      decode { cw := 0b0101100000000000#16, a1 := 6#32, a2 := 9#32 } = .ok (.atlvR8 6#32 9#32) ∧
      decode { cw := 0b0101100100000000#16, a1 := 6#32, a2 := 9#32 } = .ok (.atlvR16 6#32 9#32) ∧
      decode { cw := 0b0101101000000000#16, a1 := 6#32, a2 := 9#32 } = .ok (.atlvR32 6#32 9#32) := by
  decide

theorem test_decode_cp :
    decode { cw := 0b0110000000000000#16 } = .ok (.cpFinish) ∧
      decode { cw := 0b0110000100000000#16 } = .ok (.cpLoad) ∧
      decode { cw := 0b0110001000000000#16, a1 := 6#32 } = .ok (.cpRead 6#32) := by
  decide

theorem test_decode_message :
    decode { cw := 0b1000000100000000#16, a0 := 5#32, d0 := [7#8] } = .ok (.cpBoot [7#8]) ∧
      decode { cw := 0b1000001000000000#16, a0 := 5#32, d0 := [7#8] } = .ok (.cpRun [7#8]) ∧
      decode { cw := 0b1000001100000000#16, a0 := 5#32, d0 := [7#8] } = .ok (.cpExit 5#32) ∧
      decode { cw := 0b1000010000000000#16, a0 := 5#32, d0 := [7#8] } = .ok (.cpException [7#8]) ∧
      decode { cw := 0b1000010100000000#16, a0 := 5#32, d0 := [7#8] } = .ok (.cpPanic [7#8]) ∧
      decode { cw := 0b1001000000000000#16, a0 := 5#32, d0 := [7#8] } = .ok (.cpStdin [7#8]) ∧
      decode { cw := 0b1001000100000000#16, a0 := 5#32, d0 := [7#8] } = .ok (.cpStdout [7#8]) ∧
      decode { cw := 0b1001001000000000#16, a0 := 5#32, d0 := [7#8] } = .ok (.cpStderr [7#8]) ∧
      decode { cw := 0b1010000000000000#16, a0 := 5#32, d0 := [7#8] } = .ok (.cpError [7#8]) ∧
      decode { cw := 0b1010000100000000#16, a0 := 5#32, d0 := [7#8] } = .ok (.cpWarn [7#8]) ∧
      decode { cw := 0b1010001000000000#16, a0 := 5#32, d0 := [7#8] } = .ok (.cpInfo [7#8]) ∧
      decode { cw := 0b1010001100000000#16, a0 := 5#32, d0 := [7#8] } = .ok (.cpDebug [7#8]) ∧
      decode { cw := 0b1010010000000000#16, a0 := 5#32, d0 := [7#8] } = .ok (.cpTrace [7#8]) ∧
      decode { cw := 0b1011000000000000#16, a0 := 5#32, d0 := [7#8] } = .ok (.cpVal [7#8]) ∧
      decode { cw := 0b1011000100000000#16, a0 := 5#32, d0 := [7#8] } = .ok (.cpGet [7#8]) ∧
      decode { cw := 0b1011001000000000#16, a0 := 5#32, d0 := [7#8] } = .ok (.cpSet [7#8]) := by
  decide

/-- The illegal words of 95_test_vectors.md section 2.6, each with the reason the model names. -/
theorem test_decode_refuses :
    decode { cw := 0x0001#16 } = .error .selOutsideCb ∧
      decode { cw := 0x0100#16 } = .error .unassignedFunct ∧
      decode { cw := 0x1500#16 } = .error .unassignedFunct ∧
      decode { cw := 0x1004#16 } = .error .nonzeroZeroField ∧
      decode { cw := 0x1080#16 } = .error .nonzeroZeroField ∧
      decode { cw := 0x2400#16 } = .error .unassignedFunct ∧
      decode { cw := 0x2001#16 } = .error .selOutsideCb ∧
      decode { cw := 0x3500#16 } = .error .unassignedFunct ∧
      decode { cw := 0x3D00#16 } = .error .unassignedFunct ∧
      decode { cw := 0x4300#16 } = .error .unassignedFunct ∧
      decode { cw := 0x4B00#16 } = .error .unassignedFunct ∧
      decode { cw := 0x5300#16 } = .error .unassignedFunct ∧
      decode { cw := 0x5B00#16 } = .error .unassignedFunct ∧
      decode { cw := 0x6300#16 } = .error .unassignedFunct ∧
      decode { cw := 0x7000#16 } = .error .unassignedUnit ∧
      decode { cw := 0x8000#16 } = .error .tagOutsideVocabulary ∧
      decode { cw := 0x8600#16 } = .error .tagOutsideVocabulary ∧
      decode { cw := 0x9300#16 } = .error .tagOutsideVocabulary ∧
      decode { cw := 0xB300#16 } = .error .tagOutsideVocabulary ∧
      decode { cw := 0x8101#16 } = .error .nonzeroLowByte ∧
      decode { cw := 0xFF00#16 } = .error .tagOutsideVocabulary := by
  decide

theorem test_decodeTableWord :
    decodeTableWord 16 0x3C00 = some .viRi7 ∧ decodeTableWord 16 0x1403 = some (.cbDrain .rxr 0#32) ∧
      decodeTableWord 16 0x7000 = none ∧ decodeTableWord 16 0x10000 = none := by
  decide

/-- A word placed where the next step takes its command from runs as the first operation after reset. -/
theorem test_withFetchWord :
    step (State.reset.withFetchWord 16 0x1302) = exec (.cbStat .rxf) State.reset ∧
      step (State.reset.withFetchWord 16 0x7000) = execIllegal State.reset :=
  ⟨rfl, rfl⟩

/-! ## Single steps; the row of 95_test_vectors.md stands in each comment -/

/-- R200, the last step of P3: from any state. -/
theorem test_sysReset :
    cursorsAfter .sysReset (resyncing [0x11#8, 0x22#8]) =
        some ([(0, 0), (0, 0), (0, 0), (0, 0)], false) ∧
      answer .sysReset small = some { status := .ok } := by
  decide

/-- RXR after rows 3, 5, 9 and 12 of section 2.1. -/
def row3 : State := { small with rxr := bufAt 0 [0xA1#8, 0xA2#8, 0xA3#8, 0xA4#8, 0xA5#8] }

@[inherit_doc row3] def row5 : State := { small with rxr := bufAt 0 [0xA1#8, 0xA2#8, 0xA3#8, 0xA4#8, 0xA5#8,
    0xB1#8, 0xB2#8, 0xB3#8] }

@[inherit_doc row3] def row9 : State := { small with rxr := bufAt 3 [0xA4#8, 0xA5#8, 0xB1#8, 0xB2#8, 0xB3#8] }

@[inherit_doc row3] def row12 : State := { small with rxr := bufAt 8 [] }

/-- Section 2.1, rows 4, 5 and 11. -/
theorem test_cbExtend :
    outcome (.cbExtend .rxr [0xB1#8, 0xB2#8, 0xB3#8, 0xB4#8]) row3 =
        some (some { status := .bufferTooShort },
          [[], [], [], [0xA1#8, 0xA2#8, 0xA3#8, 0xA4#8, 0xA5#8]]) ∧
      outcome (.cbExtend .rxr [0xB1#8, 0xB2#8, 0xB3#8]) row3 =
        some (some { status := .ok, r0 := 3#32 },
          [[], [], [], [0xA1#8, 0xA2#8, 0xA3#8, 0xA4#8, 0xA5#8, 0xB1#8, 0xB2#8, 0xB3#8]]) ∧
      answer (.cbExtend .rxr [0xC1#8]) row9 = some { status := .bufferTooShort } := by
  decide

/-- Section 2.1, rows 7, 8 and 12. -/
theorem test_cbAdvance :
    answer (.cbAdvance .rxr 0#32) row5 = some { status := .ok } ∧
      answer (.cbAdvance .rxr 9#32) row5 = some { status := .sourceTooShort } ∧
      cursorsAfter (.cbAdvance .rxr 5#32) row9 = some ([(0, 0), (0, 0), (0, 0), (8, 8)], false) := by
  decide

/-- Section 2.1, rows 10 and 15. -/
theorem test_cbCompact :
    answer (.cbCompact .rxr) row9 = some { status := .ok } ∧
      answer (.cbCompact .rxr) row12 = some { status := .ok, r0 := 1#32 } ∧
      cursorsAfter (.cbCompact .rxr) row12 = some ([(0, 0), (0, 0), (0, 0), (0, 0)], false) := by
  decide

/-- Section 2.1, rows 1 and 14. -/
theorem test_cbStat :
    answer (.cbStat .rxr) small = some { status := .ok, r2 := 8#32 } ∧
      answer (.cbStat .rxr) row12 = some { status := .ok, r0 := 8#32, r1 := 8#32, r2 := 8#32 } := by
  decide

/-- Section 2.1, rows 9 and 13. -/
theorem test_cbDrain :
    outcome (.cbDrain .rxr 3#32) row5 =
        some (some { status := .ok, r0 := 3#32, q0 := [0xA1#8, 0xA2#8, 0xA3#8] },
          [[], [], [], [0xA4#8, 0xA5#8, 0xB1#8, 0xB2#8, 0xB3#8]]) ∧
      answer (.cbDrain .rxr 8#32) row12 = some { status := .ok } := by
  decide

/-- S2 and S3, and S3 with one byte less room. -/
theorem test_frEnc :
    answer (.frEnc [0x00#8] 2#32) small = some { status := .ok, r0 := 2#32, q0 := [0x01#8, 0x01#8] } ∧
      answer (.frEnc [0x11#8, 0x22#8, 0x00#8, 0x33#8] 5#32) small =
        some { status := .ok, r0 := 5#32, q0 := [0x03#8, 0x11#8, 0x22#8, 0x02#8, 0x33#8] } ∧
      answer (.frEnc [0x11#8, 0x22#8, 0x00#8, 0x33#8] 4#32) small = some { status := .bufferTooShort } := by
  decide

/-- D3, D6, D7, D8, D10 and D12. -/
theorem test_frDec :
    answer (.frDec [0x00#8] 10#32) small = some { status := .unexpectedNull } ∧
      answer (.frDec [0x03#8, 0x11#8, 0x00#8] 10#32) small = some { status := .unexpectedNull } ∧
      answer (.frDec [0x03#8, 0x11#8, 0x22#8, 0x02#8, 0x33#8] 4#32) small =
        some { status := .ok, r0 := 4#32, q0 := [0x11#8, 0x22#8, 0x00#8, 0x33#8] } ∧
      answer (.frDec [0x03#8, 0x11#8, 0x22#8, 0x02#8, 0x33#8] 3#32) small =
        some { status := .destTooShort } ∧
      answer (.frDec [0x05#8, 0x11#8, 0x00#8] 0#32) small = some { status := .sourceTooShort } ∧
      answer (.frDec [0x02#8, 0x00#8, 0x11#8] 0#32) small = some { status := .unexpectedNull } := by
  decide

/-- E12 to E14: 253, 254 and 255 literals. -/
theorem test_stuff_around_a_full_group :
    stuff (List.replicate 253 1#8) = 0xFE#8 :: List.replicate 253 1#8 ∧
      stuff (List.replicate 254 1#8) = 0xFF#8 :: List.replicate 254 1#8 ++ [1#8] ∧
      stuff (List.replicate 255 1#8) = 0xFF#8 :: List.replicate 254 1#8 ++ [2#8, 1#8] := by
  decide +kernel

/-- A full group with no final header, which decodes but which `E` never makes (R113), and a terminator. -/
def unmadeFrame : List Byte := 0xFF#8 :: (List.replicate 254 7#8 ++ [0#8])

/-- D17: a full group with no final header decodes. D19: no zero is inserted after a full group. -/
theorem test_unstuff_a_full_group :
    firstZero unmadeFrame = some 255 ∧
      cobsDec (unmadeFrame.take 255) 254 = .ok (List.replicate 254 7#8) ∧
      cobsDec (0xFF#8 :: (List.replicate 254 7#8 ++ [0x02#8, 0x09#8])) 255 =
        .ok (List.replicate 254 7#8 ++ [0x09#8]) := by
  decide +kernel

/-- Section 2.2, the single cases of FR.WRITE. -/
theorem test_frWrite :
    outcome (.frWrite [0x11#8, 0x22#8, 0x33#8, 0x44#8, 0x55#8, 0x66#8]) small =
        some (some { status := .ok, r0 := 8#32 },
          [[], [0x07#8, 0x11#8, 0x22#8, 0x33#8, 0x44#8, 0x55#8, 0x66#8, 0x00#8], [], []]) ∧
      answer (.frWrite [0x11#8, 0x22#8, 0x33#8, 0x44#8, 0x55#8, 0x66#8]) { small with txf := bufAt 0 [9#8] } =
        some { status := .bufferTooShort } := by
  decide

/-- P2's first frame; R115 (c). -/
theorem test_frRead :
    outcome (.frRead 4#32) (rxfHolds [0x03#8, 0x11#8, 0x22#8, 0x02#8, 0x33#8, 0x00#8, 0x01#8, 0x00#8]) =
        some (some { status := .ok, r0 := 4#32, q0 := [0x11#8, 0x22#8, 0x00#8, 0x33#8] },
          [[], [], [0x01#8, 0x00#8], []]) ∧
      answer (.frRead 3#32) (rxfHolds [0x03#8, 0x11#8, 0x22#8, 0x02#8, 0x33#8, 0x00#8, 0x01#8, 0x00#8]) =
        some { status := .destTooShort } := by
  decide

/-- R115: a full window without a terminator, then resynchronisation at the next zero. -/
theorem test_frRead_resync :
    cursorsAfter (.frRead 8#32) (rxfHolds [0x01#8, 0x02#8, 0x03#8, 0x04#8, 0x05#8, 0x06#8, 0x07#8, 0x08#8]) =
        some ([(0, 0), (0, 0), (8, 8), (0, 0)], true) ∧
      cursorsAfter (.frRead 8#32) (resyncing [0x05#8, 0x00#8, 0x01#8, 0x00#8]) =
        some ([(0, 0), (0, 0), (2, 4), (0, 0)], false) := by
  decide

/-- S5, and section 2.3, BufferTooShort. -/
theorem test_viWu32 :
    outcome (.viWu32 300#32) small =
        some (some { status := .ok, r0 := 2#32 }, [[0xAC#8, 0x02#8], [], [], []]) ∧
      answer (.viWu32 300#32) nearlyFull = some { status := .bufferTooShort } := by
  decide

/-- S6 and I28. -/
theorem test_viWi32 :
    outcome (.viWi32 0xFFFFFFFE#32) small =
        some (some { status := .ok, r0 := 1#32 }, [[0x7E#8], [], [], []]) ∧
      outcome (.viWi32 0x80000000#32) small =
        some (some { status := .ok, r0 := 5#32 },
          [[0x80#8, 0x80#8, 0x80#8, 0x80#8, 0x78#8], [], [], []]) := by
  decide

/-- N2 and N3. -/
theorem test_viWu1 :
    outcome (.viWu1 1#32) small =
        some (some { status := .ok, r0 := 1#32 }, [[0x01#8], [], [], []]) ∧
      answer (.viWu1 2#32) small = some { status := .outOfRange } := by
  decide

/-- N4 and N5. -/
theorem test_viWu7 :
    outcome (.viWu7 127#32) small =
        some (some { status := .ok, r0 := 1#32 }, [[0x7F#8], [], [], []]) ∧
      answer (.viWu7 128#32) small = some { status := .outOfRange } := by
  decide

/-- N7, N8 and N9. -/
theorem test_viWi7 :
    outcome (.viWi7 0xFFFFFFC0#32) small =
        some (some { status := .ok, r0 := 1#32 }, [[0x40#8], [], [], []]) ∧
      answer (.viWi7 64#32) small = some { status := .outOfRange } ∧
      answer (.viWi7 0xFFFFFFBF#32) small = some { status := .outOfRange } := by
  decide

/-- RU3, RU5, RU9, RU10 and RU13. -/
theorem test_viRu32 :
    answer (.viRu32) (rxrHolds [0x80#8, 0x80#8, 0x80#8, 0x80#8, 0x80#8]) =
        some { status := .incomplete } ∧
      answer (.viRu32) (rxrHolds [0xFF#8, 0xFF#8, 0xFF#8, 0xFF#8, 0x0F#8]) =
        some { status := .ok, r0 := 0xFFFFFFFF#32, r1 := 5#32 } ∧
      answer (.viRu32) (rxrHolds [0xFF#8, 0xFF#8, 0xFF#8, 0xFF#8, 0x10#8]) =
        some { status := .outOfRange } ∧
      answer (.viRu32) (rxrHolds [0x80#8, 0x80#8, 0x80#8, 0x80#8, 0x80#8, 0x00#8]) =
        some { status := .outOfRange } ∧
      outcome (.viRu32) (rxrHolds [0xAC#8, 0x02#8, 0x99#8]) =
        some (some { status := .ok, r0 := 0x12C#32, r1 := 2#32 }, [[], [], [], [0x99#8]]) := by
  decide

/-- RI3, RI11, RI13, RI16, RI17 and RI20. -/
theorem test_viRi32 :
    answer (.viRi32) (rxrHolds [0x7E#8]) = some { status := .ok, r0 := 0xFFFFFFFE#32, r1 := 1#32 } ∧
      answer (.viRi32) (rxrHolds [0x80#8, 0x80#8, 0x80#8, 0x80#8, 0x78#8]) =
        some { status := .ok, r0 := 0x80000000#32, r1 := 5#32 } ∧
      answer (.viRi32) (rxrHolds [0xFF#8, 0xFF#8, 0xFF#8, 0xFF#8, 0x7F#8]) =
        some { status := .ok, r0 := 0xFFFFFFFF#32, r1 := 5#32 } ∧
      answer (.viRi32) (rxrHolds [0x80#8, 0x80#8, 0x80#8, 0x80#8, 0x08#8]) =
        some { status := .outOfRange } ∧
      answer (.viRi32) (rxrHolds [0x80#8, 0x80#8, 0x80#8, 0x80#8, 0x70#8]) =
        some { status := .outOfRange } ∧
      answer (.viRi32) (rxrHolds [0xFF#8, 0xFF#8, 0xFF#8, 0xFF#8, 0xFF#8, 0x7F#8]) =
        some { status := .outOfRange } := by
  decide

/-- N12, N14 and N15. -/
theorem test_viRu1 :
    answer (.viRu1) (rxrHolds [0x01#8]) = some { status := .ok, r0 := 1#32, r1 := 1#32 } ∧
      answer (.viRu1) (rxrHolds [0x81#8]) = some { status := .outOfRange } ∧
      answer (.viRu1) (rxrHolds []) = some { status := .incomplete } := by
  decide

/-- N16 and N17. -/
theorem test_viRu7 :
    answer (.viRu7) (rxrHolds [0x7F#8]) = some { status := .ok, r0 := 0x7F#32, r1 := 1#32 } ∧
      answer (.viRu7) (rxrHolds [0x80#8, 0x01#8]) = some { status := .outOfRange } := by
  decide

/-- N19, N20 and N22. -/
theorem test_viRi7 :
    answer (.viRi7) (rxrHolds [0x3F#8]) = some { status := .ok, r0 := 0x3F#32, r1 := 1#32 } ∧
      answer (.viRi7) (rxrHolds [0x40#8]) = some { status := .ok, r0 := 0xFFFFFFC0#32, r1 := 1#32 } ∧
      answer (.viRi7) (rxrHolds [0x80#8]) = some { status := .outOfRange } := by
  decide

/-- W4 and W5. -/
theorem test_tlvW8 :
    outcome (.tlvW8 0xFFFFFFFF#32 [0x00#8]) roomy =
        some (some { status := .ok, r0 := 7#32 },
          [[0xFF#8, 0xFF#8, 0xFF#8, 0xFF#8, 0x0F#8, 0x01#8, 0x00#8], [], [], []]) ∧
      outcome (.tlvW8 0x80#32 [0x09#8]) roomy =
        some (some { status := .ok, r0 := 4#32 }, [[0x80#8, 0x01#8, 0x01#8, 0x09#8], [], [], []]) := by
  decide

/-- W6. -/
theorem test_tlvW16 :
    outcome (.tlvW16 0x12C#32 [0xAA#8, 0xBB#8, 0xCC#8]) roomy =
        some (some { status := .ok, r0 := 7#32 },
          [[0xAC#8, 0x02#8, 0x00#8, 0x03#8, 0xAA#8, 0xBB#8, 0xCC#8], [], [], []]) := by
  decide

/-- W9. -/
theorem test_tlvW32 :
    outcome (.tlvW32 0x24#32 [0xDE#8, 0xAD#8]) roomy =
        some (some { status := .ok, r0 := 7#32 },
          [[0x24#8, 0x00#8, 0x00#8, 0x00#8, 0x02#8, 0xDE#8, 0xAD#8], [], [], []]) := by
  decide

/-- Section 2.4, length limits: a 256-byte value is out of range of an 8-bit length whatever the space, and a
256-byte address too. -/
theorem test_length_limits :
    answer (.tlvW8 1#32 (List.replicate 256 0x41#8)) small = some { status := .outOfRange } ∧
      answer (.atlvW8 1#32 [] (List.replicate 256 0x41#8)) small = some { status := .outOfRange } ∧
      lenField .w16 256 = [0x01#8, 0x00#8] := by
  decide +kernel

/-- T5, T7, T8 and T10. -/
theorem test_tlvR8 :
    outcome (.tlvR8 9#32) (rxrHolds [0x01#8, 0x02#8, 0xAA#8, 0xBB#8, 0xCC#8]) =
        some (some { status := .ok, r0 := 1#32, r1 := 2#32, r2 := 4#32, q0 := [0xAA#8, 0xBB#8] },
          [[], [], [], [0xCC#8]]) ∧
      answer (.tlvR8 1#32) (rxrHolds [0x01#8, 0x05#8, 0xAA#8]) = some { status := .destTooShort } ∧
      answer (.tlvR8 5#32) (rxrHolds [0x01#8, 0x05#8, 0xAA#8]) = some { status := .incomplete } ∧
      answer (.tlvR8 9#32) (rxrHolds [0xFF#8, 0xFF#8, 0xFF#8, 0xFF#8, 0x1F#8, 0x00#8]) =
        some { status := .outOfRange } := by
  decide

/-- T14, T15 and T16. -/
theorem test_tlvR16 :
    answer (.tlvR16 9#32) (rxrHolds [0xAC#8, 0x02#8, 0x00#8, 0x03#8, 0xAA#8, 0xBB#8, 0xCC#8]) =
        some { status := .ok, r0 := 0x12C#32, r1 := 3#32, r2 := 7#32, q0 := [0xAA#8, 0xBB#8, 0xCC#8] } ∧
      answer (.tlvR16 300#32) (rxrHolds [0xAC#8, 0x02#8, 0x01#8, 0x00#8, 0xAA#8]) =
        some { status := .incomplete } ∧
      answer (.tlvR16 255#32) (rxrHolds [0xAC#8, 0x02#8, 0x01#8, 0x00#8, 0xAA#8]) =
        some { status := .destTooShort } := by
  decide

/-- T19, T20 and T21. -/
theorem test_tlvR32 :
    answer (.tlvR32 2#32) (rxrHolds [0x24#8, 0x00#8, 0x00#8, 0x00#8, 0x02#8, 0xDE#8, 0xAD#8]) =
        some { status := .ok, r0 := 0x24#32, r1 := 2#32, r2 := 7#32, q0 := [0xDE#8, 0xAD#8] } ∧
      answer (.tlvR32 4294967295#32) (rxrHolds [0x24#8, 0xFF#8, 0xFF#8, 0xFF#8, 0xFF#8]) =
        some { status := .incomplete } ∧
      answer (.tlvR32 64#32) (rxrHolds [0x24#8, 0xFF#8, 0xFF#8, 0xFF#8, 0xFF#8]) =
        some { status := .destTooShort } := by
  decide

/-- W10. -/
theorem test_atlvW8 :
    outcome (.atlvW8 0x31#32 [0x6B#8] [0x0A#8, 0x0B#8]) roomy =
        some (some { status := .ok, r0 := 6#32 },
          [[0x02#8, 0x0A#8, 0x0B#8, 0x31#8, 0x01#8, 0x6B#8], [], [], []]) := by
  decide

/-- W12. -/
theorem test_atlvW16 :
    outcome (.atlvW16 0x80#32 [0x00#8, 0xFF#8] [0x01#8]) roomy =
        some (some { status := .ok, r0 := 9#32 },
          [[0x00#8, 0x01#8, 0x01#8, 0x80#8, 0x01#8, 0x00#8, 0x02#8, 0x00#8, 0xFF#8], [], [], []]) := by
  decide

/-- W13. -/
theorem test_atlvW32 :
    outcome (.atlvW32 2#32 [0x07#8] []) roomy =
        some (some { status := .ok, r0 := 0xA#32 },
          [[0x00#8, 0x00#8, 0x00#8, 0x00#8, 0x02#8, 0x00#8, 0x00#8, 0x00#8, 0x01#8, 0x07#8], [], [], []]) := by
  decide

/-- A5 to A8 and A10. -/
theorem test_atlvR8 :
    answer (.atlvR8 9#32 9#32) (rxrHolds [0x02#8, 0x0A#8, 0x0B#8, 0x31#8, 0x01#8, 0x6B#8]) =
        some { status := .ok, r0 := 0x31#32, r1 := 1#32, r2 := 2#32, q0 := [0x6B#8], q1 := [0x0A#8, 0x0B#8] } ∧
      answer (.atlvR8 9#32 1#32) (rxrHolds [0x02#8, 0x0A#8, 0x0B#8, 0x31#8, 0x01#8, 0x6B#8]) =
        some { status := .destTooShort } ∧
      answer (.atlvR8 0#32 9#32) (rxrHolds [0x02#8, 0x0A#8, 0x0B#8, 0x31#8, 0x01#8, 0x6B#8]) =
        some { status := .destTooShort } ∧
      answer (.atlvR8 9#32 1#32) (rxrHolds [0x02#8, 0x0A#8]) = some { status := .destTooShort } ∧
      answer (.atlvR8 9#32 9#32) (rxrHolds [0x01#8, 0xEE#8, 0xFF#8, 0xFF#8, 0xFF#8, 0xFF#8, 0x10#8, 0x00#8]) =
        some { status := .outOfRange } := by
  decide

/-- A11 and A12. -/
theorem test_atlvR16 :
    answer (.atlvR16 9#32 9#32) (rxrHolds [0x00#8]) = some { status := .incomplete } ∧
      answer (.atlvR16 9#32 9#32) (rxrHolds [0x00#8, 0x01#8, 0x01#8, 0x80#8, 0x01#8, 0x00#8, 0x02#8, 0x00#8,
          0xFF#8]) =
        some { status := .ok, r0 := 0x80#32, r1 := 2#32, r2 := 1#32, q0 := [0x00#8,
            0xFF#8], q1 := [0x01#8] } := by
  decide

/-- A13. -/
theorem test_atlvR32 :
    answer (.atlvR32 9#32 9#32) (rxrHolds [0x00#8, 0x00#8, 0x00#8, 0x00#8, 0x02#8, 0x00#8, 0x00#8, 0x00#8,
        0x01#8, 0x07#8]) =
        some { status := .ok, r0 := 2#32, r1 := 1#32, q0 := [0x07#8] } := by
  decide

/-- M1 to M4. -/
theorem test_messages_1 :
    outcome (.cpBoot [0x61#8, 0x62#8]) small =
        some (some { status := .ok, r0 := 4#32 }, [[0x01#8, 0x02#8, 0x61#8, 0x62#8], [], [], []]) ∧
      outcome (.cpRun [0x61#8, 0x62#8]) small =
        some (some { status := .ok, r0 := 4#32 }, [[0x02#8, 0x02#8, 0x61#8, 0x62#8], [], [], []]) ∧
      outcome (.cpExit 0x62#32) small =
        some (some { status := .ok, r0 := 3#32 }, [[0x03#8, 0x01#8, 0x62#8], [], [], []]) ∧
      outcome (.cpException [0x61#8, 0x62#8]) small =
        some (some { status := .ok, r0 := 4#32 }, [[0x04#8, 0x02#8, 0x61#8, 0x62#8], [], [], []]) := by
  decide

/-- M5 to M8. -/
theorem test_messages_2 :
    outcome (.cpPanic [0x61#8, 0x62#8]) small =
        some (some { status := .ok, r0 := 4#32 }, [[0x05#8, 0x02#8, 0x61#8, 0x62#8], [], [], []]) ∧
      outcome (.cpStdin [0x61#8, 0x62#8]) small =
        some (some { status := .ok, r0 := 4#32 }, [[0x10#8, 0x02#8, 0x61#8, 0x62#8], [], [], []]) ∧
      outcome (.cpStdout [0x61#8, 0x62#8]) small =
        some (some { status := .ok, r0 := 4#32 }, [[0x11#8, 0x02#8, 0x61#8, 0x62#8], [], [], []]) ∧
      outcome (.cpStderr [0x61#8, 0x62#8]) small =
        some (some { status := .ok, r0 := 4#32 }, [[0x12#8, 0x02#8, 0x61#8, 0x62#8], [], [], []]) := by
  decide

/-- M9 to M12. -/
theorem test_messages_3 :
    outcome (.cpError [0x61#8, 0x62#8]) small =
        some (some { status := .ok, r0 := 4#32 }, [[0x20#8, 0x02#8, 0x61#8, 0x62#8], [], [], []]) ∧
      outcome (.cpWarn [0x61#8, 0x62#8]) small =
        some (some { status := .ok, r0 := 4#32 }, [[0x21#8, 0x02#8, 0x61#8, 0x62#8], [], [], []]) ∧
      outcome (.cpInfo [0x61#8, 0x62#8]) small =
        some (some { status := .ok, r0 := 4#32 }, [[0x22#8, 0x02#8, 0x61#8, 0x62#8], [], [], []]) ∧
      outcome (.cpDebug [0x61#8, 0x62#8]) small =
        some (some { status := .ok, r0 := 4#32 }, [[0x23#8, 0x02#8, 0x61#8, 0x62#8], [], [], []]) := by
  decide

/-- M13 to M16. -/
theorem test_messages_4 :
    outcome (.cpTrace [0x61#8, 0x62#8]) small =
        some (some { status := .ok, r0 := 4#32 }, [[0x24#8, 0x02#8, 0x61#8, 0x62#8], [], [], []]) ∧
      outcome (.cpVal [0x61#8, 0x62#8]) small =
        some (some { status := .ok, r0 := 4#32 }, [[0x30#8, 0x02#8, 0x61#8, 0x62#8], [], [], []]) ∧
      outcome (.cpGet [0x61#8, 0x62#8]) small =
        some (some { status := .ok, r0 := 4#32 }, [[0x31#8, 0x02#8, 0x61#8, 0x62#8], [], [], []]) ∧
      outcome (.cpSet [0x61#8, 0x62#8]) small =
        some (some { status := .ok, r0 := 4#32 }, [[0x32#8, 0x02#8, 0x61#8, 0x62#8], [], [], []]) := by
  decide

/-- Section 2.5, writer corner cases. -/
theorem test_cpExit_range :
    answer (.cpExit 0x100#32) small = some { status := .outOfRange } ∧
      outcome (.cpExit 0#32) small =
        some (some { status := .ok, r0 := 3#32 }, [[0x03#8, 0x01#8, 0x00#8], [], [], []]) := by
  decide

/-- R189: an empty TXR, and records that hold a zero. -/
theorem test_cpFinish :
    outcome (.cpFinish) small =
        some (some { status := .ok, r0 := 2#32 }, [[], [0x01#8, 0x00#8], [], []]) ∧
      outcome (.cpFinish) { small with txr := bufAt 0 [0x03#8, 0x01#8, 0x00#8] } =
        some (some { status := .ok, r0 := 5#32 },
          [[], [0x03#8, 0x03#8, 0x01#8, 0x01#8, 0x00#8], [], []]) := by
  decide

/-- Section 2.5, single cases of CP.LOAD; R190 for a frame that does not decode. -/
theorem test_cpLoad :
    outcome (.cpLoad) (rxfHolds [0x01#8, 0x00#8]) =
        some (some { status := .ok }, [[], [], [], []]) ∧
      outcome (.cpLoad) (rxfHolds [0x00#8]) =
        some (some { status := .ok }, [[], [], [], []]) ∧
      outcome (.cpLoad) { rxfHolds [0x05#8, 0x11#8, 0x00#8] with rxr := bufAt 0 [9#8] } =
        some (some { status := .sourceTooShort }, [[], [], [], []]) := by
  decide

/-- R3, R4, R5, R7, R9, R11 and R13. -/
theorem test_cpRead :
    answer (.cpRead 8#32) (rxrHolds [0x03#8, 0x01#8, 0x00#8]) =
        some { status := .ok, r0 := 3#32, r1 := 1#32, r2 := 3#32, q0 := [0x00#8] } ∧
      answer (.cpRead 8#32) (rxrHolds [0x03#8, 0x00#8]) =
        some { status := .invalidEncoding, r0 := 3#32, r2 := 2#32 } ∧
      answer (.cpRead 8#32) (rxrHolds [0x03#8, 0x02#8, 0x01#8, 0x02#8]) =
        some { status := .invalidEncoding, r0 := 3#32, r1 := 2#32, r2 := 4#32, q0 := [0x01#8, 0x02#8] } ∧
      answer (.cpRead 8#32) (rxrHolds [0x06#8, 0x01#8, 0xAA#8]) =
        some { status := .unknownTag, r0 := 6#32, r1 := 1#32, r2 := 3#32, q0 := [0xAA#8] } ∧
      answer (.cpRead 8#32) (rxrHolds [0x81#8, 0x00#8, 0x00#8]) =
        some { status := .ok, r0 := 1#32, r2 := 3#32 } ∧
      answer (.cpRead 8#32) (rxrHolds [0x32#8, 0x09#8, 0x01#8]) = some { status := .destTooShort } ∧
      answer (.cpRead 8#32) (rxrHolds [0xFF#8, 0xFF#8, 0xFF#8, 0xFF#8, 0x7F#8, 0x00#8]) =
        some { status := .outOfRange } := by
  decide

/-- Lines in the syntax of R96. -/
theorem test_asmLine :
    asmLine (.viWi32 0xFFFFFFFE#32) = "VI.WI32 value=-2" ∧
      asmLine (.cbExtend .rxr [0xA1#8, 0x02#8]) = "CB.EXTEND RXR, bytes=h\"A1 02\"" ∧
      asmLine .sysReset = "SYS.RESET" := by
  decide

/-! ## Witnesses: for each statement with hypotheses, data that meet them, clause by clause -/
/-- A state with every field away from its reset value. -/
def busy : State where
  txr := bufAt 1 [0x01#8, 0x00#8]
  txf := bufAt 2 [0x03#8]
  rxf := bufAt 1 [0x02#8, 0x07#8, 0x00#8]
  rxr := bufAt 1 [0x11#8, 0x01#8, 0x61#8]
  resync := false
  caps := ⟨8, 9, 10, 11⟩
  pending := []
  responses := [{ status := .incomplete }]

theorem busy_inv : busy.Inv := by decide

/-! ### Decoding and stepping -/

theorem witness_EncodeDecodeAgree :
    decode { cw := 0x5800#16, a0 := 1#32, a1 := 2#32, a2 := 3#32, d0 := [4#8] } =
      .ok (.atlvR8 2#32 3#32) := by
  decide

theorem witness_LegalCommandWords :
    (busy.present { cw := 0xB300#16 }).cursorsInBounds = true ∧
      (busy.present { cw := 0xB300#16 }).pending = .command { cw := 0xB300#16 } :: [] ∧
      (0xB300#16).toNat ∉ legalWords := by
  decide

theorem witness_UnusedOperandsCannotMatter :
    decode { cw := 0x6200#16, a0 := 9#32, a1 := 4#32 } = .ok (.cpRead 4#32) ∧
      ({ cw := 0x6200#16, a1 := 4#32, d0 := [1#8] } : Command).cw = 0x6200#16 ∧
      ({ cw := 0x6200#16, a1 := 4#32, d0 := [1#8] } : Command).a1 = 4#32 ∧
      usesA0 (.cpRead 4#32) = false ∧ usesA2 (.cpRead 4#32) = false ∧
      usesD0 (.cpRead 4#32) = false ∧ usesD1 (.cpRead 4#32) = false := by
  decide

theorem witness_StepRunsDecodedInstruction :
    (busy.present { cw := 0x1103#16, a0 := 3#32 }).cursorsInBounds = true ∧
      (busy.present { cw := 0x1103#16, a0 := 3#32 }).pending =
        .command { cw := 0x1103#16, a0 := 3#32 } :: [] ∧
      decode { cw := 0x1103#16, a0 := 3#32 } = .ok (.cbAdvance .rxr 3#32) ∧
      (Instr.cbAdvance .rxr 3#32).wellFormed = true := by
  decide

theorem witness_StepResetsOnTheResetInput :
    busy.pullReset.cursorsInBounds = true ∧ busy.pullReset.pending = .reset :: [] ∧
      busy.cursorsInBounds = true ∧ busy.pending = [] := by
  decide

/-- Both clauses: a good state, and one that `step` refuses (`test_step_refuses_a_long_operand`). -/
theorem witness_GoodStatesNeverFault :
    busy.Inv ∧ (small.present { cw := 0x1000#16, d0 := long }).Inv ∧
      step (small.present { cw := 0x1000#16, d0 := long }) = .refused .operandTooLong :=
  ⟨busy_inv, (by decide : small.Inv), test_step_refuses_a_long_operand⟩

theorem witness_ResetStateValues :
    busy.pullReset.cursorsInBounds = true ∧ busy.pullReset.pending = .reset :: [] := by
  decide

theorem witness_StepKeepsInvariant :
    (busy.present { cw := 0x6100#16 }).Inv ∧ ∃ t, step (busy.present { cw := 0x6100#16 }) = .next t :=
  ⟨by decide, _, rfl⟩

/-! ### What every operation leaves -/

/-- An operation answers `r` and leaves a state of which `p` holds. -/
abbrev Leaves (i : Instr) (s : State) (r : Response) (p : State → Prop) : Prop :=
  ∃ t, exec i s = .next t ∧ t.responses = s.responses ++ [r] ∧ p t

/-- An ordinary failure, and each of the five that move something. -/
theorem witness_FailuresLeaveOnlyListedChanges :
    (Leaves .viRu32 small { status := .incomplete } fun _ => failureMoves .viRu32 .incomplete = false) ∧
      (Leaves (.frRead 0#32) busy { status := .destTooShort } fun t => t.rxf.head = 4) ∧
      (Leaves (.frRead 9#32) (rxfHolds [5#8, 0#8]) { status := .sourceTooShort } fun t => t.rxf.head = 2) ∧
      (Leaves (.frRead 9#32) (resyncing [5#8, 0#8]) { status := .missingTerminator } fun t =>
        t.rxf.head = 2 ∧ t.resync = false) ∧
      (Leaves .cpLoad (rxfHolds [5#8, 0#8]) { status := .sourceTooShort } fun t => t.rxr.tail = 0) ∧
      (Leaves .cpLoad (resyncing [5#8]) { status := .missingTerminator } fun t =>
        t.rxf.head = 1 ∧ t.resync = true) ∧
      (Leaves (.cpRead 9#32) (rxrHolds [6#8, 0#8]) { status := .unknownTag, r0 := 6#32, r2 := 2#32 }
        fun t => t.rxr.head = 2) ∧
      Leaves (.cpRead 9#32) (rxrHolds [3#8, 0#8]) { status := .invalidEncoding, r0 := 3#32, r2 := 2#32 }
        fun t => t.rxr.head = 2 :=
  ⟨⟨_, rfl, rfl, rfl⟩, ⟨_, rfl, rfl, rfl⟩, ⟨_, rfl, rfl, rfl⟩, ⟨_, rfl, rfl, rfl, rfl⟩, ⟨_, rfl, rfl, rfl⟩,
    ⟨_, rfl, rfl, rfl, rfl⟩, ⟨_, rfl, rfl, rfl⟩, ⟨_, rfl, rfl, rfl⟩⟩

/-- Both disjuncts. -/
theorem witness_FailuresHaveDefaultResults :
    (Leaves (.cbAdvance .rxr 9#32) small { status := .sourceTooShort } fun _ => True) ∧
      Leaves (.cpRead 9#32) (rxrHolds [6#8, 0#8]) { status := .unknownTag, r0 := 6#32, r2 := 2#32 }
        fun _ => True :=
  ⟨⟨_, rfl, rfl, trivial⟩, ⟨_, rfl, rfl, trivial⟩⟩

/-- A read with both destinations exactly filled, and an operation with none. -/
theorem witness_DeliveredStringsFitTheHost :
    (Leaves (.atlvR8 1#32 2#32) (rxrHolds [2#8, 10#8, 11#8, 0x31#8, 1#8, 0x6B#8])
        { status := .ok, r0 := 0x31#32, r1 := 1#32, r2 := 2#32, q0 := [0x6B#8], q1 := [10#8, 11#8] }
        fun _ => dcapOf (.atlvR8 1#32 2#32) = some 1#32 ∧ acapOf (.atlvR8 1#32 2#32) = some 2#32) ∧
      Leaves .viRu1 (rxrHolds [1#8]) { status := .ok, r0 := 1#32, r1 := 1#32 }
        fun _ => dcapOf .viRu1 = none ∧ acapOf .viRu1 = none :=
  ⟨⟨_, rfl, rfl, rfl, rfl⟩, ⟨_, rfl, rfl, rfl, rfl⟩⟩

theorem witness_OnlyListedStatusesAreRaised :
    (Instr.frDec [0#8] 1#32).wellFormed = true ∧
      Leaves (.frDec [0#8] 1#32) small { status := .unexpectedNull } fun _ => True :=
  ⟨by decide, _, rfl, rfl, trivial⟩

/-- A cursor the operation may not write, one it may write forward only, and one it may set back. -/
theorem witness_CursorsMoveOnlyAsListed :
    busy.Inv ∧ (∃ t, exec .cpLoad busy = .next t) ∧ mayWriteHead .cpLoad .txr = false ∧
      mayWriteTail .cpLoad .rxf = false ∧ mayMoveBack .cpLoad .rxf = false ∧
      mayMoveBack .cpLoad .rxr = true :=
  ⟨busy_inv, ⟨_, rfl⟩, rfl, rfl, rfl, rfl⟩

theorem witness_WindowsChangeOnlyAtTheirEnds :
    busy.Inv ∧ (∃ t, exec .cpLoad busy = .next t) ∧ ¬(Instr.cpLoad = .cpLoad ∧ BufId.rxf = .rxr) :=
  ⟨busy_inv, ⟨_, rfl⟩, by decide⟩

theorem witness_ResyncMovesOnlyAsListed :
    (rxfHolds [1#8, 2#8, 3#8, 4#8, 5#8, 6#8, 7#8, 8#8]).resync = false ∧
      (∃ t, exec (.frRead 1#32) (rxfHolds [1#8, 2#8, 3#8, 4#8, 5#8, 6#8, 7#8, 8#8]) = .next t ∧
        t.resync = true) ∧
      (resyncing [1#8, 0#8]).resync = true ∧
      (∃ t, exec .cpLoad (resyncing [1#8, 0#8]) = .next t ∧ t.resync = false) ∧
      ∃ t, exec .sysReset (resyncing [1#8]) = .next t ∧ t.resync = false :=
  ⟨rfl, ⟨_, rfl, rfl⟩, rfl, ⟨_, rfl, rfl⟩, ⟨_, rfl, rfl⟩⟩

/-! ### The codecs -/

/-- A destination of exactly the length, and one byte less. -/
theorem witness_UnstuffInvertsStuff :
    [0x11#8, 0x00#8].length ≤ 2 ∧ 1 < [0x11#8, 0x00#8].length := by
  decide

/-- The premise of the last clause: a string without a zero. -/
theorem witness_StuffedLengthIsExact : ∀ b ∈ List.replicate 254 (1#8), b ≠ 0#8 := by
  intro b hb
  rw [List.eq_of_mem_replicate hb]
  decide

theorem witness_UnstuffFailsOnlyWhenItDoesNotFit :
    cobsDec [0x02#8, 0x11#8, 0x01#8] 2 = .ok [0x11#8, 0x00#8] ∧
      [0x02#8, 0x11#8, 0x01#8].length - 1 ≤ 2 := by
  decide

theorem witness_UnsignedVarintRoundTrip : 4294967295 < 2 ^ 32 ∧ 4294967295 ≠ 0 := by
  decide

theorem witness_SignedVarintRoundTrip :
    (-2 ^ 31 : Int) ≤ -2147483648 ∧ (-2147483648 : Int) < 2 ^ 31 ∧ (-2 ^ 31 : Int) ≤ 2147483647 ∧
      (2147483647 : Int) < 2 ^ 31 := by
  decide

/-- The lengths where the ranges meet (U3, U4, U10, U11, I5, I6, I7, I8, I25, I26). -/
theorem witness_VarintLengthsByRange :
    ([127, 128, 268435455, 268435456, 4294967295].map fun v => (lebU v).length) = [1, 2, 4, 5, 5] ∧
      ([63, 64, -64, -65, -134217728, -134217729].map fun v => (lebS v).length) = [1, 2, 1, 2, 4, 5] := by
  decide

/-- Each clause: six bytes, at most four, and five with the last byte at each bound. -/
theorem witness_VarintRangeChecks :
    varintLen [0x80#8, 0x80#8, 0x80#8, 0x80#8, 0x80#8, 0x00#8] = some 6 ∧
      varintLen [0x80#8, 0x80#8, 0x80#8, 0x7F#8] = some 4 ∧
      varintLen [0x80#8, 0x80#8, 0x80#8, 0x80#8, 0x0F#8] = some 5 ∧
      varintLen [0x80#8, 0x80#8, 0x80#8, 0x80#8, 0x10#8] = some 5 ∧
      varintLen [0x80#8, 0x80#8, 0x80#8, 0x80#8, 0x07#8] = some 5 ∧
      varintLen [0x80#8, 0x80#8, 0x80#8, 0x80#8, 0x08#8] = some 5 ∧
      varintLen [0x80#8, 0x80#8, 0x80#8, 0x80#8, 0x77#8] = some 5 ∧
      varintLen [0x80#8, 0x80#8, 0x80#8, 0x80#8, 0x78#8] = some 5 ∧
      decU32 [0x80#8, 0x80#8, 0x80#8, 0x80#8, 0x0F#8] = .ok (4026531840, 5) ∧
      decI32 [0x80#8, 0x80#8, 0x80#8, 0x80#8, 0x78#8] = .ok (-2147483648, 5) := by
  decide

/-- A run longer than any varint; an empty and a long run after an address that just fits. -/
theorem witness_ContinuationRunsStayIncomplete :
    (∀ b ∈ window (rxrHolds [0x80#8, 0x80#8, 0x80#8, 0x80#8, 0x80#8, 0x80#8, 0xFF#8]).rxr,
      topBit b = true) ∧
      window (rxrHolds [2#8, 10#8, 11#8, 0x80#8, 0x80#8, 0x80#8, 0x80#8, 0x80#8, 0xFF#8]).rxr =
        lenField .w8 [10#8, 11#8].length ++ [10#8, 11#8] ++
          [0x80#8, 0x80#8, 0x80#8, 0x80#8, 0x80#8, 0xFF#8] ∧
      [10#8, 11#8].length ≤ maxLen .w8 ∧ [10#8, 11#8].length ≤ (2#32).toNat ∧
      (∀ b ∈ [0x80#8, 0x80#8, 0x80#8, 0x80#8, 0x80#8, 0xFF#8], topBit b = true) ∧
      window (rxrHolds [0#8]).rxr = lenField .w8 ([] : List Byte).length ++ [] ++ [] := by
  decide

/-- W6, with a destination that fits and one that does not. -/
theorem witness_TlvParseInvertsEncode :
    0x12C < 2 ^ 32 ∧
      tlvEnc .w16 0x12C [0xAA#8, 0xBB#8, 0xCC#8] =
        .ok [0xAC#8, 0x02#8, 0x00#8, 0x03#8, 0xAA#8, 0xBB#8, 0xCC#8] ∧
      [0xAA#8, 0xBB#8, 0xCC#8].length ≤ 3 ∧ ¬[0xAA#8, 0xBB#8, 0xCC#8].length ≤ 2 := by
  decide

/-- W10. -/
theorem witness_AtlvParseInvertsEncode :
    0x31 < 2 ^ 32 ∧
      atlvEnc .w8 [0x0A#8, 0x0B#8] 0x31 [0x6B#8] =
        .ok [0x02#8, 0x0A#8, 0x0B#8, 0x31#8, 0x01#8, 0x6B#8] := by
  decide

/-- W2 and W10, cut before their last byte. -/
theorem witness_TruncatedRecordsStayIncomplete :
    3 < 2 ^ 32 ∧ tlvEnc .w8 3 [0x55#8] = .ok [0x03#8, 0x01#8, 0x55#8] ∧ [0x55#8].length ≤ 1 ∧
      2 < [0x03#8, 0x01#8, 0x55#8].length ∧
      atlvEnc .w8 [0x0A#8, 0x0B#8] 0x31 [0x6B#8] =
        .ok [0x02#8, 0x0A#8, 0x0B#8, 0x31#8, 0x01#8, 0x6B#8] ∧
      [0x6B#8].length ≤ 1 ∧ [0x0A#8, 0x0B#8].length ≤ 2 ∧
      5 < [0x02#8, 0x0A#8, 0x0B#8, 0x31#8, 0x01#8, 0x6B#8].length := by
  decide

/-- T7 and A8, and the largest length. -/
theorem witness_TooLongValueIsReportedAtItsLength :
    1 < 2 ^ 32 ∧ 5 ≤ maxLen .w8 ∧ 1 < 5 ∧ 255 ≤ maxLen .w8 ∧ 254 < 255 ∧ 2 ≤ maxLen .w8 ∧ 1 < 2 := by
  decide

theorem witness_VocabularyIsClosed :
    kindOfTag 0x32 = some .set ∧ kindOfTag 6 = none ∧ kindOfTag 3 ≠ none := by
  decide

/-! ### The results, clause by clause at the boundary -/

theorem witness_CbExtendResult :
    row3.Inv ∧ [1#8, 2#8, 3#8].length ≤ row3.space .rxr ∧
      row3.space .rxr < [1#8, 2#8, 3#8, 4#8].length := by
  decide

theorem witness_CbAdvanceResult :
    row9.Inv ∧ (5#32).toNat ≤ remaining (row9.buf .rxr) ∧ remaining (row9.buf .rxr) < (6#32).toNat := by
  decide

theorem witness_CbCompactResult :
    (row12.buf .rxr).head = (row12.buf .rxr).tail ∧ (row9.buf .rxr).head ≠ (row9.buf .rxr).tail := by
  decide

theorem witness_CbStatResult : row9.Inv := by decide

theorem witness_CbDrainResult : row9.Inv ∧ row12.Inv := by decide

/-- S3 with a destination of exactly its length, and one byte less. -/
theorem witness_FrEncResult :
    (stuff [0x11#8, 0x22#8, 0x00#8, 0x33#8]).length ≤ (5#32).toNat ∧
      (4#32).toNat < (stuff [0x11#8, 0x22#8, 0x00#8, 0x33#8]).length := by
  decide

/-- D7 and D12; a header that claims one byte more than remains; groups whose first zero literal is at the edge
of the room and past it, that are last or do not fit, and a full one (D19). -/
theorem witness_FrDecResult :
    (cobsDec [0x03#8, 0x11#8, 0x22#8, 0x02#8, 0x33#8] (4#32).toNat =
        .ok [0x11#8, 0x22#8, 0x00#8, 0x33#8] ∧
      cobsDec [0x02#8, 0x00#8, 0x11#8] (0#32).toNat = .error .unexpectedNull ∧
      [0x11#8].length + 1 < (0x03#8).toNat) ∧
      ([0x11#8, 0x00#8].length + 1 = (0x03#8).toNat ∧ firstZero [0x11#8, 0x00#8] = some 1 ∧
        cobsDec [0x03#8, 0x11#8, 0x00#8] 1 = .error .unexpectedNull ∧
        cobsDec [0x03#8, 0x11#8, 0x00#8] 0 = .error .destTooShort) ∧
      ([0x11#8, 0x22#8].length + 1 = (0x03#8).toNat ∧ firstZero [0x11#8, 0x22#8] = none ∧
        cobsDec [0x03#8, 0x11#8, 0x22#8] 2 = .ok [0x11#8, 0x22#8] ∧
        cobsDec [0x03#8, 0x11#8, 0x22#8] 1 = .error .destTooShort ∧
        cobsDec [0x03#8, 0x11#8, 0x22#8, 0x01#8] 2 = .error .destTooShort) ∧
      (List.replicate 254 (7#8)).length + 1 = (0xFF#8).toNat ∧
      cobsDec (0xFF#8 :: (List.replicate 254 7#8 ++ [0x02#8, 0x09#8])) 255 =
        .ok (List.replicate 254 7#8 ++ [0x09#8]) :=
  ⟨by decide, by decide, by decide, by rw [List.length_replicate]; decide,
    test_unstuff_a_full_group.2.2⟩

/-- TXF with 8 bytes free and with 7. -/
theorem witness_FrWriteResult :
    small.Inv ∧ (stuff [1#8, 2#8, 3#8, 4#8, 5#8, 6#8]).length + 1 ≤ small.space .txf ∧
      (State.setBuf small .txf (bufAt 0 [9#8])).Inv ∧
      (State.setBuf small .txf (bufAt 0 [9#8])).space .txf <
        (stuff [1#8, 2#8, 3#8, 4#8, 5#8, 6#8]).length + 1 := by
  decide

/-- The stream buffer of a good state: whether it is resynchronising, and where its first zero is. -/
abbrev StreamIs (s : State) (resync : Bool) (zero : Option Nat) : Prop :=
  s.Inv ∧ s.resync = resync ∧ firstZero (window s.rxf) = zero

/-- A stream buffer and an RXR that `unmadeFrame` and its payload fill. -/
def unmade : State := { small with rxf := reload {} unmadeFrame, caps := ⟨8, 8, 256, 254⟩ }

theorem unmade_length : unmadeFrame.length = 256 := by
  rw [unmadeFrame, List.length_cons, List.length_append, List.length_replicate]
  rfl

theorem unmade_window : window unmade.rxf = unmadeFrame := window_reload _ _ rfl

theorem unmade_is : StreamIs unmade false (some 255) := by
  refine ⟨⟨by decide, by decide, by decide, ?_, by decide⟩, rfl, ?_⟩
  · exact bufferOk_reload _ _ _ (by decide) (Nat.le_of_eq unmade_length)
  · rw [unmade_window]
    exact test_unstuff_a_full_group.1

theorem unmade_decodes : cobsDec ((window unmade.rxf).take 255) 254 = .ok (List.replicate 254 7#8) := by
  rw [unmade_window]
  exact test_unstuff_a_full_group.2.1

/-- A frame of `E`, the bare terminator, and a frame `E` never makes; destinations of the exact length and one
byte less. -/
theorem witness_FrReadDeliversTheNextFrame :
    (StreamIs busy false (some 2) ∧ cobsDec ((window busy.rxf).take 2) 1 = .ok [0x07#8]) ∧
      ([0x07#8].length ≤ (1#32).toNat ∧ (0#32).toNat < [0x07#8].length) ∧
      (StreamIs (rxfHolds [0#8]) false (some 0) ∧
        cobsDec ((window (rxfHolds [0#8]).rxf).take 0) 0 = .ok []) ∧
      StreamIs unmade false (some 255) ∧
      cobsDec ((window unmade.rxf).take 255) 254 = .ok (List.replicate 254 7#8) :=
  ⟨by decide, by decide, by decide, unmade_is, unmade_decodes⟩

/-- An unterminated window one byte short of full, an empty one, a full one, an unterminated one while
resynchronising, and a terminator at its first and last byte. -/
theorem witness_StreamReaderWithoutAFrame :
    (StreamIs (rxfHolds (List.replicate 7 1#8)) false none ∧
      (rxfHolds (List.replicate 7 1#8)).rxf.tail < small.caps.rxf) ∧
      (StreamIs (resyncing []) true none ∧ window (resyncing []).rxf = []) ∧
      (StreamIs (rxfHolds (List.replicate 8 1#8)) false none ∧
        (rxfHolds (List.replicate 8 1#8)).rxf.tail = small.caps.rxf) ∧
      (StreamIs (resyncing [1#8]) true none ∧ window (resyncing [1#8]).rxf ≠ []) ∧
      StreamIs (resyncing [0#8, 1#8]) true (some 0) ∧ StreamIs (resyncing [1#8, 0#8]) true (some 1) := by
  refine ⟨?_, ?_, ?_, ?_, ?_⟩ <;> decide

/-- A frame of nine bytes, one more than RXR of `small` holds. -/
def tooLong : State :=
  { rxfHolds (stuff (List.replicate 9 7#8) ++ [0#8]) with caps := ⟨8, 8, 16, 8⟩ }

theorem witness_CorruptFramesAreDiscarded :
    (rxfHolds [5#8, 0#8]).Inv ∧ (rxfHolds [5#8, 0#8]).resync = false ∧
      firstZero (window (rxfHolds [5#8, 0#8]).rxf) = some 1 ∧
      cobsDec ((window (rxfHolds [5#8, 0#8]).rxf).take 1) (9#32).toNat = .error .sourceTooShort ∧
      tooLong.Inv ∧ firstZero (window tooLong.rxf) = some 10 ∧
      cobsDec ((window tooLong.rxf).take 10) tooLong.caps.rxr = .error .destTooShort := by
  decide

theorem witness_LaterBytesDoNotChangeAFrame :
    busy.Inv ∧ (Leaves (.frRead 1#32) busy { status := .ok, r0 := 1#32, q0 := [7#8] } fun _ => True) ∧
      [0x02#8, 0x00#8].length ≤ busy.space .rxf ∧
      ∃ u, exec (.cbExtend .rxf [0x02#8, 0x00#8]) busy = .next u :=
  ⟨busy_inv, ⟨_, rfl, rfl, trivial⟩, by decide, _, rfl⟩

/-- One byte free: 5 fits, 300 does not; -1 fits, 64 does not. -/
theorem witness_VarintWritersResult :
    nearlyFull.Inv ∧ (lebU (5#32).toNat).length ≤ nearlyFull.space .txr ∧
      nearlyFull.space .txr < (lebU (300#32).toNat).length ∧
      (lebS (0xFFFFFFFF#32).toInt).length ≤ nearlyFull.space .txr ∧
      nearlyFull.space .txr < (lebS (64#32).toInt).length := by
  decide

/-- TXR full. -/
def fullTxr : State := { nearlyFull with caps := ⟨3, 8, 8, 8⟩ }

theorem witness_NarrowWritersResult :
    nearlyFull.Inv ∧ 1 ≤ nearlyFull.space .txr ∧ fullTxr.Inv ∧ fullTxr.space .txr = 0 ∧
      (1#32).toNat ≤ 1 ∧ 1 < (2#32).toNat ∧ (127#32).toNat ≤ 127 ∧ 127 < (128#32).toNat ∧
      -64 ≤ (0xFFFFFFC0#32).toInt ∧ (63#32).toInt ≤ 63 ∧ (0xFFFFFFBF#32).toInt < -64 ∧
      63 < (64#32).toInt := by
  decide

theorem witness_VarintReadersResult :
    (rxrHolds [0xAC#8, 0x02#8, 0x99#8]).Inv ∧
      decU32 (window (rxrHolds [0xAC#8, 0x02#8, 0x99#8]).rxr) = .ok (300, 2) ∧
      decI32 (window (rxrHolds [0xAC#8, 0x02#8, 0x99#8]).rxr) = .ok (300, 2) ∧
      (rxrHolds [0x80#8]).Inv ∧ decU32 (window (rxrHolds [0x80#8]).rxr) = .error .incomplete ∧
      decI32 (window (rxrHolds [0x80#8]).rxr) = .error .incomplete :=
  ⟨by decide, by decide, by decide, by decide, by decide, by decide⟩

theorem witness_NarrowReadersResult :
    small.Inv ∧ window small.rxr = [] ∧ (rxrHolds [0x7F#8, 0x01#8]).Inv ∧
      window (rxrHolds [0x7F#8, 0x01#8]).rxr = 0x7F#8 :: [0x01#8] ∧ (0x01#8).toNat ≤ 1 ∧
      1 < (0x02#8).toNat ∧ (0x7F#8).toNat ≤ 127 ∧ 127 < (0x80#8).toNat := by
  decide

/-- A record of exactly the free space, one byte more, and a value one byte over the 8-bit length. -/
theorem witness_TlvWritersResult :
    small.Inv ∧ [1#8, 2#8, 3#8, 4#8, 5#8, 6#8].length ≤ maxLen .w8 ∧
      (lebU (1#32).toNat).length + lenBytes .w8 + [1#8, 2#8, 3#8, 4#8, 5#8, 6#8].length ≤
        small.space .txr ∧
      small.space .txr <
        (lebU (128#32).toNat).length + lenBytes .w8 + [1#8, 2#8, 3#8, 4#8, 5#8, 6#8].length ∧
      maxLen .w8 < (List.replicate 256 0#8).length :=
  ⟨by decide, by decide, by decide, by decide, by rw [List.length_replicate]; decide⟩

/-- T5 and T7. -/
theorem witness_TlvReadersResult :
    (rxrHolds [1#8, 2#8, 3#8, 4#8, 5#8]).Inv ∧
      tlvParse .w8 (window (rxrHolds [1#8, 2#8, 3#8, 4#8, 5#8]).rxr) (2#32).toNat =
        .ok { tag := 1, value := [3#8, 4#8], consumed := 4 } ∧
      tlvParse .w8 (window (rxrHolds [1#8, 2#8, 3#8, 4#8, 5#8]).rxr) (1#32).toNat =
        .error .destTooShort := by
  decide

/-- A record of exactly the free space, one byte more, and an address and a value over the 8-bit length. -/
theorem witness_AtlvWritersResult :
    small.Inv ∧ [1#8, 2#8].length ≤ maxLen .w8 ∧ [1#8, 2#8, 3#8].length ≤ maxLen .w8 ∧
      lenBytes .w8 + [1#8, 2#8].length + (lebU (1#32).toNat).length + lenBytes .w8 +
        [1#8, 2#8, 3#8].length ≤ small.space .txr ∧
      small.space .txr < lenBytes .w8 + [1#8, 2#8].length + (lebU (128#32).toNat).length +
        lenBytes .w8 + [1#8, 2#8, 3#8].length ∧
      maxLen .w8 < (List.replicate 256 0#8).length :=
  ⟨by decide, by decide, by decide, by decide, by decide, by rw [List.length_replicate]; decide⟩

/-- A5 and A8. -/
theorem witness_AtlvReadersResult :
    (rxrHolds [2#8, 10#8, 11#8, 0x31#8, 1#8, 0x6B#8]).Inv ∧
      atlvParse .w8 (window (rxrHolds [2#8, 10#8, 11#8, 0x31#8, 1#8, 0x6B#8]).rxr) (1#32).toNat
        (2#32).toNat =
        .ok { tag := 0x31, value := [0x6B#8], addr := [10#8, 11#8], consumed := 6 } ∧
      atlvParse .w8 (window (rxrHolds [2#8, 10#8, 11#8, 0x31#8, 1#8, 0x6B#8]).rxr) (1#32).toNat
        (1#32).toNat = .error .destTooShort := by
  decide

/-- Six payload bytes fill TXR, seven do not fit, 256 are out of range. -/
theorem witness_MessageWritersResult :
    blobWriter .set [1#8, 2#8, 3#8, 4#8, 5#8, 6#8] = some (.cpSet [1#8, 2#8, 3#8, 4#8, 5#8, 6#8]) ∧
      small.Inv ∧ 2 + [1#8, 2#8, 3#8, 4#8, 5#8, 6#8].length ≤ small.space .txr ∧
      small.space .txr < 2 + [1#8, 2#8, 3#8, 4#8, 5#8, 6#8, 7#8].length ∧
      255 < (List.replicate 256 0#8).length ∧ (List.replicate 255 0#8).length ≤ 255 :=
  ⟨rfl, by decide, by decide, by decide, by rw [List.length_replicate]; decide,
    by rw [List.length_replicate]⟩

theorem witness_CpExitResult :
    small.Inv ∧ (255#32).toNat ≤ 255 ∧ 3 ≤ small.space .txr ∧ 255 < (256#32).toNat ∧ nearlyFull.Inv ∧
      nearlyFull.space .txr < 3 := by
  decide

/-- TXF with exactly the frame's length free, and with one byte less. -/
theorem witness_CpFinishResult :
    busy.Inv ∧ (stuff (window busy.txr)).length + 1 ≤ busy.space .txf ∧
      (State.setBuf busy .txf (bufAt 0 [1#8, 1#8, 1#8, 1#8, 1#8])).Inv ∧
      (stuff (window busy.txr)).length + 1 ≤
        (State.setBuf busy .txf (bufAt 0 [1#8, 1#8, 1#8, 1#8, 1#8])).space .txf ∧
      (State.setBuf busy .txf (bufAt 0 [1#8, 1#8, 1#8, 1#8, 1#8, 1#8])).Inv ∧
      (State.setBuf busy .txf (bufAt 0 [1#8, 1#8, 1#8, 1#8, 1#8, 1#8])).space .txf <
        (stuff (window busy.txr)).length + 1 :=
  ⟨by decide, by decide, by decide, by decide, by decide, by decide⟩

/-- A frame of `E`, the bare terminator, and a frame `E` never makes that fills RXR. -/
theorem witness_CpLoadResult :
    (StreamIs busy false (some 2) ∧
      cobsDec ((window busy.rxf).take 2) busy.caps.rxr = .ok [0x07#8]) ∧
      (StreamIs (rxfHolds [0#8]) false (some 0) ∧
        cobsDec ((window (rxfHolds [0#8]).rxf).take 0) small.caps.rxr = .ok []) ∧
      StreamIs unmade false (some 255) ∧
      cobsDec ((window unmade.rxf).take 255) unmade.caps.rxr = .ok (List.replicate 254 7#8) :=
  ⟨by decide, by decide, unmade_is, unmade_decodes⟩

/-- R3, R4, R7 and R11: each class of a record, and a record that does not parse. -/
theorem witness_CpReadResult :
    (rxrHolds [3#8, 1#8, 0#8]).Inv ∧
      tlvParse .w8 (window (rxrHolds [3#8, 1#8, 0#8]).rxr) (8#32).toNat =
        .ok { tag := 3, value := [0#8], consumed := 3 } ∧
      tlvParse .w8 (window (rxrHolds [3#8, 0#8]).rxr) (8#32).toNat =
        .ok { tag := 3, value := [], consumed := 2 } ∧
      tlvParse .w8 (window (rxrHolds [6#8, 0#8]).rxr) (8#32).toNat =
        .ok { tag := 6, value := [], consumed := 2 } ∧
      tlvParse .w8 (window (rxrHolds [0x32#8, 9#8, 1#8]).rxr) (8#32).toNat = .error .destTooShort := by
  decide

/-- Two messages, an Exit among them, that fill TXR and come back through RXF and RXR of their exact size. -/
theorem witness_MessagesComeBackInOrder :
    ∃ t, runOps [.cpBoot [1#8, 0#8, 2#8], .cpExit 0x55#32, .cpFinish]
        { small with caps := ⟨8, 10, 8, 8⟩ } = some t ∧
      t.responses = [{ status := .ok, r0 := 5#32 }, { status := .ok, r0 := 3#32 },
        { status := .ok, r0 := 10#32 }] ∧
      [(Kind.boot, [1#8, 0#8, 2#8]), (Kind.exit, [0x55#8])].map (fun m => messageWriter m.1 m.2) =
        [.cpBoot [1#8, 0#8, 2#8], .cpExit 0x55#32] ∧
      (window t.txf).length ≤ State.space { small with caps := ⟨8, 8, 10, 8⟩ } .rxf ∧
      ([(Kind.boot, [1#8, 0#8, 2#8]), (Kind.exit, [0x55#8])].map fun m => 2 + m.2.length).sum ≤ 8 :=
  ⟨_, rfl, rfl, by decide, by decide, by decide⟩

end Sys2Proof.Tests
end

