-- ==== Sys2Proof/Proofs/Slice0/Scope.lean ====
section
/-! PROOF. What one step does, input by input, and the statements of 00_scope.md: the step runs the decoded
operation, every operation completes with one response, and good states never fault. -/

namespace Sys2Proof.Machine

/-! ## One equation of `step` per input -/

theorem step_of_no_input {s : State} (hb : s.cursorsInBounds = true) (hp : s.pending = []) :
    step s = idle s := by
  simp [step, hb, hp]

theorem step_of_reset {s : State} {rest : List Input} (hb : s.cursorsInBounds = true)
    (hp : s.pending = .reset :: rest) : step s = hardwareReset (s.withPending rest) := by
  simp [step, hb, hp]

theorem step_of_illegal {s : State} {c : Command} {rest : List Input} {why : DecodeReject}
    (hb : s.cursorsInBounds = true) (hp : s.pending = .command c :: rest) (hd : decode c = .error why) :
    step s = execIllegal (s.withPending rest) := by
  simp [step, hb, hp, hd]

theorem step_of_command {s : State} {c : Command} {rest : List Input} {i : Instr}
    (hb : s.cursorsInBounds = true) (hp : s.pending = .command c :: rest) (hd : decode c = .ok i)
    (hw : i.wellFormed = true) : step s = exec i (s.withPending rest) := by
  simp [step, hb, hp, hd, hw]

theorem step_of_long_operand {s : State} {c : Command} {rest : List Input} {i : Instr}
    (hb : s.cursorsInBounds = true) (hp : s.pending = .command c :: rest) (hd : decode c = .ok i)
    (hw : i.wellFormed = false) : step s = .refused .operandTooLong := by
  simp [step, hb, hp, hd, hw]

/-! ## All that a step can do -/

/-- The ways in which a step on a state within R33 (I1) can end, by the oldest input presented. -/
inductive StepShape (s : State) : Answer → Prop
  /-- Nothing is presented. -/
  | idle (hp : s.pending = []) : StepShape s (idle s)
  /-- The reset input. -/
  | reset (rest : List Input) (hp : s.pending = .reset :: rest) :
      StepShape s (hardwareReset (s.withPending rest))
  /-- A command word that names no operation (R64). -/
  | illegal (c : Command) (rest : List Input) (why : DecodeReject) (hp : s.pending = .command c :: rest)
      (hd : decode c = .error why) : StepShape s (execIllegal (s.withPending rest))
  /-- A command of R60. -/
  | run (c : Command) (rest : List Input) (i : Instr) (hp : s.pending = .command c :: rest)
      (hd : decode c = .ok i) (hw : i.wellFormed = true) : StepShape s (exec i (s.withPending rest))
  /-- A record that is no command of R60 (log entry 8). -/
  | refuse (c : Command) (rest : List Input) (i : Instr) (hp : s.pending = .command c :: rest)
      (hd : decode c = .ok i) (hw : i.wellFormed = false) : StepShape s (.refused .operandTooLong)

theorem step_shape {s : State} (hb : s.cursorsInBounds = true) : StepShape s (step s) := by
  rcases hp : s.pending with _ | ⟨c | _, rest⟩
  · rw [step_of_no_input hb hp]
    exact .idle hp
  · rcases hd : decode c with why | i
    · rw [step_of_illegal hb hp hd]
      exact .illegal c rest why hp hd
    · cases hw : i.wellFormed
      · rw [step_of_long_operand hb hp hd hw]
        exact .refuse c rest i hp hd hw
      · rw [step_of_command hb hp hd hw]
        exact .run c rest i hp hd hw
  · rw [step_of_reset hb hp]
    exact .reset rest hp

/-! ## The statements -/

/-- Settles O5: it is the equation of `step` for a command of R60. -/
theorem stepRunsDecodedInstruction : Obligations.StepRunsDecodedInstruction :=
  fun _ _ _ _ hb hp hd hw => step_of_command hb hp hd hw

/-- Settles O11: every operation ends in one of the shapes of `exec_shape`, each of which leaves the channels
and the capacities alone, and the response of the shape is then sent. -/
theorem everyOperationAnswersOnce : Obligations.EveryOperationAnswersOnce := by
  intro i s
  obtain ⟨⟨t, r⟩, hshape, hexec⟩ := exec_shape i s
  obtain ⟨hresponses, hpending, hcaps⟩ := shape_channels i s _ hshape
  refine ⟨t.respond r, r, hexec, ?_, hpending, hcaps⟩
  rw [State.respond_responses, hresponses]

/-- Settles O7: a good state passes the bounds check, and of the ways a step can then end only one is no next
state, because an operation always completes (`everyOperationAnswersOnce`). -/
theorem goodStatesNeverFault : Obligations.GoodStatesNeverFault := by
  intro s hs
  have hshape := step_shape hs.cursorsInBounds
  generalize step s = answer at hshape ⊢
  cases hshape with
  | idle | reset | illegal => exact ⟨nofun, nofun⟩
  | run c rest i =>
    obtain ⟨t, r, hexec, -⟩ := everyOperationAnswersOnce i (s.withPending rest)
    rw [hexec]
    exact ⟨nofun, nofun⟩
  | refuse c rest i hp hd hw =>
    refine ⟨nofun, fun r hr => ⟨?_, c, rest, i, hp, hd, hw⟩⟩
    exact (Host.Outcome.refused.inj hr).symm

end Sys2Proof.Machine
end

/-! PROOF. What one operation does to one buffer, and the statements of 10_state.md: the reset values, the
invariant, which cursors and window ends an operation moves, and when `RESYNC` moves. -/

namespace Sys2Proof.Machine

/-! ## Reset -/

@[simp] theorem buf_resetCore (s : State) (b : BufId) : (resetCore s).buf b = resetCursors (s.buf b) := by
  cases b <;> rfl

/-- The reset leaves every cursor at 0 (R32). -/
theorem resetCore_cursors (s : State) (b : BufId) :
    ((resetCore s).buf b).head = 0 ∧ ((resetCore s).buf b).tail = 0 := by
  rw [buf_resetCore]
  exact ⟨rfl, rfl⟩

theorem State.Inv.resetCore {s : State} (h : s.Inv) : (resetCore s).Inv := by
  refine (State.inv_iff _).mpr ⟨h.1, fun b => ?_⟩
  rw [buf_resetCore, cap_resetCore]
  exact bufferOk_resetCursors _ _ (h.buffer b)

/-- A capacity written as one more than an index below `2^32 - 1` is in the range of R6. -/
theorem capacityInRange_succ (n : Fin 4294967295) : capacityInRange (n.val + 1) :=
  ⟨Nat.le_add_left .., n.isLt⟩

theorem Config.capacities_wf : Config.capacities.wf :=
  ⟨capacityInRange_succ _, capacityInRange_succ _, capacityInRange_succ _, capacityInRange_succ _⟩

/-- A buffer that nothing has written is good for any capacity. -/
theorem bufferOk_empty (cap : Nat) : bufferOk cap {} :=
  ⟨Nat.le_refl _, Nat.zero_le _, Memory.wf_nil, nofun⟩

/-- Settles O6: the two equations of `step` for these inputs, and the cursors of the reset. -/
theorem stepResetsOnTheResetInput : Obligations.StepResetsOnTheResetInput :=
  ⟨fun s rest hb hp => ⟨resetCore (s.withPending rest), step_of_reset hb hp,
      resetCore_cursors (s.withPending rest), rfl, rfl, rfl, rfl⟩,
    fun _ hb hp => step_of_no_input hb hp⟩

/-- Settles O8: a step on the reset input is O6, and `SYS.RESET` goes through the same reset. -/
theorem resetStateValues : Obligations.ResetStateValues := by
  refine ⟨fun b => by cases b <;> exact ⟨rfl, rfl⟩, rfl, fun s rest hb hp => ?_, fun s => ?_⟩
  · obtain ⟨t, hstep, hcursors, hresync, -⟩ := stepResetsOnTheResetInput.1 s rest hb hp
    exact ⟨t, hstep, hcursors, hresync⟩
  · refine ⟨(resetCore s).respond { status := .ok }, rfl, fun b => ?_, rfl⟩
    rw [State.buf_respond]
    exact resetCore_cursors s b

/-- Settles O9: the range of R6 is in the type of the opaque capacities, and the four buffers are empty. -/
theorem resetSatisfiesInvariant : Obligations.ResetSatisfiesInvariant :=
  ⟨Config.capacities_wf, bufferOk_empty _, bufferOk_empty _, bufferOk_empty _, bufferOk_empty _⟩

/-! ## What an operation does to one buffer -/

/-- All that operation `i` may make of buffer `b` of a state: five moves, each with what entitles `i` to it
(R24) and the bound that keeps the buffer good. -/
inductive BufMove (i : Instr) (s : State) (b : BufId) : CursorBuffer → Prop
  /-- Nothing. -/
  | same : BufMove i s b (s.buf b)
  /-- Bytes appended at `tail` (R100). -/
  | grow (bytes : List Byte) (hfit : bytes.length ≤ s.cap b - (s.buf b).tail)
      (htail : mayWriteTail i b = true) : BufMove i s b (appendBytes (s.buf b) bytes)
  /-- Unread bytes taken at `head` (R106). -/
  | advance (n : Nat) (hfit : n ≤ remaining (s.buf b)) (hhead : mayWriteHead i b = true) :
      BufMove i s b { s.buf b with head := (s.buf b).head + n }
  /-- Both cursors to 0. -/
  | clear (hhead : mayWriteHead i b = true) (htail : mayWriteTail i b = true)
      (hback : mayMoveBack i b = true) : BufMove i s b (resetCursors (s.buf b))
  /-- The reload of RXR by `CP.LOAD` (R190). -/
  | load (p : List Byte) (hi : i = .cpLoad) (hb : b = .rxr) (hfit : p.length ≤ s.cap b) :
      BufMove i s b (reload (s.buf b) p)

/-- Every buffer of `t` comes of a move of `i` on that buffer of `s`. -/
def Moves (i : Instr) (s t : State) : Prop := ∀ b, BufMove i s b (t.buf b)

theorem Moves.refl (i : Instr) (s : State) : Moves i s s := fun _ => .same

/-- One buffer is given another move of its own; the others keep theirs. -/
theorem Moves.setBuf {i : Instr} {s t : State} {b : BufId} {c : CursorBuffer} (h : Moves i s t)
    (hc : BufMove i s b c) : Moves i s (t.setBuf b c) := by
  intro b'
  by_cases hb : b' = b
  · subst hb
    rwa [State.buf_setBuf_same]
  · rw [State.buf_setBuf_ne _ _ _ _ hb]
    exact h b'

theorem moves_resetCore {i : Instr} (s : State) (hi : i = .sysReset) : Moves i s (resetCore s) := by
  subst hi
  intro b
  rw [buf_resetCore]
  exact .clear rfl rfl rfl

/-- `NextFrame` moves `RXF.head` over unread bytes and does nothing else to RXF (R115). -/
theorem nextFrame_rxf (s : State) (cap : Nat) (hin : s.rxf.head ≤ s.rxf.tail) :
    ∃ n ≤ remaining s.rxf, (nextFrame s cap).1.rxf = { s.rxf with head := s.rxf.head + n } := by
  have hall : { s.rxf with head := s.rxf.tail } = { s.rxf with head := s.rxf.head + remaining s.rxf } := by
    rw [remaining, Nat.add_sub_cancel' hin]
  have hpass : ∀ z, firstZero (window s.rxf) = some z → z + 1 ≤ remaining s.rxf := by
    intro z hz
    rw [← window_length]
    exact firstZero_lt _ _ hz
  rcases nextFrame_cases s cap with ⟨-, -, e⟩ | ⟨-, -, -, e⟩ | ⟨z, -, -, hz, e⟩ | ⟨-, -, -, e⟩ | ⟨-, -, -, e⟩ |
    ⟨z, -, hz, e⟩ <;> rw [e]
  · exact ⟨0, Nat.zero_le _, rfl⟩
  · exact ⟨_, Nat.le_refl _, hall⟩
  · exact ⟨z + 1, hpass z hz, rfl⟩
  · exact ⟨_, Nat.le_refl _, hall⟩
  · exact ⟨0, Nat.zero_le _, rfl⟩
  · exact ⟨z + 1, hpass z hz, rfl⟩

@[simp] theorem nextFrame_rxr (s : State) (cap : Nat) : (nextFrame s cap).1.rxr = s.rxr := by
  obtain ⟨-, -, hrxr, -⟩ := nextFrame_frame s cap
  exact hrxr

theorem moves_nextFrame {i : Instr} {s : State} (cap : Nat) (hs : s.Inv)
    (hhead : mayWriteHead i .rxf = true) : Moves i s (nextFrame s cap).1 := by
  obtain ⟨htxr, htxf, -⟩ := nextFrame_frame s cap
  obtain ⟨n, hn, hrxf⟩ := nextFrame_rxf s cap (hs.buffer .rxf).1
  intro b
  cases b with
  | txr => rw [State.buf_txr, htxr]; exact .same
  | txf => rw [State.buf_txf, htxf]; exact .same
  | rxf => rw [State.buf_rxf, hrxf]; exact .advance n hn hhead
  | rxr => rw [State.buf_rxr, nextFrame_rxr]; exact .same

/-- In a good state every shape an operation can end in makes one move on each buffer. -/
theorem shape_moves {i : Instr} {s : State} {p : State × Response} (hs : s.Inv) (h : Shape i s p) :
    Moves i s p.1 := by
  cases h with
  | stay r hr => exact .refl i s
  | grow b bytes hfit hwho => exact (Moves.refl i s).setBuf (.grow bytes hfit hwho)
  | take b n r hfit hwho hr => exact (Moves.refl i s).setBuf (.advance n hfit hwho)
  | read dcap rec hi hp hfit =>
    subst hi
    exact (Moves.refl _ s).setBuf (.advance (b := .rxr) rec.consumed hfit rfl)
  | compact b hi hempty =>
    subst hi
    have hsame : decide (b = b) = true := decide_eq_true rfl
    exact (Moves.refl _ s).setBuf (.clear hsame hsame hsame)
  | reset hi => exact moves_resetCore s hi
  | frame dcap hi =>
    subst hi
    exact moves_nextFrame _ hs rfl
  | finish hi hfit =>
    subst hi
    exact ((Moves.refl _ s).setBuf (.grow (b := .txf) _ hfit rfl)).setBuf (.clear (b := .txr) rfl rfl rfl)
  | loadNone e hi he hf =>
    subst hi
    exact moves_nextFrame _ hs rfl
  | loadBad e hi he hf =>
    subst hi
    rw [nextFrame_rxr]
    exact (moves_nextFrame _ hs rfl).setBuf (.clear (b := .rxr) rfl rfl rfl)
  | load p hi hf =>
    subst hi
    rw [nextFrame_rxr]
    exact (moves_nextFrame _ hs rfl).setBuf (.load (b := .rxr) p rfl rfl (nextFrame_length s _ p hf))

/-- In a good state an operation makes one move on each buffer, and leaves the capacities alone. -/
theorem exec_moves {i : Instr} {s t : State} (hs : s.Inv) (h : exec i s = .next t) :
    t.caps = s.caps ∧ Moves i s t := by
  obtain ⟨p, hp, rfl⟩ := exec_eq_next i s t h
  obtain ⟨-, -, hcaps⟩ := shape_channels i s p hp
  refine ⟨hcaps, fun b => ?_⟩
  rw [State.buf_respond]
  exact shape_moves hs hp b

/-! ## What a move keeps -/

section Move

variable {i : Instr} {s : State} {b : BufId} {c : CursorBuffer}

theorem BufMove.keeps_bufferOk (h : BufMove i s b c) (hs : s.Inv) : bufferOk (s.cap b) c := by
  have hb := hs.buffer b
  cases h with
  | same => exact hb
  | grow bytes hfit htail => exact bufferOk_appendBytes _ _ _ hb hfit
  | advance n hfit hhead => exact bufferOk_advance _ _ _ hb hfit
  | clear hhead htail hback => exact bufferOk_resetCursors _ _ hb
  | load p hi hrxr hfit => exact bufferOk_reload _ _ _ hb hfit

/-- A move keeps a cursor that the operation is not listed as writing, and sets one back only where R24 says
it may. -/
theorem BufMove.cursors (h : BufMove i s b c) :
    (mayWriteHead i b = false → c.head = (s.buf b).head) ∧
    (mayWriteTail i b = false → c.tail = (s.buf b).tail) ∧
    (mayMoveBack i b = false → (s.buf b).head ≤ c.head ∧ (s.buf b).tail ≤ c.tail) := by
  cases h with
  | same => exact ⟨fun _ => rfl, fun _ => rfl, fun _ => ⟨Nat.le_refl _, Nat.le_refl _⟩⟩
  | grow bytes hfit htail =>
    exact ⟨fun _ => rfl, fun hno => absurd (hno.symm.trans htail) nofun,
      fun _ => ⟨Nat.le_refl _, Nat.le_add_right ..⟩⟩
  | advance n hfit hhead =>
    exact ⟨fun hno => absurd (hno.symm.trans hhead) nofun, fun _ => rfl,
      fun _ => ⟨Nat.le_add_right .., Nat.le_refl _⟩⟩
  | clear hhead htail hback => simp [hhead, htail, hback]
  | load p hi hb hfit =>
    subst hi hb
    exact ⟨nofun, nofun, nofun⟩

/-- A move other than the reload of RXR adds bytes at the end of the window or removes them at its front. -/
theorem BufMove.window_ends (h : BufMove i s b c) (hs : s.Inv) (hno : ¬(i = .cpLoad ∧ b = .rxr)) :
    (∃ bytes, window c = window (s.buf b) ++ bytes) ∨ ∃ k, window c = (window (s.buf b)).drop k := by
  obtain ⟨hin, -, hwf, -⟩ := hs.buffer b
  cases h with
  | same => exact .inr ⟨0, rfl⟩
  | grow bytes hfit htail => exact .inl ⟨bytes, window_appendBytes _ _ hwf hin⟩
  | advance n hfit hhead => exact .inr ⟨n, window_advance _ n⟩
  | clear hhead htail hback => exact .inr ⟨_, by rw [window_resetCursors, List.drop_length]⟩
  | load p hi hb hfit => exact absurd ⟨hi, hb⟩ hno

end Move

/-! ## The invariant, the cursors and the windows -/

/-- Every operation keeps the invariant of the block. -/
theorem State.Inv.exec {i : Instr} {s t : State} (hs : s.Inv) (h : exec i s = .next t) : t.Inv := by
  obtain ⟨hcaps, hmoves⟩ := exec_moves hs h
  have hcap : ∀ b, t.cap b = s.cap b := fun b => by cases b <;> simp [hcaps]
  refine (State.inv_iff t).mpr ⟨hcaps ▸ hs.1, fun b => ?_⟩
  rw [hcap]
  exact (hmoves b).keeps_bufferOk hs

/-- Settles O10: of the ways a step can end (`step_shape`) the reset and the operation move cursors, and each
keeps the invariant; the others write the channels only. -/
theorem stepKeepsInvariant : Obligations.StepKeepsInvariant := by
  intro s t hs h
  have hshape := step_shape hs.cursorsInBounds
  rw [h] at hshape
  generalize ha : Host.Outcome.next t = answer at hshape
  cases hshape with
  | idle hp => cases ha; exact hs
  | reset rest hp => cases ha; exact State.Inv.resetCore (s := s.withPending rest) hs
  | illegal c rest why hp hd => cases ha; exact hs
  | run c rest i hp hd hw => exact State.Inv.exec (s := s.withPending rest) hs ha.symm
  | refuse c rest i hp hd hw => cases ha

/-- Settles O16: it holds of every move on the buffer. -/
theorem cursorsMoveOnlyAsListed : Obligations.CursorsMoveOnlyAsListed :=
  fun _ _ _ b hs h => ((exec_moves hs h).2 b).cursors

/-- Settles O17: it holds of every move on the buffer but the reload of RXR. -/
theorem windowsChangeOnlyAtTheirEnds : Obligations.WindowsChangeOnlyAtTheirEnds :=
  fun _ _ _ b hs h hno => ((exec_moves hs h).2 b).window_ends hs hno

/-! ## RESYNC -/

theorem streamStuck_iff (s : State) :
    streamStuck s = true ↔ s.rxf.head < s.rxf.tail ∧ s.rxf.tail = s.caps.rxf := by
  rw [streamStuck, Bool.and_eq_true, decide_eq_true_eq, decide_eq_true_eq]

/-- A non-empty window in cursors is a non-empty window in bytes (R23). -/
theorem window_ne_nil {c : CursorBuffer} (h : c.head < c.tail) : window c ≠ [] := by
  rw [← List.length_pos_iff, window_length, remaining]
  omega

/-- `NextFrame` sets `RESYNC` only when it discards the window of a full buffer without a terminator (R115
(b)). -/
theorem nextFrame_sets_resync (s : State) (cap : Nat) (h0 : s.resync = false)
    (h1 : (nextFrame s cap).1.resync = true) :
    window s.rxf ≠ [] ∧ (∀ b ∈ window s.rxf, b ≠ 0#8) ∧ s.rxf.tail = s.caps.rxf ∧
      window (nextFrame s cap).1.rxf = [] := by
  rcases nextFrame_cases s cap with ⟨h, -, e⟩ | ⟨h, -, -, e⟩ | ⟨z, h, -, -, e⟩ | ⟨-, hz, hst, e⟩ |
    ⟨-, -, -, e⟩ | ⟨z, -, -, e⟩
  case inr.inr.inr.inl =>
    obtain ⟨hlt, hfull⟩ := (streamStuck_iff s).mp hst
    refine ⟨window_ne_nil hlt, (firstZero_eq_none _).mp hz, hfull, ?_⟩
    rw [e]
    exact window_of_empty rfl
  -- In every other case `RESYNC` is set before or clear afterwards.
  all_goals simp_all

/-- `NextFrame` clears `RESYNC` only when it moves `RXF.head` past the first terminator (R115). -/
theorem nextFrame_clears_resync (s : State) (cap : Nat) (h1 : s.resync = true)
    (h0 : (nextFrame s cap).1.resync = false) :
    ∃ z, firstZero (window s.rxf) = some z ∧ (nextFrame s cap).1.rxf.head = s.rxf.head + z + 1 := by
  rcases nextFrame_cases s cap with ⟨-, -, e⟩ | ⟨-, -, -, e⟩ | ⟨z, -, -, hz, e⟩ | ⟨h, -, -, e⟩ |
    ⟨h, -, -, e⟩ | ⟨z, h, -, e⟩
  case inr.inr.inl => exact ⟨z, hz, by rw [e]; rfl⟩
  -- In every other case `RESYNC` is clear before or set afterwards.
  all_goals simp_all

/-- The stream Readers, `FR.READ` and `CP.LOAD`, leave RXF and `RESYNC` as `NextFrame` does; `SYS.RESET` clears
`RESYNC`; no other operation writes it (R25). -/
theorem exec_resync_cases {i : Instr} {s t : State} (h : exec i s = .next t) :
    t.resync = s.resync ∨ (i = .sysReset ∧ t.resync = false) ∨
      ((i = .cpLoad ∨ ∃ dcap, i = .frRead dcap) ∧
        ∃ cap, t.resync = (nextFrame s cap).1.resync ∧ t.rxf = (nextFrame s cap).1.rxf) := by
  obtain ⟨p, hp, rfl⟩ := exec_eq_next i s t h
  cases hp with
  | stay | grow | take | read | compact | finish => exact .inl (by simp)
  | reset hi => exact .inr (.inl ⟨hi, rfl⟩)
  | frame dcap hi => exact .inr (.inr ⟨.inr ⟨dcap, hi⟩, _, rfl, rfl⟩)
  | loadNone _ hi | loadBad _ hi | load _ hi => exact .inr (.inr ⟨.inl hi, s.caps.rxr, by simp, by simp⟩)

/-- Settles O18: only the stream Readers and `SYS.RESET` move `RESYNC` (`exec_resync_cases`), and `NextFrame`
says when the Readers do. -/
theorem resyncMovesOnlyAsListed : Obligations.ResyncMovesOnlyAsListed := by
  intro i s t h
  rcases exec_resync_cases h with hsame | ⟨hi, hclear⟩ | ⟨hi, cap, hresync, hrxf⟩
  · rw [hsame]
    exact ⟨fun h0 h1 => absurd (h0.symm.trans h1) nofun, fun h1 h0 => absurd (h1.symm.trans h0) nofun⟩
  · exact ⟨fun _ h1 => absurd (hclear.symm.trans h1) nofun, fun _ _ => .inl hi⟩
  · rw [hresync, hrxf]
    exact ⟨fun h0 h1 => ⟨hi, nextFrame_sets_resync s cap h0 h1⟩,
      fun h1 h0 => .inr ⟨hi, nextFrame_clears_resync s cap h1 h0⟩⟩

end Sys2Proof.Machine

/-! PROOF. The statements of 30_encoding.md: decoding and encoding undo each other, which words are legal, what
the results of an operation may hold, and the control vocabulary. -/

namespace Sys2Proof.Machine

/-! ## The fields of a word that is put together (R61) -/

section Fields

variable (unit funct : BitVec 4) (sel : BitVec 2) (tag7 : BitVec 7) (j : Nat)

/-- Bit `j` of a format U word, by the field it lies in. -/
theorem getLsbD_formatU :
    (formatU unit funct sel).getLsbD j =
      if j < 2 then sel.getLsbD j else if j < 8 then false
      else if j < 12 then funct.getLsbD (j - 8) else unit.getLsbD (j - 12) := by
  rw [formatU]
  change BitVec.getLsbD (w := 4 + 4 + 6 + 2) _ j = _
  rw [BitVec.getLsbD_append, BitVec.getLsbD_append, BitVec.getLsbD_append, Nat.sub_sub, Nat.sub_sub]
  have hzero : j - 2 < 6 ↔ j < 8 := by omega
  have hfunct : j - (2 + 6) < 4 ↔ j < 12 := by omega
  simp only [hzero, hfunct, BitVec.getLsbD_zero]

/-- Bit `j` of a format M word, by the field it lies in. -/
theorem getLsbD_formatM :
    (formatM tag7).getLsbD j =
      if j < 8 then false else if j < 15 then tag7.getLsbD (j - 8) else (1#1).getLsbD (j - 15) := by
  rw [formatM]
  change BitVec.getLsbD (w := 1 + 7 + 8) _ j = _
  rw [BitVec.getLsbD_append, BitVec.getLsbD_append, Nat.sub_sub]
  have htag : j - 8 < 7 ↔ j < 15 := by omega
  simp only [htag, BitVec.getLsbD_zero]

@[simp] theorem isMessageFormat_formatU : isMessageFormat (formatU unit funct sel) = unit.getLsbD 3 :=
  getLsbD_formatU unit funct sel 15

@[simp] theorem unitField_formatU : unitField (formatU unit funct sel) = unit := by
  refine BitVec.eq_of_getLsbD_eq fun j hj => ?_
  rw [unitField, BitVec.getLsbD_extractLsb', getLsbD_formatU, if_neg (by omega), if_neg (by omega),
    if_neg (by omega), Nat.add_sub_cancel_left, decide_eq_true hj, Bool.true_and]

@[simp] theorem functField_formatU : functField (formatU unit funct sel) = funct := by
  refine BitVec.eq_of_getLsbD_eq fun j hj => ?_
  rw [functField, BitVec.getLsbD_extractLsb', getLsbD_formatU, if_neg (by omega), if_neg (by omega),
    if_pos (by omega), Nat.add_sub_cancel_left, decide_eq_true hj, Bool.true_and]

@[simp] theorem zeroField_formatU : zeroField (formatU unit funct sel) = 0#6 := by
  refine BitVec.eq_of_getLsbD_eq fun j hj => ?_
  rw [zeroField, BitVec.getLsbD_extractLsb', getLsbD_formatU, if_neg (by omega), if_pos (by omega),
    Bool.and_false, BitVec.getLsbD_zero]

@[simp] theorem selField_formatU : selField (formatU unit funct sel) = sel := by
  refine BitVec.eq_of_getLsbD_eq fun j hj => ?_
  rw [selField, BitVec.getLsbD_extractLsb', getLsbD_formatU, if_pos (by omega), Nat.zero_add,
    decide_eq_true hj, Bool.true_and]

@[simp] theorem isMessageFormat_formatM : isMessageFormat (formatM tag7) = true :=
  getLsbD_formatM tag7 15

@[simp] theorem tagField_formatM : tagField (formatM tag7) = tag7 := by
  refine BitVec.eq_of_getLsbD_eq fun j hj => ?_
  rw [tagField, BitVec.getLsbD_extractLsb', getLsbD_formatM, if_neg (by omega), if_pos (by omega),
    Nat.add_sub_cancel_left, decide_eq_true hj, Bool.true_and]

@[simp] theorem lowByteField_formatM : lowByteField (formatM tag7) = 0#8 := by
  refine BitVec.eq_of_getLsbD_eq fun j hj => ?_
  rw [lowByteField, BitVec.getLsbD_extractLsb', getLsbD_formatM, if_pos (by omega), Bool.and_false,
    BitVec.getLsbD_zero]

end Fields

@[simp] theorem bufOfSel_selOfBuf (b : BufId) : bufOfSel (selOfBuf b) = b := by cases b <;> rfl

/-! ## One equation of `decode` per unit (R62) -/

section Units

variable {c : Command} {funct : BitVec 4} {sel : BitVec 2} {tag7 : BitVec 7}

theorem decode_of_sys (h : c.cw = formatU 0#4 funct 0#2) : decode c = decodeSys funct.toNat := by
  simp [decode, decodeUnitFormat, h]

theorem decode_of_cb (h : c.cw = formatU 1#4 funct sel) :
    decode c = decodeCb funct.toNat (bufOfSel sel) c := by
  simp [decode, decodeUnitFormat, h]

theorem decode_of_fr (h : c.cw = formatU 2#4 funct 0#2) : decode c = decodeFr funct.toNat c := by
  simp [decode, decodeUnitFormat, h]

theorem decode_of_vi (h : c.cw = formatU 3#4 funct 0#2) : decode c = decodeVi funct.toNat c := by
  simp [decode, decodeUnitFormat, h]

theorem decode_of_tlv (h : c.cw = formatU 4#4 funct 0#2) : decode c = decodeTlv funct.toNat c := by
  simp [decode, decodeUnitFormat, h]

theorem decode_of_atlv (h : c.cw = formatU 5#4 funct 0#2) : decode c = decodeAtlv funct.toNat c := by
  simp [decode, decodeUnitFormat, h]

theorem decode_of_cp (h : c.cw = formatU 6#4 funct 0#2) : decode c = decodeCp funct.toNat c := by
  simp [decode, decodeUnitFormat, h]

theorem decode_of_message (h : c.cw = formatM tag7) : decode c = decodeMessageFormat c := by
  simp [decode, h]

end Units

/-! ## What an operation samples of a record (R60) -/

/-- The record that keeps of `c` the command word and the operands that `i` samples. -/
def sampledBy (i : Instr) (c : Command) : Command where
  cw := c.cw
  a0 := if usesA0 i then c.a0 else 0#32
  a1 := if usesA1 i then c.a1 else 0#32
  a2 := if usesA2 i then c.a2 else 0#32
  d0 := if usesD0 i then c.d0 else []
  d1 := if usesD1 i then c.d1 else []

/-- The record `c` with the command word and the sampled operands of `i` put in. -/
def carrying (i : Instr) (c : Command) : Command where
  cw := (encode i).cw
  a0 := if usesA0 i then (encode i).a0 else c.a0
  a1 := if usesA1 i then (encode i).a1 else c.a1
  a2 := if usesA2 i then (encode i).a2 else c.a2
  d0 := if usesD0 i then (encode i).d0 else c.d0
  d1 := if usesD1 i then (encode i).d1 else c.d1

/-- The encoding holds nothing but what its operation samples. -/
theorem sampledBy_encode (i : Instr) : sampledBy i (encode i) = encode i := by cases i <;> rfl

theorem carrying_of_encode_eq {i : Instr} {c : Command} (h : encode i = sampledBy i c) :
    carrying i c = c := by
  obtain ⟨cw, a0, a1, a2, d0, d1⟩ := c
  simp only [carrying, h, sampledBy]
  split_ifs <;> rfl

/-- Records that agree on what `i` samples keep the same of it. -/
theorem sampledBy_congr {i : Instr} {c c' : Command} (hcw : c'.cw = c.cw)
    (ha0 : usesA0 i = true → c'.a0 = c.a0) (ha1 : usesA1 i = true → c'.a1 = c.a1)
    (ha2 : usesA2 i = true → c'.a2 = c.a2) (hd0 : usesD0 i = true → c'.d0 = c.d0)
    (hd1 : usesD1 i = true → c'.d1 = c.d1) : sampledBy i c' = sampledBy i c := by
  simp only [sampledBy, Command.mk.injEq]
  exact ⟨hcw, ite_congr rfl ha0 fun _ => rfl, ite_congr rfl ha1 fun _ => rfl,
    ite_congr rfl ha2 fun _ => rfl, ite_congr rfl hd0 fun _ => rfl, ite_congr rfl hd1 fun _ => rfl⟩

/-! ## Decoding what was encoded -/

/-- A record that carries an operation decodes to it, whatever the operands it does not sample. -/
theorem decode_carrying (i : Instr) (c : Command) : decode (carrying i c) = .ok i := by
  cases i with
  | sysReset => rw [decode_of_sys rfl]; rfl
  | cbExtend b _ | cbAdvance b _ | cbCompact b | cbStat b | cbDrain b _ =>
    rw [decode_of_cb rfl, bufOfSel_selOfBuf]; rfl
  | frEnc _ _ | frDec _ _ | frWrite _ | frRead _ => rw [decode_of_fr rfl]; rfl
  | viWu32 _ | viWi32 _ | viWu1 _ | viWu7 _ | viWi7 _ | viRu32 | viRi32 | viRu1 | viRu7 | viRi7 =>
    rw [decode_of_vi rfl]; rfl
  | tlvW8 _ _ | tlvW16 _ _ | tlvW32 _ _ | tlvR8 _ | tlvR16 _ | tlvR32 _ => rw [decode_of_tlv rfl]; rfl
  | atlvW8 _ _ _ | atlvW16 _ _ _ | atlvW32 _ _ _ | atlvR8 _ _ | atlvR16 _ _ | atlvR32 _ _ =>
    rw [decode_of_atlv rfl]; rfl
  | cpFinish | cpLoad | cpRead _ => rw [decode_of_cp rfl]; rfl
  | cpBoot _ | cpRun _ | cpExit _ | cpException _ | cpPanic _ | cpStdin _ | cpStdout _ | cpStderr _
  | cpError _ | cpWarn _ | cpInfo _ | cpDebug _ | cpTrace _ | cpVal _ | cpGet _ | cpSet _ =>
    rw [decode_of_message rfl, decodeMessageFormat]
    simp only [carrying, encode, lowByteField_formatM, tagField_formatM]
    rfl

/-! ## Encoding what was decoded, unit by unit -/

section Encode

variable {c : Command} {i : Instr} {funct : Nat} {sel : BitVec 2}

theorem encode_of_decodeSys (hcw : c.cw = formatU 0#4 (BitVec.ofNat 4 funct) 0#2)
    (h : decodeSys funct = .ok i) : encode i = sampledBy i c := by
  rw [sampledBy, hcw]
  unfold decodeSys at h
  split at h <;> cases h
  rfl

theorem encode_of_decodeCb (hcw : c.cw = formatU 1#4 (BitVec.ofNat 4 funct) sel)
    (h : decodeCb funct (bufOfSel sel) c = .ok i) : encode i = sampledBy i c := by
  rw [← selOfBuf_bufOfSel sel] at hcw
  rw [sampledBy, hcw]
  unfold decodeCb at h
  split at h <;> cases h <;> rfl

theorem encode_of_decodeFr (hcw : c.cw = formatU 2#4 (BitVec.ofNat 4 funct) 0#2)
    (h : decodeFr funct c = .ok i) : encode i = sampledBy i c := by
  rw [sampledBy, hcw]
  unfold decodeFr at h
  split at h <;> cases h <;> rfl

theorem encode_of_decodeVi (hcw : c.cw = formatU 3#4 (BitVec.ofNat 4 funct) 0#2)
    (h : decodeVi funct c = .ok i) : encode i = sampledBy i c := by
  rw [sampledBy, hcw]
  unfold decodeVi at h
  split at h <;> cases h <;> rfl

theorem encode_of_decodeTlv (hcw : c.cw = formatU 4#4 (BitVec.ofNat 4 funct) 0#2)
    (h : decodeTlv funct c = .ok i) : encode i = sampledBy i c := by
  rw [sampledBy, hcw]
  unfold decodeTlv at h
  split at h <;> cases h <;> rfl

theorem encode_of_decodeAtlv (hcw : c.cw = formatU 5#4 (BitVec.ofNat 4 funct) 0#2)
    (h : decodeAtlv funct c = .ok i) : encode i = sampledBy i c := by
  rw [sampledBy, hcw]
  unfold decodeAtlv at h
  split at h <;> cases h <;> rfl

theorem encode_of_decodeCp (hcw : c.cw = formatU 6#4 (BitVec.ofNat 4 funct) 0#2)
    (h : decodeCp funct c = .ok i) : encode i = sampledBy i c := by
  rw [sampledBy, hcw]
  unfold decodeCp at h
  split at h <;> cases h <;> rfl

theorem encode_of_decodeUnitFormat (hf : isMessageFormat c.cw = false)
    (h : decodeUnitFormat c = .ok i) : encode i = sampledBy i c := by
  simp only [decodeUnitFormat] at h
  split at h
  · cases h
  next hzero =>
    split at h
    · cases h
    next hsel =>
      have hcw : c.cw = formatU (BitVec.ofNat 4 (unitField c.cw).toNat)
          (BitVec.ofNat 4 (functField c.cw).toNat) (selField c.cw) := by
        simp only [BitVec.ofNat_toNat, BitVec.setWidth_eq]
        exact word_eq_formatU c.cw hf (not_not.mp hzero)
      -- Outside unit 1 the `sel` field is zero too, so the word is known but for its `funct`.
      have hword : ∀ unit : Nat, (unitField c.cw).toNat = unit → unit ≠ 1 →
          c.cw = formatU (BitVec.ofNat 4 unit) (BitVec.ofNat 4 (functField c.cw).toNat) 0#2 := by
        rintro unit rfl hne
        have hsel0 : selField c.cw = 0#2 := not_not.mp fun hs => hsel ⟨hne, hs⟩
        rwa [hsel0] at hcw
      split at h
      next hunit => exact encode_of_decodeSys (hword 0 hunit nofun) h
      next hunit => rw [hunit] at hcw; exact encode_of_decodeCb hcw h
      next hunit => exact encode_of_decodeFr (hword 2 hunit nofun) h
      next hunit => exact encode_of_decodeVi (hword 3 hunit nofun) h
      next hunit => exact encode_of_decodeTlv (hword 4 hunit nofun) h
      next hunit => exact encode_of_decodeAtlv (hword 5 hunit nofun) h
      next hunit => exact encode_of_decodeCp (hword 6 hunit nofun) h
      · cases h

theorem encode_of_decodeMessageFormat (hf : isMessageFormat c.cw = true)
    (h : decodeMessageFormat c = .ok i) : encode i = sampledBy i c := by
  unfold decodeMessageFormat at h
  split at h
  · cases h
  next hlow =>
    have hcw : c.cw = formatM (BitVec.ofNat 7 (tagField c.cw).toNat) := by
      rw [BitVec.ofNat_toNat, BitVec.setWidth_eq]
      exact word_eq_formatM c.cw hf (not_not.mp hlow)
    split at h <;> cases h
    all_goals
      rename_i htag
      rw [sampledBy, hcw, htag]
      rfl

end Encode

/-- Which records decode to an operation: those of which it samples exactly its encoding (R60, R62). -/
theorem decode_eq_ok_iff (c : Command) (i : Instr) : decode c = .ok i ↔ encode i = sampledBy i c := by
  constructor
  · intro h
    rw [decode] at h
    split at h
    next hf => exact encode_of_decodeMessageFormat hf h
    next hf => exact encode_of_decodeUnitFormat (Bool.eq_false_iff.mpr hf) h
  · intro h
    have hdecode := decode_carrying i c
    rwa [carrying_of_encode_eq h] at hdecode

/-- Settles O1: both directions are `decode_eq_ok_iff`, the second read off field by field. -/
theorem encodeDecodeAgree : Obligations.EncodeDecodeAgree := by
  refine ⟨fun i => (decode_eq_ok_iff _ i).mpr (sampledBy_encode i).symm, fun c i h => ?_⟩
  rw [(decode_eq_ok_iff c i).mp h]
  exact ⟨rfl, rfl, rfl, rfl, rfl, rfl⟩

/-- Settles O3: an operation samples the same of both records, and that decides the decoding
(`decode_eq_ok_iff`). -/
theorem unusedOperandsCannotMatter : Obligations.UnusedOperandsCannotMatter := by
  intro c c' i h hcw ha0 ha1 ha2 hd0 hd1
  rw [decode_eq_ok_iff] at h ⊢
  rw [h, sampledBy_congr hcw ha0 ha1 ha2 hd0 hd1]

/-- Settles O4: the eight records are decoded. -/
theorem sampleWordsDecode : Obligations.SampleWordsDecode := by
  unfold Obligations.SampleWordsDecode
  decide

/-! ## The legal words (R64) -/

theorem encode_cw_mem_legalWords (i : Instr) : (encode i).cw.toNat ∈ legalWords := by
  cases i with
  | cbExtend b _ | cbAdvance b _ | cbCompact b | cbStat b | cbDrain b _ =>
    cases b <;> exact of_decide_eq_true rfl
  | _ => exact of_decide_eq_true rfl

/-- Whether a record decodes depends on its command word alone. -/
theorem decode_isOk_congr {c c' : Command} (h : c'.cw = c.cw) : (decode c').isOk = (decode c).isOk := by
  simp only [decode, decodeMessageFormat, decodeUnitFormat, h]
  split
  · split
    · rfl
    · split <;> rfl
  · split
    · rfl
    · split
      · rfl
      · split
        · rfl
        · unfold decodeCb; split <;> rfl
        · unfold decodeFr; split <;> rfl
        · unfold decodeVi; split <;> rfl
        · unfold decodeTlv; split <;> rfl
        · unfold decodeAtlv; split <;> rfl
        · unfold decodeCp; split <;> rfl
        · rfl

theorem legalWords_decode : ∀ w ∈ legalWords, (decode (commandOfTableWord w)).isOk = true := by decide

theorem decode_ok_iff_legal (c : Command) : (∃ i, decode c = .ok i) ↔ c.cw.toNat ∈ legalWords := by
  constructor
  · rintro ⟨i, h⟩
    have hword : (encode i).cw = c.cw := by rw [(decode_eq_ok_iff c i).mp h, sampledBy]
    rw [← hword]
    exact encode_cw_mem_legalWords i
  · intro h
    have hword : c.cw = (commandOfTableWord c.cw.toNat).cw := by
      rw [commandOfTableWord, BitVec.ofNat_toNat, BitVec.setWidth_eq]
    have hok := legalWords_decode _ h
    rw [← decode_isOk_congr hword] at hok
    rcases hd : decode c with why | i
    · rw [hd] at hok
      cases hok
    · exact ⟨i, rfl⟩

/-- Settles O2: the list is counted, `decode_ok_iff_legal` says which records decode, and the step on any other
is that of an illegal command. -/
theorem legalCommandWords : Obligations.LegalCommandWords := by
  refine ⟨rfl, by decide, decode_ok_iff_legal, fun s c rest hb hp hno => ?_⟩
  rcases hd : decode c with why | i
  · exact ⟨_, step_of_illegal hb hp hd, ⟨fun b => by simp, rfl⟩, rfl, rfl, rfl⟩
  · exact absurd ((decode_ok_iff_legal c).mp ⟨i, hd⟩) hno

/-! ## The results of an operation (R65) -/

/-- The response sent last is the one the operation ended with. -/
theorem response_of_complete {p : State × Response} {t : State} {old : List Response} {r : Response}
    (h : complete p = .next t) (hr : t.responses = old ++ [r]) : p.2 = r := by
  rw [(complete_eq_next p t).mp h, State.respond_responses] at hr
  exact List.singleton_inj.mp (List.append_inj_right' hr rfl)

theorem classify_cases (tag len : Nat) :
    classify tag len = .ok ∨ classify tag len = .unknownTag ∨ classify tag len = .invalidEncoding := by
  unfold classify
  split
  · exact .inr (.inl rfl)
  · split
    · exact .inr (.inr rfl)
    · exact .inl rfl
  · exact .inl rfl

/-- Every shape an operation can end in with a status other than `Ok` has default results, but for the record
that `CP.READ` delivers under its class. -/
theorem shape_failure {i : Instr} {s : State} {p : State × Response} (h : Shape i s p)
    (hne : p.2.status ≠ .ok) :
    p.2 = failWith p.2.status ∨
      ∃ dcap, i = .cpRead dcap ∧ (p.2.status = .unknownTag ∨ p.2.status = .invalidEncoding) := by
  cases h with
  | stay r hr =>
    rcases hr with hok | ⟨hdefault, -⟩
    · exact absurd hok hne
    · exact .inl hdefault
  | take b n r hfit hwho hr => exact absurd hr hne
  | read dcap rec hi hp hfit => exact .inr ⟨dcap, hi, (classify_cases _ _).resolve_left hne⟩
  | frame dcap hi => exact .inl ((deliver_status _).resolve_left hne)
  | loadNone | loadBad => exact .inl rfl
  | grow | compact | reset | finish | load => exact absurd rfl hne

/-- Settles O13: it holds of every shape an operation can end in (`shape_failure`). -/
theorem failuresHaveDefaultResults : Obligations.FailuresHaveDefaultResults := by
  intro i s t r hexec hr hne
  obtain ⟨p, hshape, hp⟩ := exec_shape i s
  rw [hp] at hexec
  obtain rfl := response_of_complete hexec hr
  exact shape_failure hshape hne

/-! ## What the host's destinations hold (R65) -/

/-- The bytes a destination can hold; an operation that is given none delivers nothing. -/
def destinationSize : Option Word → Nat
  | some cap => cap.toNat
  | none => 0

/-- The byte strings of a response fit the destinations its operation was given. -/
def FitsHost (i : Instr) (r : Response) : Prop :=
  r.q0.length ≤ destinationSize (dcapOf i) ∧ r.q1.length ≤ destinationSize (acapOf i)

theorem fitsHost_of_empty {i : Instr} {r : Response} (hq0 : r.q0 = []) (hq1 : r.q1 = []) :
    FitsHost i r := by
  rw [FitsHost, hq0, hq1]
  exact ⟨Nat.zero_le _, Nat.zero_le _⟩

theorem fitsHost_appendResult (i : Instr) (s : State) (b : BufId) (built : Except Status (List Byte)) :
    FitsHost i (appendResult s b built).2 := by
  rcases appendResult_cases s b built with ⟨e, -, h⟩ | ⟨bytes, -, -, h⟩ | ⟨bytes, -, -, h⟩ <;> rw [h] <;>
    exact fitsHost_of_empty rfl rfl

theorem fitsHost_consumeResult {i : Instr} (s : State) {parsed : Except Status (Nat × Response)}
    (hp : ∀ n r, parsed = .ok (n, r) → FitsHost i r) : FitsHost i (consumeResult s parsed).2 := by
  rcases consumeResult_cases s parsed with ⟨e, -, h⟩ | ⟨n, r, hok, h⟩ <;> rw [h]
  · exact fitsHost_of_empty rfl rfl
  · exact hp n r hok

theorem fitsHost_deliver {i : Instr} {r : Except Status (List Byte)}
    (hfit : ∀ bytes, r = .ok bytes → bytes.length ≤ destinationSize (dcapOf i)) :
    FitsHost i (deliver r) := by
  cases r with
  | error e => exact fitsHost_of_empty rfl rfl
  | ok bytes => exact ⟨hfit bytes rfl, Nat.zero_le _⟩

/-- What `cobs_enc` delivers fits the capacity it was given (R111). -/
theorem cobsEnc_length {src : List Byte} {cap : Nat} {out : List Byte} (h : cobsEnc src cap = .ok out) :
    out.length ≤ cap := by
  rw [cobsEnc] at h
  split at h
  · cases h
  next hfit => cases h; exact Nat.le_of_not_gt hfit

/-- What `CP.READ` delivers of a record fits the capacity it was parsed with (R191). -/
theorem cpReadResult_bounds {w : List Byte} {dcap k : Nat} {r : Response}
    (h : cpReadResult (tlvParse .w8 w dcap) = .ok (k, r)) : r.q0.length ≤ dcap ∧ r.q1 = [] := by
  unfold cpReadResult at h
  split at h
  · cases h
  next rec hparse =>
    cases h
    obtain ⟨-, hvalue, -⟩ := tlvParse_bounds _ _ _ _ hparse
    exact ⟨hvalue, rfl⟩

/-- Every operation ends with a response that fits the destinations it was given. -/
theorem exec_fitsHost (i : Instr) (s : State) : ∃ p, exec i s = complete p ∧ FitsHost i p.2 := by
  cases i with
  | sysReset | cbStat _ => exact ⟨_, rfl, fitsHost_of_empty rfl rfl⟩
  | cbAdvance _ _ | cbCompact _ =>
    refine ⟨_, rfl, ?_⟩
    split <;> exact fitsHost_of_empty rfl rfl
  | cbDrain b dcap =>
    refine ⟨_, rfl, ?_, Nat.zero_le _⟩
    rw [memReadBytes_length]
    exact Nat.min_le_left _ _
  | frEnc src dcap => exact ⟨_, rfl, fitsHost_deliver fun _ h => cobsEnc_length h⟩
  | frDec src dcap => exact ⟨_, rfl, fitsHost_deliver fun _ h => cobsDec_length _ _ _ h⟩
  | frRead dcap => exact ⟨_, rfl, fitsHost_deliver fun _ h => nextFrame_length _ _ _ h⟩
  | viRu32 =>
    refine ⟨_, rfl, fitsHost_consumeResult s fun n r h => ?_⟩
    obtain ⟨-, -, hq0, hq1⟩ := u32Result_bounds _ n r h
    exact fitsHost_of_empty hq0 hq1
  | viRi32 =>
    refine ⟨_, rfl, fitsHost_consumeResult s fun n r h => ?_⟩
    obtain ⟨-, -, hq0, hq1⟩ := i32Result_bounds _ n r h
    exact fitsHost_of_empty hq0 hq1
  | viRu1 | viRu7 | viRi7 =>
    refine ⟨_, rfl, fitsHost_consumeResult s fun n r h => ?_⟩
    obtain ⟨-, -, hq0, hq1⟩ := narrowRead_bounds _ _ n r h
    exact fitsHost_of_empty hq0 hq1
  | tlvR8 _ | tlvR16 _ | tlvR32 _ =>
    refine ⟨_, rfl, fitsHost_consumeResult s fun n r h => ?_⟩
    obtain ⟨-, -, hq0, hq1⟩ := tlvResult_bounds _ _ _ n r h
    exact ⟨hq0, by simp [hq1]⟩
  | atlvR8 _ _ | atlvR16 _ _ | atlvR32 _ _ =>
    refine ⟨_, rfl, fitsHost_consumeResult s fun n r h => ?_⟩
    obtain ⟨-, -, hfits⟩ := atlvResult_bounds _ _ _ _ n r h
    exact hfits
  | cpRead _ =>
    refine ⟨_, rfl, fitsHost_consumeResult s fun n r h => ?_⟩
    obtain ⟨hq0, hq1⟩ := cpReadResult_bounds h
    exact ⟨hq0, by simp [hq1]⟩
  | cpFinish | cpLoad =>
    refine ⟨_, rfl, ?_⟩
    split <;> exact fitsHost_of_empty rfl rfl
  | cbExtend _ _ | frWrite _ | viWu32 _ | viWi32 _ | viWu1 _ | viWu7 _ | viWi7 _ | tlvW8 _ _
  | tlvW16 _ _ | tlvW32 _ _ | atlvW8 _ _ _ | atlvW16 _ _ _ | atlvW32 _ _ _ | cpBoot _ | cpRun _
  | cpExit _ | cpException _ | cpPanic _ | cpStdin _ | cpStdout _ | cpStderr _ | cpError _ | cpWarn _
  | cpInfo _ | cpDebug _ | cpTrace _ | cpVal _ | cpGet _ | cpSet _ =>
    exact ⟨_, rfl, fitsHost_appendResult ..⟩

/-- The bound on a delivered string, with a destination and without. -/
theorem length_le_destinationSize_iff (q : List Byte) (cap : Option Word) :
    q.length ≤ destinationSize cap ↔
      (∀ c, cap = some c → q.length ≤ c.toNat) ∧ (cap = none → q = []) := by
  cases cap <;> simp [destinationSize]

/-- Settles O14: every operation ends with a response that fits (`exec_fitsHost`), and that response is the one
the host receives. -/
theorem deliveredStringsFitTheHost : Obligations.DeliveredStringsFitTheHost := by
  intro i s t r hexec hr
  obtain ⟨p, hp, hq0, hq1⟩ := exec_fitsHost i s
  rw [hp] at hexec
  obtain rfl := response_of_complete hexec hr
  rw [length_le_destinationSize_iff] at hq0 hq1
  obtain ⟨hdcap, hnodcap⟩ := hq0
  exact ⟨hdcap, hnodcap, hq1⟩

/-! ## The control vocabulary (R82, R170, R172) -/

@[simp] theorem kindOfTag_kindTag (k : Kind) : kindOfTag (kindTag k) = some k := by cases k <;> rfl

theorem kindTag_of_kindOfTag {tag : Nat} {k : Kind} (h : kindOfTag tag = some k) : kindTag k = tag := by
  unfold kindOfTag at h
  split at h <;> cases h <;> rfl

theorem kindTag_eq_exit_iff (k : Kind) : kindTag k = 3 ↔ k = .exit := by cases k <;> decide

/-- The class of a message of the vocabulary: only Exit fixes a length. -/
theorem classify_kindTag (k : Kind) (len : Nat) :
    classify (kindTag k) len = if k = .exit ∧ len ≠ 1 then .invalidEncoding else .ok := by
  rw [classify, kindOfTag_kindTag]
  cases k <;> simp

theorem classify_of_unknown {tag : Nat} (len : Nat) (h : kindOfTag tag = none) :
    classify tag len = .unknownTag := by
  rw [classify, h]

theorem kindOfTag_ne_none_iff (tag : Nat) :
    kindOfTag tag ≠ none ↔
      tag ∈ [1, 2, 3, 4, 5, 0x10, 0x11, 0x12, 0x20, 0x21, 0x22, 0x23, 0x24, 0x30, 0x31, 0x32] := by
  constructor
  · intro h
    obtain ⟨k, hk⟩ := Option.ne_none_iff_exists'.mp h
    rw [← kindTag_of_kindOfTag hk]
    cases k <;> decide
  · have hall : ∀ tag ∈ [1, 2, 3, 4, 5, 0x10, 0x11, 0x12, 0x20, 0x21, 0x22, 0x23, 0x24, 0x30, 0x31, 0x32],
        kindOfTag tag ≠ none := by decide
    exact hall tag

/-- Settles O33: `kind` and `tag` are inverse to each other, so a tag is outside the vocabulary or the tag of one
kind, and `classify` is known on both. -/
theorem vocabularyIsClosed : Obligations.VocabularyIsClosed := by
  refine ⟨kindOfTag_kindTag, fun _ _ => kindTag_of_kindOfTag, kindOfTag_ne_none_iff, fun tag len => ?_⟩
  rcases h : kindOfTag tag with _ | k
  · rw [if_pos rfl, classify_of_unknown len h]
  · obtain rfl := kindTag_of_kindOfTag h
    rw [if_neg (Option.some_ne_none k), classify_kindTag]
    simp only [kindTag_eq_exit_iff]

end Sys2Proof.Machine

/-! PROOF. What appending and setting a buffer do to the state, and the statements of 40_cursor_buffer.md: the
results of the five operations of unit CB. -/

namespace Sys2Proof.Machine

/-! ## Appending a string -/

theorem appendResult_of_fits {s : State} {b : BufId} {bytes : List Byte} (hfit : bytes.length ≤ s.space b) :
    appendResult s b (.ok bytes) =
      (s.setBuf b (appendBytes (s.buf b) bytes), { status := .ok, r0 := wordOf bytes.length }) := by
  rw [appendResult, (append_eq_some s _ b bytes).mpr ⟨hfit, rfl⟩]

theorem appendResult_of_short {s : State} {b : BufId} {bytes : List Byte} (hshort : s.space b < bytes.length) :
    appendResult s b (.ok bytes) = (s, failWith .bufferTooShort) := by
  rw [appendResult, append, if_pos hshort]

/-- An operation that ends by appending a string appends all of it or nothing (R100). -/
theorem appends_whole_or_bufferTooShort {i : Instr} {s : State} {b : BufId} {bytes : List Byte} (hs : s.Inv)
    (h : exec i s = complete (appendResult s b (.ok bytes))) :
    (bytes.length ≤ s.space b → AppendsAndAnswers i s b bytes) ∧
      (s.space b < bytes.length → OnlyAnswers i s { status := .bufferTooShort }) := by
  constructor
  · intro hfit
    rw [appendResult_of_fits hfit] at h
    exact appendsAndAnswers_of i s b bytes hs hfit h
  · intro hshort
    rw [appendResult_of_short hshort] at h
    exact onlyAnswers_of i s _ h

/-! ## Setting one buffer and responding -/

theorem othersSame_setBuf_respond (s : State) (b : BufId) (c : CursorBuffer) (r : Response) :
    OthersSame s ((s.setBuf b c).respond r) b :=
  ⟨fun b' hne => by rw [State.buf_respond, State.buf_setBuf_ne _ _ _ _ hne],
    by rw [State.respond_resync, State.setBuf_resync]⟩

theorem answered_setBuf_respond (s : State) (b : BufId) (c : CursorBuffer) (r : Response) :
    Answered s ((s.setBuf b c).respond r) r :=
  ⟨by rw [State.respond_responses, State.setBuf_responses],
    by rw [State.respond_pending, State.setBuf_pending],
    by rw [State.respond_caps, State.setBuf_caps]⟩

/-! ## Cursors as words -/

/-- Every number that a good state keeps for a buffer survives as a result word (R6). -/
theorem State.Inv.wordOf_toNat_of_le_cap {s : State} (hs : s.Inv) (b : BufId) {n : Nat} (hn : n ≤ s.cap b) :
    (wordOf n).toNat = n :=
  wordOf_toNat n (Nat.lt_of_le_of_lt hn (hs.cap_lt b))

theorem State.Inv.remaining_le_cap {s : State} (hs : s.Inv) (b : BufId) : remaining (s.buf b) ≤ s.cap b := by
  obtain ⟨-, htail, -, -⟩ := hs.buffer b
  exact Nat.le_trans (Nat.sub_le _ _) htail

/-! ## One equation per outcome of a CB operation -/

theorem exec_cbExtend (b : BufId) (bytes : List Byte) (s : State) :
    exec (.cbExtend b bytes) s = complete (appendResult s b (.ok bytes)) :=
  rfl

theorem exec_cbAdvance_of_le {b : BufId} {n : Word} {s : State} (h : n.toNat ≤ remaining (s.buf b)) :
    exec (.cbAdvance b n) s = complete (consume s b n.toNat, { status := .ok }) :=
  congrArg complete (if_neg (Nat.not_lt_of_le h))

theorem exec_cbAdvance_of_lt {b : BufId} {n : Word} {s : State} (h : remaining (s.buf b) < n.toNat) :
    exec (.cbAdvance b n) s = complete (s, failWith .sourceTooShort) :=
  congrArg complete (if_pos h)

theorem exec_cbCompact_of_empty {b : BufId} {s : State} (h : (s.buf b).head = (s.buf b).tail) :
    exec (.cbCompact b) s =
      complete (s.setBuf b (resetCursors (s.buf b)), { status := .ok, r0 := 1#32 }) :=
  congrArg complete (if_pos h)

theorem exec_cbCompact_of_nonempty {b : BufId} {s : State} (h : (s.buf b).head ≠ (s.buf b).tail) :
    exec (.cbCompact b) s = complete (s, { status := .ok }) :=
  congrArg complete (if_neg h)

theorem exec_cbStat (b : BufId) (s : State) :
    exec (.cbStat b) s =
      complete (s, { status := .ok, r0 := wordOf (s.buf b).head, r1 := wordOf (s.buf b).tail,
                     r2 := wordOf (s.cap b) }) :=
  rfl

/-- The bytes `CB.DRAIN` reads from memory are the front of the window (R105). -/
theorem exec_cbDrain (b : BufId) (dcap : Word) (s : State) :
    exec (.cbDrain b dcap) s =
      complete (consume s b (min dcap.toNat (remaining (s.buf b))),
        { status := .ok
          r0 := wordOf (min dcap.toNat (remaining (s.buf b)))
          q0 := (window (s.buf b)).take (min dcap.toNat (remaining (s.buf b))) }) := by
  rw [window, memReadBytes_take, Nat.min_eq_left (Nat.min_le_right _ _)]
  rfl

/-! ## The statements -/

/-- Settles O35: CB.EXTEND is the append of its string. -/
theorem cbExtendResult : Obligations.CbExtendResult :=
  fun b bytes s hs => appends_whole_or_bufferTooShort hs (exec_cbExtend b bytes s)

/-- Settles O39: the bytes consumed are at most `remaining`, so their number is exact as a word, and those
delivered are the front of the window (`exec_cbDrain`). -/
theorem cbDrainResult : Obligations.CbDrainResult := by
  intro b dcap s hs
  have hexact : (wordOf (min dcap.toNat (remaining (s.buf b)))).toNat = min dcap.toNat (remaining (s.buf b)) :=
    hs.wordOf_toNat_of_le_cap b (Nat.le_trans (Nat.min_le_right _ _) (hs.remaining_le_cap b))
  obtain ⟨t, hexec, hconsumed, hanswered⟩ := consumed_of _ s b _ _ (exec_cbDrain b dcap s)
  refine ⟨t, _, hexec, hexact, ?_, ?_⟩ <;> rwa [hexact]

/-- Settles O36: one equation of CB.ADVANCE on each side of `remaining`. -/
theorem cbAdvanceResult : Obligations.CbAdvanceResult :=
  fun b n s _ => ⟨fun hle => consumed_of _ s b n.toNat _ (exec_cbAdvance_of_le hle),
    fun hlt => onlyAnswers_of _ s _ (exec_cbAdvance_of_lt hlt)⟩

/-- Settles O37: an empty buffer has its cursors reset, which writes no byte; any other is left alone. -/
theorem cbCompactResult : Obligations.CbCompactResult := by
  refine fun b s => ⟨fun hempty => ?_, fun hne => onlyAnswers_of _ s _ (exec_cbCompact_of_nonempty hne)⟩
  have hbuf (r : Response) : ((s.setBuf b (resetCursors (s.buf b))).respond r).buf b = resetCursors (s.buf b) := by
    rw [State.buf_respond, State.buf_setBuf_same]
  refine ⟨_, exec_cbCompact_of_empty hempty, ?_, ?_, fun a => ?_, othersSame_setBuf_respond ..,
    answered_setBuf_respond ..⟩ <;> rw [hbuf] <;> rfl

/-- Settles O38: in a good state the cursors are at most the capacity, so all three numbers are exact as words. -/
theorem cbStatResult : Obligations.CbStatResult := by
  intro b s hs
  obtain ⟨hin, htail, -, -⟩ := hs.buffer b
  exact ⟨_, _, _, hs.wordOf_toNat_of_le_cap b (Nat.le_trans hin htail), hs.wordOf_toNat_of_le_cap b htail,
    hs.wordOf_toNat_of_le_cap b (Nat.le_refl _), onlyAnswers_of _ s _ (exec_cbStat b s)⟩

end Sys2Proof.Machine

/-! PROOF. The byte-stuffing codec as one equation per group, and the statements of 41_frame_codec.md: unstuffing
inverts stuffing, the shape of a stuffed frame, and the results of the four operations of unit FR and of the
stream Reader. -/

namespace Sys2Proof.Machine

/-! ## Decoding group by group (R113) -/

/-- Turns beyond the length of the source are never taken. -/
theorem unstuffGroups_fuel_congr {fuel fuel' : Nat} {src : List Byte} (room : Nat) (h : src.length ≤ fuel)
    (h' : src.length ≤ fuel') : unstuffGroups fuel src room = unstuffGroups fuel' src room := by
  induction fuel generalizing fuel' src room with
  | zero =>
    obtain rfl := List.eq_nil_of_length_eq_zero (Nat.le_zero.mp h)
    cases fuel' <;> rfl
  | succ fuel ih =>
    cases src with
    | nil => cases fuel' <;> rfl
    | cons code rest =>
      cases fuel' with
      | zero => cases h'
      | succ fuel' =>
        have hrest (n room : Nat) :
            unstuffGroups fuel (rest.drop n) room = unstuffGroups fuel' (rest.drop n) room := by
          rw [List.length_cons] at h h'
          exact ih room (by rw [List.length_drop]; omega) (by rw [List.length_drop]; omega)
        simp only [unstuffGroups, hrest]

theorem unstuffGroups_eq_cobsDec {fuel : Nat} {src : List Byte} (room : Nat) (h : src.length ≤ fuel) :
    unstuffGroups fuel src room = cobsDec src room :=
  unstuffGroups_fuel_congr room h (Nat.le_refl _)

@[simp] theorem cobsDec_nil (cap : Nat) : cobsDec [] cap = .ok [] := rfl

theorem cobsDec_zero_header (rest : List Byte) (cap : Nat) :
    cobsDec (0#8 :: rest) cap = .error .unexpectedNull := rfl

theorem ne_zero_of_toNat_pos {b : Byte} (h : 0 < b.toNat) : b ≠ 0#8 := by
  rintro rfl
  cases h

theorem cobsDec_of_header_too_long {code : Byte} {rest : List Byte} (cap : Nat)
    (h : rest.length + 1 < code.toNat) : cobsDec (code :: rest) cap = .error .sourceTooShort := by
  rw [cobsDec, List.length_cons, unstuffGroups, if_neg (ne_zero_of_toNat_pos (by omega))]
  exact if_pos (by omega)

/-- What a group adds to the payload: its literals, and a zero byte unless the group is full or the last
(R113). -/
def groupOutput (code : Byte) (lits rest : List Byte) : List Byte :=
  if code = 0xFF#8 ∨ rest = [] then lits else lits ++ [0#8]

theorem toNat_lt_0xFF_iff (b : Byte) : b.toNat < 0xFF ↔ b ≠ 0xFF#8 := by bv_omega

section Group

variable {code : Byte} {lits rest : List Byte}

theorem groupOutput_of_closed (h : code = 0xFF#8 ∨ rest = []) : groupOutput code lits rest = lits := if_pos h

theorem groupOutput_of_open (hcode : code ≠ 0xFF#8) (hrest : rest ≠ []) :
    groupOutput code lits rest = lits ++ [0#8] :=
  if_neg (not_or.mpr ⟨hcode, hrest⟩)

theorem le_groupOutput_length (code : Byte) (lits rest : List Byte) :
    lits.length ≤ (groupOutput code lits rest).length := by
  unfold groupOutput
  split <;> simp

theorem groupOutput_length_le (code : Byte) (lits rest : List Byte) :
    (groupOutput code lits rest).length ≤ lits.length + min 1 rest.length := by
  unfold groupOutput
  split
  · exact Nat.le_add_right ..
  next hopen =>
    have := List.length_pos_iff.mpr (not_or.mp hopen).2
    rw [List.length_append, List.length_singleton]
    omega

theorem cobsDec_of_zero_literal {k : Nat} (cap : Nat) (hlen : lits.length + 1 = code.toNat)
    (hz : firstZero lits = some k) :
    cobsDec (code :: (lits ++ rest)) cap = .error (if k ≤ cap then .unexpectedNull else .destTooShort) := by
  have htake : code.toNat - 1 = lits.length := by omega
  have hcode := ne_zero_of_toNat_pos (b := code) (by omega)
  simp [cobsDec, unstuffGroups, hcode, htake, copyLiterals_eq, hz]

/-- The decoder takes one group of non-zero literals: it adds `groupOutput`, if there is room for it, and goes
on with the source behind the group. -/
theorem cobsDec_group (cap : Nat) (hlen : lits.length + 1 = code.toNat) (hz : firstZero lits = none) :
    cobsDec (code :: (lits ++ rest)) cap =
      if (groupOutput code lits rest).length ≤ cap then
        (cobsDec rest (cap - (groupOutput code lits rest).length)).map (groupOutput code lits rest ++ ·)
      else .error .destTooShort := by
  have htake : code.toNat - 1 = lits.length := by omega
  have hcode := ne_zero_of_toNat_pos (b := code) (by omega)
  have hin : ¬lits.length > lits.length + rest.length := by omega
  have hgroups (room : Nat) : unstuffGroups (lits.length + rest.length) rest room = cobsDec rest room :=
    unstuffGroups_eq_cobsDec room (Nat.le_add_left ..)
  rw [cobsDec, List.length_cons, List.length_append, unstuffGroups, if_neg hcode]
  simp only [htake, List.length_append, hin, if_false, List.take_left, List.drop_left, hgroups,
    copyLiterals_eq, hz]
  -- What is left of the turn: whether the literals fit, and then whether a zero follows them.
  by_cases hfit : lits.length ≤ cap
  · simp only [hfit, if_true]
    by_cases hclosed : code = 0xFF#8 ∨ rest = []
    · have hturn : ¬(code.toNat < 0xFF ∧ rest ≠ []) := by
        rwa [toNat_lt_0xFF_iff, ← not_or, not_not]
      rw [if_neg hturn, groupOutput_of_closed hclosed, if_pos hfit]
      cases cobsDec rest (cap - lits.length) <;> rfl
    · obtain ⟨hcode, hrest⟩ := not_or.mp hclosed
      rw [if_pos ⟨(toNat_lt_0xFF_iff code).mpr hcode, hrest⟩, groupOutput_of_open hcode hrest,
        List.length_append, List.length_singleton, ← Nat.sub_sub]
      rcases hroom : cap - lits.length with _ | room
      · rw [if_neg (by omega)]
      · rw [if_pos (by omega)]
        simp only [Nat.add_sub_cancel]
        cases cobsDec rest room <;> simp [Except.map]
  · have hout := le_groupOutput_length code lits rest
    rw [if_neg hfit, if_neg (by omega)]

/-- A group that decodes holds no zero among its literals, and the rest of the source decodes too. -/
theorem cobsDec_group_eq_ok {cap : Nat} {out : List Byte} (hlen : lits.length + 1 = code.toNat)
    (h : cobsDec (code :: (lits ++ rest)) cap = .ok out) :
    firstZero lits = none ∧
      ∃ room tail, cobsDec rest room = .ok tail ∧ out = groupOutput code lits rest ++ tail := by
  rcases hz : firstZero lits with _ | k
  · rw [cobsDec_group cap hlen hz] at h
    split at h
    · rcases hrest : cobsDec rest (cap - (groupOutput code lits rest).length) with e | tail
      · rw [hrest] at h; cases h
      · rw [hrest] at h; cases h; exact ⟨rfl, _, tail, hrest, rfl⟩
    · cases h
  · rw [cobsDec_of_zero_literal cap hlen hz] at h
    cases h

/-- The payload as the destination can hold it: delivered whole, or `DestTooShort`. -/
def fitted (out : List Byte) (cap : Nat) : Except Status (List Byte) :=
  if out.length ≤ cap then .ok out else .error .destTooShort

theorem cobsDec_group_eq_fitted {tail : List Byte} (hlen : lits.length + 1 = code.toNat)
    (hz : firstZero lits = none) (h : ∀ cap, cobsDec rest cap = fitted tail cap) (cap : Nat) :
    cobsDec (code :: (lits ++ rest)) cap = fitted (groupOutput code lits rest ++ tail) cap := by
  rw [cobsDec_group cap hlen hz, h, fitted, fitted, List.length_append]
  by_cases hgroup : (groupOutput code lits rest).length ≤ cap
  · rw [if_pos hgroup]
    by_cases htail : tail.length ≤ cap - (groupOutput code lits rest).length
    · rw [if_pos htail, if_pos (by omega)]; rfl
    · rw [if_neg htail, if_neg (by omega)]; rfl
  · rw [if_neg hgroup, if_neg (by omega)]

end Group

/-- Every source is empty, or begins with a zero header, a header that claims more than remains, or a whole
group. -/
theorem groups_induction {motive : List Byte → Prop} (nil : motive [])
    (zero : ∀ rest, motive (0#8 :: rest))
    (long : ∀ (code : Byte) rest, rest.length + 1 < code.toNat → motive (code :: rest))
    (group : ∀ (code : Byte) lits rest, lits.length + 1 = code.toNat → motive rest →
      motive (code :: (lits ++ rest)))
    (src : List Byte) : motive src := by
  match src with
  | [] => exact nil
  | code :: rest =>
    by_cases hcode : code = 0#8
    · exact hcode ▸ zero rest
    · by_cases hlong : rest.length + 1 < code.toNat
      · exact long code rest hlong
      · have hpos : code.toNat ≠ 0 := fun h => hcode (BitVec.eq_of_toNat_eq h)
        rw [← List.take_append_drop (code.toNat - 1) rest]
        refine group code _ _ ?_ (groups_induction nil zero long group _)
        rw [List.length_take]
        omega
termination_by src.length

/-! ## The capacity matters only to whether the payload fits (R113 (b)) -/

theorem cobsDec_eq_fitted {src out : List Byte} {cap : Nat} (h : cobsDec src cap = .ok out) (cap' : Nat) :
    cobsDec src cap' = fitted out cap' := by
  induction src using groups_induction generalizing out cap cap' with
  | nil => cases h; rfl
  | zero rest => cases h
  | long code rest hlong => rw [cobsDec_of_header_too_long cap hlong] at h; cases h
  | group code lits rest hlen ih =>
    obtain ⟨hz, room, tail, hrest, rfl⟩ := cobsDec_group_eq_ok hlen h
    exact cobsDec_group_eq_fitted hlen hz (ih hrest) cap'

theorem cobsDec_ne_destTooShort {src : List Byte} {cap : Nat} (h : src.length - 1 ≤ cap) :
    cobsDec src cap ≠ .error .destTooShort := by
  induction src using groups_induction generalizing cap with
  | nil => exact nofun
  | zero rest => exact nofun
  | long code rest hlong => rw [cobsDec_of_header_too_long cap hlong]; exact nofun
  | group code lits rest hlen ih =>
    rw [List.length_cons, List.length_append, Nat.add_sub_cancel] at h
    rcases hz : firstZero lits with _ | k
    · have hout := groupOutput_length_le code lits rest
      have htail := ih (cap := cap - (groupOutput code lits rest).length) (by omega)
      rw [cobsDec_group cap hlen hz, if_pos (by omega)]
      rcases hrest : cobsDec rest (cap - (groupOutput code lits rest).length) with e | tail
      · rw [hrest] at htail
        simpa [Except.map] using htail
      · exact nofun
    · have hk := firstZero_lt _ _ hz
      rw [cobsDec_of_zero_literal cap hlen hz, if_pos (by omega)]
      exact nofun

/-! ## Stuffing (R110) -/

section Stuff

variable {c : Byte} {rest grp : List Byte}

theorem stuffFrom_zero : stuffFrom (0#8 :: rest) grp = byteOf (grp.length + 1) :: (grp ++ stuffFrom rest []) := by
  simp [stuffFrom]

theorem stuffFrom_full (hc : c ≠ 0#8) (hfull : grp.length + 1 = 254) :
    stuffFrom (c :: rest) grp = 0xFF#8 :: ((grp ++ [c]) ++ stuffFrom rest []) := by
  simp [stuffFrom, hc, hfull]

theorem stuffFrom_literal (hc : c ≠ 0#8) (hroom : grp.length + 1 ≠ 254) :
    stuffFrom (c :: rest) grp = stuffFrom rest (grp ++ [c]) := by
  simp [stuffFrom, hc, hroom]

end Stuff

theorem stuffFrom_nil (grp : List Byte) : stuffFrom [] grp = byteOf (grp.length + 1) :: grp := rfl

/-- What the loop of `E` keeps of its open group: it is shorter than a full one and holds no zero. -/
def OpenGroup (grp : List Byte) : Prop := grp.length < 254 ∧ ∀ b ∈ grp, b ≠ 0#8

theorem openGroup_nil : OpenGroup [] := ⟨by decide, nofun⟩

/-- The loop of `E` turn by turn: the input ends, a zero closes the group, the 254th literal fills it, or a
literal joins it. -/
theorem stuff_induction {motive : ∀ _ grp : List Byte, OpenGroup grp → Prop}
    (nil : ∀ grp h, motive [] grp h)
    (zero : ∀ rest grp h, motive rest [] openGroup_nil → motive (0#8 :: rest) grp h)
    (full : ∀ c rest grp h, c ≠ 0#8 → grp.length + 1 = 254 → (∀ b ∈ grp ++ [c], b ≠ 0#8) →
      motive rest [] openGroup_nil → motive (c :: rest) grp h)
    (literal : ∀ c rest grp h h', c ≠ 0#8 → grp.length + 1 ≠ 254 → motive rest (grp ++ [c]) h' →
      motive (c :: rest) grp h)
    (s grp : List Byte) (h : OpenGroup grp) : motive s grp h := by
  induction s generalizing grp with
  | nil => exact nil grp h
  | cons c rest ih =>
    by_cases hc : c = 0#8
    · subst hc
      exact zero rest grp h (ih [] openGroup_nil)
    · obtain ⟨hlen, hgrp⟩ := h
      have hlits : ∀ b ∈ grp ++ [c], b ≠ 0#8 :=
        List.forall_mem_append.mpr ⟨hgrp, List.forall_mem_singleton.mpr hc⟩
      by_cases hfull : grp.length + 1 = 254
      · exact full c rest grp _ hc hfull hlits (ih [] openGroup_nil)
      · have h' : OpenGroup (grp ++ [c]) := ⟨by rw [List.length_append, List.length_singleton]; omega, hlits⟩
        exact literal c rest grp _ h' hc hfull (ih _ h')

/-- The length of the frame still to be written, when the open zero-free run holds `run` bytes and its last,
unfinished group is `grp` (R112). -/
theorem stuffFrom_length (s grp : List Byte) (h : OpenGroup grp) :
    ∀ run, run % 254 = grp.length →
      (stuffFrom s grp).length + run / 254 = grp.length + s.length + 1 + fullRuns s run := by
  induction s, grp, h using stuff_induction with
  | nil grp h => exact fun _ _ => rfl
  | zero rest grp h ih =>
    intro run hrun
    have := ih 0 rfl
    simp only [stuffFrom_zero, fullRuns, if_true, List.length_cons, List.length_append, List.length_nil] at this ⊢
    omega
  | full c rest grp h hc hfull hlits ih =>
    intro run hrun
    have := ih (run + 1) (by rw [List.length_nil]; omega)
    simp only [stuffFrom_full hc hfull, fullRuns, if_neg hc, List.length_cons, List.length_append,
      List.length_nil] at this ⊢
    omega
  | literal c rest grp h h' hc hroom ih =>
    intro run hrun
    have hgrp : (grp ++ [c]).length = grp.length + 1 := List.length_append
    have := ih (run + 1) (by have := h'.1; omega)
    rw [stuffFrom_literal hc hroom, fullRuns, if_neg hc, List.length_cons]
    omega

theorem stuff_length (s : List Byte) : (stuff s).length = s.length + 1 + fullRuns s 0 := by
  have := stuffFrom_length s [] openGroup_nil 0 rfl
  rw [List.length_nil] at this
  rw [stuff]
  omega

theorem stuff_ne_nil (s : List Byte) : stuff s ≠ [] := by
  rw [← List.length_pos_iff, stuff_length]
  omega

theorem fullRuns_le (s : List Byte) (run : Nat) : fullRuns s run ≤ (run + s.length) / 254 := by
  induction s generalizing run with
  | nil => exact Nat.le_refl _
  | cons c rest ih =>
    rw [fullRuns, List.length_cons]
    split
    · have := ih 0
      omega
    · have := ih (run + 1)
      omega

/-- A string without a zero is one run. -/
theorem fullRuns_of_no_zero {s : List Byte} (hs : ∀ b ∈ s, b ≠ 0#8) (run : Nat) :
    fullRuns s run = (run + s.length) / 254 := by
  induction s generalizing run with
  | nil => rfl
  | cons c rest ih =>
    obtain ⟨hc, hrest⟩ := List.forall_mem_cons.mp hs
    rw [fullRuns, if_neg hc, ih hrest, List.length_cons, Nat.add_assoc, Nat.add_comm 1]

theorem OpenGroup.header_toNat {grp : List Byte} (h : OpenGroup grp) :
    (byteOf (grp.length + 1)).toNat = grp.length + 1 :=
  byteOf_toNat _ (Nat.lt_succ_of_lt (Nat.succ_lt_succ h.1))

theorem OpenGroup.has_no_zero {grp : List Byte} (h : OpenGroup grp) : firstZero grp = none :=
  (firstZero_eq_none grp).mpr h.2

theorem stuffFrom_no_zero (s grp : List Byte) (h : OpenGroup grp) : ∀ b ∈ stuffFrom s grp, b ≠ 0#8 := by
  have hheader {grp : List Byte} (h : OpenGroup grp) : byteOf (grp.length + 1) ≠ 0#8 :=
    ne_zero_of_toNat_pos (by rw [h.header_toNat]; exact Nat.succ_pos _)
  induction s, grp, h using stuff_induction with
  | nil grp h => exact List.forall_mem_cons.mpr ⟨hheader h, h.2⟩
  | zero rest grp h ih =>
    rw [stuffFrom_zero]
    exact List.forall_mem_cons.mpr ⟨hheader h, List.forall_mem_append.mpr ⟨h.2, ih⟩⟩
  | full c rest grp h hc hfull hlits ih =>
    rw [stuffFrom_full hc hfull]
    exact List.forall_mem_cons.mpr ⟨by decide, List.forall_mem_append.mpr ⟨hlits, ih⟩⟩
  | literal c rest grp h h' hc hroom ih => rwa [stuffFrom_literal hc hroom]

/-- The decoder reads the groups that the encoder writes (R114 (a)). -/
theorem cobsDec_stuffFrom (s grp : List Byte) (h : OpenGroup grp) :
    ∀ cap, cobsDec (stuffFrom s grp) cap = fitted (grp ++ s) cap := by
  induction s, grp, h using stuff_induction with
  | nil grp h =>
    intro cap
    have hgroup := cobsDec_group_eq_fitted (rest := []) (tail := []) h.header_toNat.symm h.has_no_zero
      (fun _ => rfl) cap
    rw [groupOutput_of_closed (.inr rfl)] at hgroup
    rwa [stuffFrom_nil, ← List.append_nil (_ :: grp)]
  | zero rest grp h ih =>
    intro cap
    have hrest : stuffFrom rest [] ≠ [] := stuff_ne_nil rest
    have hopen : byteOf (grp.length + 1) ≠ 0xFF#8 := by
      rw [← toNat_lt_0xFF_iff, h.header_toNat]
      exact Nat.succ_lt_succ h.1
    rw [stuffFrom_zero, cobsDec_group_eq_fitted h.header_toNat.symm h.has_no_zero ih,
      groupOutput_of_open hopen hrest, List.nil_append, List.append_assoc, List.singleton_append]
  | full c rest grp h hc hfull hlits ih =>
    intro cap
    have hlen : (grp ++ [c]).length + 1 = (0xFF#8 : Byte).toNat := by
      rw [List.length_append, List.length_singleton, hfull]
      rfl
    rw [stuffFrom_full hc hfull, cobsDec_group_eq_fitted hlen ((firstZero_eq_none _).mpr hlits) ih,
      groupOutput_of_closed (.inl rfl), List.nil_append, List.append_assoc, List.singleton_append]
  | literal c rest grp h h' hc hroom ih =>
    intro cap
    rw [stuffFrom_literal hc hroom, ih, List.append_assoc, List.singleton_append]

/-- An index that the search finds stays the first zero when bytes are added behind. -/
theorem firstZero_append {w : List Byte} {z : Nat} (h : firstZero w = some z) (more : List Byte) :
    firstZero (w ++ more) = some z := by
  induction w generalizing z with
  | nil => cases h
  | cons b rest ih =>
    rw [firstZero] at h
    rw [List.cons_append, firstZero]
    split at h
    next hb => rw [if_pos hb, h]
    next hb =>
      obtain ⟨y, hy, rfl⟩ := Option.map_eq_some_iff.mp h
      rw [if_neg hb, ih hy, Option.map_some]

/-- The terminator behind bytes that are not zero is the one the search finds. -/
theorem firstZero_terminated {w : List Byte} (hw : ∀ b ∈ w, b ≠ 0#8) :
    firstZero (w ++ [0#8]) = some w.length := by
  induction w with
  | nil => rfl
  | cons b rest ih =>
    obtain ⟨hb, hrest⟩ := List.forall_mem_cons.mp hw
    rw [List.cons_append, firstZero, if_neg hb, ih hrest, Option.map_some, List.length_cons]

/-! ## The statements about the codec -/

/-- Settles O20: the decoder reads the groups that the encoder writes, turn by turn (`cobsDec_stuffFrom`). -/
theorem unstuffInvertsStuff : Obligations.UnstuffInvertsStuff := by
  intro s cap
  rw [stuff, cobsDec_stuffFrom s [] openGroup_nil]
  exact ⟨fun hfit => if_pos hfit, fun hshort => if_neg (Nat.not_le_of_gt hshort)⟩

/-- Settles O21: headers and literals are not zero, so the search stops at the terminator. -/
theorem stuffedFramesHoldNoZero : Obligations.StuffedFramesHoldNoZero := by
  intro s
  have hs : ∀ b ∈ stuff s, b ≠ 0#8 := stuffFrom_no_zero s [] openGroup_nil
  exact ⟨hs, stuff_ne_nil s, fun rest => firstZero_append (firstZero_terminated hs) rest⟩

/-- Settles O22: the exact length, and the bounds of its last summand. -/
theorem stuffedLengthIsExact : Obligations.StuffedLengthIsExact := by
  intro s
  have hlen := stuff_length s
  have hle := fullRuns_le s 0
  rw [Nat.zero_add] at hle
  refine ⟨hlen, by omega, by omega, fun hs => ?_⟩
  rw [hlen, fullRuns_of_no_zero hs, Nat.zero_add]

/-- Settles O23: the capacity matters only to whether the payload fits. -/
theorem unstuffFailsOnlyWhenItDoesNotFit : Obligations.UnstuffFailsOnlyWhenItDoesNotFit :=
  fun src => ⟨fun cap out h => ⟨cobsDec_length src cap out h, cobsDec_eq_fitted h⟩,
    fun _ h => cobsDec_ne_destTooShort h⟩

/-! ## One equation per outcome of an FR operation -/

theorem exec_frEnc (src : List Byte) (dcap : Word) (s : State) :
    exec (.frEnc src dcap) s = complete (s, deliver (cobsEnc src dcap.toNat)) :=
  rfl

theorem exec_frDec (src : List Byte) (dcap : Word) (s : State) :
    exec (.frDec src dcap) s = complete (s, deliver (cobsDec src dcap.toNat)) :=
  rfl

theorem exec_frWrite (src : List Byte) (s : State) :
    exec (.frWrite src) s = complete (appendResult s .txf (.ok (terminatedFrame src))) :=
  rfl

theorem exec_frRead (dcap : Word) (s : State) :
    exec (.frRead dcap) s =
      complete ((nextFrame s dcap.toNat).1, deliver (nextFrame s dcap.toNat).2) :=
  rfl

theorem cobsEnc_of_fits {src : List Byte} {cap : Nat} (h : (stuff src).length ≤ cap) :
    cobsEnc src cap = .ok (stuff src) :=
  if_neg (Nat.not_lt_of_le h)

theorem cobsEnc_of_short {src : List Byte} {cap : Nat} (h : cap < (stuff src).length) :
    cobsEnc src cap = .error .bufferTooShort :=
  if_pos h

/-- A number of delivered bytes survives as a result word (R65). -/
theorem wordOf_toNat_of_le {n : Nat} {cap : Word} (h : n ≤ cap.toNat) : (wordOf n).toNat = n :=
  wordOf_toNat n (Nat.lt_of_le_of_lt h cap.isLt)

theorem onlyAnswers_of_delivered {i : Instr} {s : State} {out : List Byte} {cap : Word}
    (hfit : out.length ≤ cap.toNat) (h : exec i s = complete (s, deliver (.ok out))) :
    ∃ n : Word, n.toNat = out.length ∧ OnlyAnswers i s { status := .ok, r0 := n, q0 := out } :=
  ⟨_, wordOf_toNat_of_le hfit, onlyAnswers_of i s _ h⟩

theorem terminatedFrame_length (src : List Byte) : (terminatedFrame src).length = (stuff src).length + 1 := by
  rw [terminatedFrame, List.length_append, List.length_singleton]

/-! ## The statements about FR.ENC, FR.DEC and FR.WRITE -/

/-- Settles O40: the bounded encoder answers the stuffed string when it fits. -/
theorem frEncResult : Obligations.FrEncResult := by
  refine fun src dcap s => ⟨fun hfit => ?_, fun hshort => ?_⟩
  · exact onlyAnswers_of_delivered hfit (by rw [exec_frEnc, cobsEnc_of_fits hfit])
  · exact onlyAnswers_of _ s _ (by rw [exec_frEnc, cobsEnc_of_short hshort, deliver, failWith])

/-- `cobsDec_group` with the bytes a group adds written out, case by case (R113). -/
theorem cobsDec_group_cases {code : Byte} {lits : List Byte} (rest : List Byte) (cap : Nat)
    (hlen : lits.length + 1 = code.toNat) (hz : firstZero lits = none) :
    cobsDec (code :: (lits ++ rest)) cap =
      if cap < lits.length then .error .destTooShort
      else if rest = [] then .ok lits
      else if code = 0xFF#8 then (cobsDec rest (cap - lits.length)).map (fun out => lits ++ out)
      else if cap = lits.length then .error .destTooShort
      else (cobsDec rest (cap - lits.length - 1)).map (fun out => lits ++ 0#8 :: out) := by
  rw [cobsDec_group cap hlen hz]
  by_cases hroom : cap < lits.length
  · have hout := le_groupOutput_length code lits rest
    rw [if_pos hroom, if_neg (by omega)]
  · rw [if_neg hroom]
    by_cases hrest : rest = []
    · subst hrest
      rw [if_pos rfl, groupOutput_of_closed (.inr rfl), if_pos (by omega), cobsDec_nil, Except.map,
        List.append_nil]
    · rw [if_neg hrest]
      by_cases hcode : code = 0xFF#8
      · rw [if_pos hcode, groupOutput_of_closed (.inl hcode), if_pos (by omega)]
      · rw [if_neg hcode, groupOutput_of_open hcode hrest, List.length_append, List.length_singleton,
          Nat.sub_sub]
        by_cases hfull : cap = lits.length
        · rw [if_pos hfull, if_neg (by omega)]
        · simp only [if_neg hfull, List.append_assoc, List.singleton_append]
          rw [if_pos (by omega)]

/-- Settles O41: FR.DEC answers what the decoder does, and the decoder has one equation for each way a source can
begin. -/
theorem frDecResult : Obligations.FrDecResult := by
  refine ⟨fun src dcap s => ⟨fun p hp => ?_, fun e he => ⟨cobsDec_error _ _ _ he, ?_⟩⟩, cobsDec_nil,
    cobsDec_zero_header, fun _ _ cap h => cobsDec_of_header_too_long cap h, fun _ _ rest cap hlen =>
      ⟨fun _ hz => cobsDec_of_zero_literal cap hlen hz, fun hz => cobsDec_group_cases rest cap hlen hz⟩⟩
  · exact onlyAnswers_of_delivered (cobsDec_length _ _ _ hp) (by rw [exec_frDec, hp])
  · exact onlyAnswers_of _ s _ (by rw [exec_frDec, he, deliver, failWith])

/-- Settles O42: FR.WRITE is the append of the frame with its terminator. -/
theorem frWriteResult : Obligations.FrWriteResult := by
  intro src s hs
  rw [← terminatedFrame_length]
  exact appends_whole_or_bufferTooShort hs (exec_frWrite src s)

/-! ## The stream Reader on a terminated span (R115) -/

/-- Passing the terminator found is consuming the span and the terminator. -/
theorem passTerminator_eq_consume (s : State) (z : Nat) : passTerminator s z = consume s .rxf (z + 1) := rfl

theorem nextFrame_of_terminated {s : State} {z : Nat} (cap : Nat) (hr : s.resync = false)
    (hz : firstZero (window s.rxf) = some z) :
    nextFrame s cap = (consume s .rxf (z + 1), cobsDec ((window s.rxf).take z) cap) := by
  rw [← passTerminator_eq_consume]
  simp [nextFrame, hr, hz]

/-- FR.READ consumes a terminated span and delivers what the decoder makes of it. -/
theorem exec_frRead_of_terminated {s : State} {z : Nat} (dcap : Word) (hr : s.resync = false)
    (hz : firstZero (window s.rxf) = some z) :
    exec (.frRead dcap) s =
      complete (consume s .rxf (z + 1), deliver (cobsDec ((window s.rxf).take z) dcap.toNat)) := by
  rw [exec_frRead, nextFrame_of_terminated _ hr hz]

/-- Settles O43: whether `dcap` holds the payload decides the answer (`cobsDec_eq_fitted`), and the span is
consumed on both. -/
theorem frReadDeliversTheNextFrame : Obligations.FrReadDeliversTheNextFrame := by
  intro z cap p dcap s _ hr hz hp
  have hexec := exec_frRead_of_terminated dcap hr hz
  rw [cobsDec_eq_fitted hp, fitted] at hexec
  constructor
  · intro hfit
    rw [if_pos hfit] at hexec
    obtain ⟨t, hnext, hconsumed, hanswered⟩ := consumed_of _ s .rxf _ _ hexec
    exact ⟨t, _, hnext, wordOf_toNat_of_le hfit, hconsumed, hanswered⟩
  · intro hshort
    rw [if_neg (Nat.not_le_of_gt hshort)] at hexec
    exact consumed_of _ s .rxf _ _ hexec

/-! ## The stream Reader without a frame to take (R115, R25) -/

theorem head_lt_tail_of_window_ne_nil {c : CursorBuffer} (h : window c ≠ []) : c.head < c.tail := by
  have hlen := List.length_pos_iff.mpr h
  rw [window_length, remaining] at hlen
  omega

section NoFrame

variable {s : State} (cap : Nat)

theorem nextFrame_of_unterminated (hr : s.resync = false) (hz : firstZero (window s.rxf) = none)
    (h : window s.rxf = [] ∨ s.rxf.tail < s.caps.rxf) : nextFrame s cap = (s, .error .incomplete) := by
  have hstuck : ¬streamStuck s = true := by
    rw [streamStuck_iff]
    rintro ⟨hlt, hfull⟩
    rcases h with hempty | hspace
    · exact window_ne_nil hlt hempty
    · omega
  simp [nextFrame, hr, hz, hstuck]

theorem nextFrame_of_resync_empty (hs : s.Inv) (hr : s.resync = true) (hempty : window s.rxf = []) :
    nextFrame s cap = (s, .error .incomplete) := by
  have hcursors : s.rxf.head = s.rxf.tail :=
    Nat.le_antisymm (hs.buffer .rxf).1 (Nat.le_of_not_gt fun hlt => window_ne_nil hlt hempty)
  simp [nextFrame, hr, hcursors]

theorem nextFrame_of_no_terminator (hz : firstZero (window s.rxf) = none) (hw : window s.rxf ≠ [])
    (h : s.resync = true ∨ s.rxf.tail = s.caps.rxf) :
    nextFrame s cap =
      ({ s with rxf := { s.rxf with head := s.rxf.tail }, resync := true }, .error .missingTerminator) := by
  have hlt := head_lt_tail_of_window_ne_nil hw
  rcases hr : s.resync with _ | _
  · have hfull := h.resolve_left (by simp [hr])
    simp [nextFrame, hr, hz, (streamStuck_iff s).mpr ⟨hlt, hfull⟩, setResync, discardStream]
  · simp [nextFrame, hr, hz, Nat.ne_of_lt hlt, discardStream]

theorem nextFrame_of_resync_terminated {z : Nat} (hr : s.resync = true)
    (hz : firstZero (window s.rxf) = some z) :
    nextFrame s cap =
      ({ s with rxf := { s.rxf with head := s.rxf.head + z + 1 }, resync := false },
        .error .missingTerminator) := by
  have hlt : s.rxf.head < s.rxf.tail :=
    head_lt_tail_of_window_ne_nil (List.ne_nil_of_length_pos (Nat.zero_lt_of_lt (firstZero_lt _ _ hz)))
  simp [nextFrame, hr, hz, Nat.ne_of_lt hlt, clearResync, passTerminator]

end NoFrame

theorem exec_cpLoad_of_no_frame {s t : State} {e : Status} (he : e = .incomplete ∨ e = .missingTerminator)
    (h : nextFrame s s.caps.rxr = (t, .error e)) : exec .cpLoad s = complete (t, failWith e) := by
  change execCpLoad s = _
  rcases he with rfl | rfl <;> rw [execCpLoad, h]

/-- CP.LOAD empties RXR when the span does not decode (R190). -/
theorem exec_cpLoad_of_corrupt {s t : State} {e : Status} (he : e = .sourceTooShort ∨ e = .destTooShort)
    (h : nextFrame s s.caps.rxr = (t, .error e)) :
    exec .cpLoad s = complete (t.setBuf .rxr (resetCursors t.rxr), failWith e) := by
  change execCpLoad s = _
  rcases he with rfl | rfl <;> rw [execCpLoad, h]

/-- Without a frame to take the two stream Readers end alike: where `NextFrame` ends. -/
theorem exec_streamReader_of_no_frame {i : Instr} {s t : State} {e : Status}
    (hi : i = .cpLoad ∨ ∃ dcap, i = .frRead dcap) (he : e = .incomplete ∨ e = .missingTerminator)
    (h : ∀ cap, nextFrame s cap = (t, .error e)) : exec i s = complete (t, failWith e) := by
  rcases hi with rfl | ⟨dcap, rfl⟩
  · exact exec_cpLoad_of_no_frame he (h _)
  · rw [exec_frRead, h]
    rfl

/-- An operation that replaces RXF and `RESYNC` changes nothing else. -/
theorem answers_of_stream_moved {i : Instr} {s : State} {c : CursorBuffer} {resync : Bool} {e : Status}
    (h : exec i s = complete ({ s with rxf := c, resync := resync }, failWith e)) :
    ∃ t, exec i s = .next t ∧ Answered s t { status := e } ∧ t.rxf = c ∧ t.resync = resync ∧
      ∀ b, b ≠ .rxf → t.buf b = s.buf b := by
  refine ⟨_, h, ⟨rfl, rfl, rfl⟩, rfl, rfl, fun b hb => ?_⟩
  cases b with
  | rxf => exact absurd rfl hb
  | txr | txf | rxr => rfl

/-- Settles O44: without a frame to take both Readers end where `NextFrame` ends, in one of four cases. -/
theorem streamReaderWithoutAFrame : Obligations.StreamReaderWithoutAFrame := by
  intro i s hi hs
  refine ⟨fun hr hz h => ?_, fun hr hempty => ?_, fun hz hw h => ?_, fun z hr hz => ?_⟩
  · exact onlyAnswers_of i s _ (exec_streamReader_of_no_frame hi (.inl rfl)
      fun cap => nextFrame_of_unterminated cap hr hz h)
  · exact onlyAnswers_of i s _ (exec_streamReader_of_no_frame hi (.inl rfl)
      fun cap => nextFrame_of_resync_empty cap hs hr hempty)
  · exact answers_of_stream_moved (exec_streamReader_of_no_frame hi (.inr rfl)
      fun cap => nextFrame_of_no_terminator cap hz hw h)
  · exact answers_of_stream_moved (exec_streamReader_of_no_frame hi (.inr rfl)
      fun cap => nextFrame_of_resync_terminated cap hr hz)

/-! ## Spans that do not decode, and bytes that arrive later -/

/-- The span before the first zero holds none, so it never fails with `UnexpectedNull` (R217). -/
theorem cobsDec_span_error {w : List Byte} {z cap : Nat} {e : Status} (hz : firstZero w = some z)
    (h : cobsDec (w.take z) cap = .error e) : e = .sourceTooShort ∨ e = .destTooShort := by
  refine (cobsDec_error _ _ _ h).resolve_left ?_
  rintro rfl
  exact cobsDec_ne_unexpectedNull _ _ (firstZero_take w z hz) h

/-- Settles O45: both Readers consume the span before they answer its failure, and CP.LOAD then empties RXR. -/
theorem corruptFramesAreDiscarded : Obligations.CorruptFramesAreDiscarded := by
  intro s z _ hr hz
  constructor
  · intro dcap e he
    have hexec := exec_frRead_of_terminated dcap hr hz
    rw [he] at hexec
    exact ⟨cobsDec_span_error hz he, consumed_of _ s .rxf _ _ hexec⟩
  · intro e he
    have hframe := nextFrame_of_terminated s.caps.rxr hr hz
    rw [he] at hframe
    have hstatus := cobsDec_span_error hz he
    exact ⟨hstatus, _, exec_cpLoad_of_corrupt hstatus hframe, rfl, rfl, rfl, rfl, rfl, rfl, rfl, rfl⟩

/-- `NextFrame` delivers a payload only from a terminated span. -/
theorem terminated_of_nextFrame_ok {s : State} {cap : Nat}
    (h : (deliver (nextFrame s cap).2).status = .ok) :
    s.resync = false ∧ ∃ z, firstZero (window s.rxf) = some z := by
  rcases nextFrame_cases s cap with ⟨-, -, e⟩ | ⟨-, -, -, e⟩ | ⟨z, -, -, -, e⟩ | ⟨-, -, -, e⟩ | ⟨-, -, -, e⟩ |
    ⟨z, hr, hz, e⟩
  case inr.inr.inr.inr.inr => exact ⟨hr, z, hz⟩
  -- Every other case ends with a status.
  all_goals rw [e] at h; cases h

/-- Settles O46: the appended bytes stand behind the terminated span that was read, so the search finds the same
zero and the decoder gets the same span. -/
theorem laterBytesDoNotChangeAFrame : Obligations.LaterBytesDoNotChangeAFrame := by
  intro dcap bytes s t r u hs hread hr hok hfit hextend
  rw [exec_frRead] at hread
  obtain rfl := response_of_complete hread hr
  obtain ⟨hresync, z, hz⟩ := terminated_of_nextFrame_ok hok
  obtain ⟨u', n, hextend', ⟨-, -, hwindow, -, -, hresync'⟩, -⟩ := (cbExtendResult .rxf bytes s hs).1 hfit
  obtain rfl : u' = u := Host.Outcome.next.inj (hextend'.symm.trans hextend)
  rw [State.buf_rxf, State.buf_rxf] at hwindow
  have hz' : firstZero (window u'.rxf) = some z := by
    rw [hwindow]
    exact firstZero_append hz bytes
  have hspan : (window u'.rxf).take z = (window s.rxf).take z := by
    rw [hwindow]
    exact List.take_append_of_le_length (Nat.le_of_lt (firstZero_lt _ _ hz))
  have hexec := exec_frRead_of_terminated dcap (hresync'.trans hresync) hz'
  rw [hspan] at hexec
  obtain ⟨v, hv, -, hanswered, -⟩ := consumed_of _ u' .rxf _ _ hexec
  rw [nextFrame_of_terminated _ hresync hz]
  exact ⟨v, hv, hanswered⟩

end Sys2Proof.Machine

/-! PROOF. The varint codec as one equation per reader and the groups the writers emit, and the statements of
42_varint.md: round trip, lengths, range checks, runs that stay incomplete, and the results of the ten operations of
unit VI. -/

namespace Sys2Proof.Machine

/-! ## Groups (R73) -/

theorem topBit_iff (b : Byte) : topBit b = true ↔ 127 < b.toNat := by
  rw [topBit, ← BitVec.msb_eq_getLsbD_last (x := b), BitVec.msb_eq_decide, decide_eq_true_iff]
  rfl

theorem low7_of_topBit {b : Byte} (h : topBit b = false) : low7 b = b.toNat ∧ b.toNat < 128 := by
  rw [← Bool.not_eq_true, topBit_iff] at h
  exact ⟨Nat.mod_eq_of_lt (by omega), by omega⟩

/-- `bitlen` of R10 says which powers of two a byte is below. -/
theorem bitlen_le_iff (x : Byte) (n : Nat) : bitlen x ≤ n ↔ x.toNat < 2 ^ n := by
  rw [bitlen]
  split
  · next h => simp [h]
  · next h =>
    have hne : x.toNat ≠ 0 := fun h0 => h (BitVec.eq_of_toNat_eq h0)
    rw [Nat.succ_le_iff, Nat.log2_lt hne]

/-! ## Where a varint ends (R132) -/

theorem varintLen_cons_continued {b : Byte} (rest : List Byte) (h : topBit b = true) :
    varintLen (b :: rest) = (varintLen rest).map (· + 1) :=
  if_pos h

theorem varintLen_cons_last {b : Byte} (rest : List Byte) (h : topBit b = false) :
    varintLen (b :: rest) = some 1 := by
  rw [varintLen, h]
  rfl

/-- The byte a varint ends with has bit 7 clear (R132). -/
theorem topBit_of_varintLen {w : List Byte} {k : Nat} (h : varintLen w = some (k + 1)) :
    topBit (w.getD k 0#8) = false := by
  induction w generalizing k with
  | nil => cases h
  | cons b rest ih =>
    cases hb : topBit b with
    | false =>
      rw [varintLen_cons_last rest hb] at h
      obtain rfl : 0 = k := Nat.succ.inj (Option.some.inj h)
      exact hb
    | true =>
      rw [varintLen_cons_continued rest hb] at h
      obtain ⟨j, hj, hjk⟩ := Option.map_eq_some_iff.mp h
      obtain rfl : j = k := Nat.succ.inj hjk
      obtain ⟨i, rfl⟩ := Nat.exists_eq_add_of_le' (varintLen_bounds rest j hj).1
      exact ih hj

/-- `P` of a varint is its last group above the others (R74). -/
theorem groupSum_take_varint {w : List Byte} {k : Nat} (h : varintLen w = some (k + 1)) :
    ∃ low < 128 ^ k, (w.getD k 0#8).toNat < 128 ∧
      groupSum (w.take (k + 1)) = low + 128 ^ k * (w.getD k 0#8).toNat := by
  obtain ⟨-, hk⟩ := varintLen_bounds w _ h
  obtain ⟨hlow7, hlt⟩ := low7_of_topBit (topBit_of_varintLen h)
  have hlen : (w.take k).length = k := List.length_take_of_le (by omega)
  have hlast : w.take (k + 1) = w.take k ++ [w.getD k 0#8] := by
    rw [List.getD_eq_getElem w _ hk, List.take_append_getElem]
  have hlow := groupSum_lt (w.take k)
  rw [hlen] at hlow
  refine ⟨groupSum (w.take k), hlow, hlt, ?_⟩
  rw [hlast, groupSum_append, hlen, groupSum, groupSum, hlow7, Nat.mul_zero, Nat.add_zero]

theorem groupSum_take_lt {w : List Byte} {k : Nat} (h : varintLen w = some k) : groupSum (w.take k) < 128 ^ k := by
  have hlt := groupSum_lt (w.take k)
  rwa [List.length_take_of_le (varintLen_bounds w k h).2] at hlt

/-! ## Sign extension (R10) -/

/-- Sign extension of a number that fits the `n + 1` bits of its field (R10). -/
theorem sext_succ {n v : Nat} (h : v < 2 ^ (n + 1)) :
    sext (n + 1) v = if v < 2 ^ n then (v : Int) else v - 2 ^ (n + 1) := by
  rw [sext, Nat.add_sub_cancel]
  by_cases hv : v < 2 ^ n
  · rw [if_pos hv, Nat.div_eq_of_lt hv, if_neg (by decide)]
  · have hone : v / 2 ^ n = 1 := Nat.div_eq_of_lt_le (by omega) (by rw [Nat.mul_comm, ← Nat.pow_succ]; exact h)
    rw [if_neg hv, hone, if_pos rfl]

/-- A field of `n + 1` bits is in the signed range of that width (R10). -/
theorem sext_succ_bounds {n v : Nat} (h : v < 2 ^ (n + 1)) :
    -2 ^ n ≤ sext (n + 1) v ∧ sext (n + 1) v < 2 ^ n := by
  rw [sext_succ h]
  zify at h ⊢
  rw [pow_succ] at h ⊢
  split <;> omega

/-- One group more in front shifts the value by seven bits, whatever its sign (R75). -/
theorem sext_group {n g : Nat} (v : Nat) (hg : g < 128) :
    sext (7 * (n + 1 + 1)) (g + 128 * v) = g + 128 * sext (7 * (n + 1)) v := by
  have hdiv : (g + 128 * v) / 2 ^ (7 * (n + 1 + 1) - 1) = v / 2 ^ (7 * (n + 1) - 1) := by
    rw [show 7 * (n + 1 + 1) - 1 = 7 + (7 * (n + 1) - 1) by omega, Nat.pow_add, ← Nat.div_div_eq_div_mul]
    congr 1
    omega
  have hpow : (2 : Int) ^ (7 * (n + 1 + 1)) = 128 * 2 ^ (7 * (n + 1)) := by
    rw [Nat.mul_succ, pow_add, mul_comm]
    rfl
  rw [sext, sext, hdiv, hpow]
  split <;> push_cast <;> ring

/-- Seven bits hold a number in their signed range (R75). -/
theorem sext_seven {v : Int} (h : -64 ≤ v ∧ v < 64) : sext 7 (v % 128).toNat = v := by
  rw [sext_succ (n := 6) (by omega)]
  split <;> omega

/-! ## What the readers of R133 and R134 accept -/

theorem decU32_of_unended {w : List Byte} (h : varintLen w = none) : decU32 w = .error .incomplete := by
  rw [decU32, h]

theorem decI32_of_unended {w : List Byte} (h : varintLen w = none) : decI32 w = .error .incomplete := by
  rw [decI32, h]

/-- The check of R133 is the range of `P`, for the lengths it does not exclude. -/
theorem unsignedCheck_iff {w : List Byte} {k : Nat} (h : varintLen w = some (k + 1)) :
    7 * k + bitlen (w.getD k 0#8) ≤ 32 ↔ k + 1 ≤ 5 ∧ groupSum (w.take (k + 1)) < 2 ^ 32 := by
  obtain ⟨low, hlow, -, hsum⟩ := groupSum_take_varint h
  by_cases hk : k + 1 ≤ 5
  · have hdiv : groupSum (w.take (k + 1)) / 2 ^ (7 * k) = (w.getD k 0#8).toNat := by
      rw [hsum, Nat.pow_mul, Nat.add_mul_div_left _ _ (Nat.pow_pos (by decide)), Nat.div_eq_of_lt hlow,
        Nat.zero_add]
    calc 7 * k + bitlen (w.getD k 0#8) ≤ 32
        ↔ bitlen (w.getD k 0#8) ≤ 32 - 7 * k := by omega
      _ ↔ groupSum (w.take (k + 1)) / 2 ^ (7 * k) < 2 ^ (32 - 7 * k) := by rw [bitlen_le_iff, hdiv]
      _ ↔ groupSum (w.take (k + 1)) < 2 ^ 32 := by
        rw [Nat.div_lt_iff_lt_mul (Nat.pow_pos (by decide)), ← Nat.pow_add, Nat.sub_add_cancel (by omega)]
      _ ↔ k + 1 ≤ 5 ∧ groupSum (w.take (k + 1)) < 2 ^ 32 := (and_iff_right hk).symm
  · exact ⟨fun hle => by omega, fun hlt => absurd hlt.1 hk⟩

/-- `dec_u32` of a varint that has ended: at most five bytes with `P` below `2^32` (R133). -/
theorem decU32_of_ended {w : List Byte} {k : Nat} (h : varintLen w = some k) :
    decU32 w =
      if k ≤ 5 ∧ groupSum (w.take k) < 2 ^ 32 then .ok (groupSum (w.take k), k) else .error .outOfRange := by
  obtain ⟨j, rfl⟩ := Nat.exists_eq_add_of_le' (varintLen_bounds w k h).1
  have hcheck := unsignedCheck_iff h
  rcases decU32_cases w with ⟨hnone, -⟩ | ⟨k', hk', hout, hdec⟩ | ⟨k', hk', hin, hdec⟩
  · cases h.symm.trans hnone
  · cases h.symm.trans hk'
    rw [hdec, if_neg fun hr => Nat.not_le_of_gt hout (hcheck.mpr hr)]
  · cases h.symm.trans hk'
    rw [hdec, if_pos (hcheck.mp hin)]

/-- Bits 6 to 3 of a last group all equal are a value near 0 from above, or near 128 from below (R75). -/
theorem signBitsAgree_eq {b : Byte} (h : b.toNat < 128) :
    signBitsAgree b = decide (b.toNat ≤ 0x07 ∨ 0x78 ≤ b.toNat) := by
  have key : ∀ n : Fin 128, signBitsAgree (byteOf n.val) = decide (n.val ≤ 0x07 ∨ 0x78 ≤ n.val) := by decide
  have hb : byteOf b.toNat = b := BitVec.ofNat_toNat ..
  rw [← key ⟨b.toNat, h⟩, hb]

/-- Five groups as a signed number: in the 32-bit range exactly when the last group's top bits agree, and then
the 32-bit pattern is the number (R75, R134). -/
theorem signedCheck_five {w : List Byte} (h : varintLen w = some 5) :
    (signBitsAgree (w.getD 4 0#8) = true ↔
      -2 ^ 31 ≤ sext 35 (groupSum (w.take 5)) ∧ sext 35 (groupSum (w.take 5)) < 2 ^ 31) ∧
    (signBitsAgree (w.getD 4 0#8) = true →
      s32 (wordOf (groupSum (w.take 5))) = sext 35 (groupSum (w.take 5))) := by
  obtain ⟨low, hlow, hlast, hsum⟩ := groupSum_take_varint h
  rw [signBitsAgree_eq hlast, decide_eq_true_iff, hsum, sext_succ (n := 34) (by omega), s32, wordOf,
    BitVec.toInt_eq_toNat_cond, BitVec.toNat_ofNat]
  constructor
  · split <;> omega
  · intro hagree
    split <;> split <;> omega

/-- Four groups or fewer, sign-extended, are in the signed 32-bit range (R134). -/
theorem signedCheck_short {w : List Byte} {k : Nat} (h : varintLen w = some k) (hk : k ≤ 4) :
    -2 ^ 31 ≤ sext (7 * k) (groupSum (w.take k)) ∧ sext (7 * k) (groupSum (w.take k)) < 2 ^ 31 := by
  have hlt := groupSum_take_lt h
  obtain ⟨n, rfl⟩ := Nat.exists_eq_add_of_le' (varintLen_bounds w k h).1
  rw [show (128 : Nat) = 2 ^ 7 from rfl, ← Nat.pow_mul] at hlt
  obtain ⟨hlow, hhigh⟩ := sext_succ_bounds (n := 7 * n + 6) hlt
  have hpow : (2 : Int) ^ (7 * n + 6) ≤ 2 ^ 31 := pow_le_pow_right₀ (by decide) (by omega)
  exact ⟨le_trans (neg_le_neg hpow) hlow, lt_of_lt_of_le hhigh hpow⟩

/-- `dec_i32` of a varint that has ended: at most five bytes whose groups, sign-extended, are in the signed 32-bit
range (R134). -/
theorem decI32_of_ended {w : List Byte} {k : Nat} (h : varintLen w = some k) :
    decI32 w =
      if k ≤ 5 ∧ -2 ^ 31 ≤ sext (7 * k) (groupSum (w.take k)) ∧
          sext (7 * k) (groupSum (w.take k)) < 2 ^ 31 then
        .ok (sext (7 * k) (groupSum (w.take k)), k)
      else .error .outOfRange := by
  rcases decI32_cases w with ⟨hnone, -⟩ | ⟨k', hk', hout, hdec⟩ | ⟨k', hk', hle, hdec⟩ | ⟨hk', hagree, hdec⟩
  · cases h.symm.trans hnone
  · cases h.symm.trans hk'
    rw [hdec, if_neg]
    rintro ⟨hle, hrange⟩
    rcases hout with h6 | ⟨rfl, hdisagree⟩
    · omega
    · exact absurd ((signedCheck_five h).1.mpr hrange) (by rw [hdisagree]; decide)
  · cases h.symm.trans hk'
    rw [hdec, if_pos ⟨by omega, signedCheck_short h hle⟩]
  · cases h.symm.trans hk'
    obtain ⟨hrange, hvalue⟩ := signedCheck_five h
    rw [hdec, if_pos ⟨Nat.le_refl 5, hrange.mp hagree⟩, hvalue hagree]

/-- What `dec_u32` reads is a whole varint and a 32-bit number (R133). -/
theorem decU32_eq_ok {w : List Byte} {v k : Nat} (hv : decU32 w = .ok (v, k)) :
    v < 2 ^ 32 ∧ varintLen w = some k := by
  cases hk : varintLen w with
  | none => cases (decU32_of_unended hk).symm.trans hv
  | some j =>
    rw [decU32_of_ended hk] at hv
    split at hv
    · next hr => cases hv; exact ⟨hr.2, rfl⟩
    · cases hv

/-- What `dec_i32` reads is a whole varint and a signed 32-bit number (R134). -/
theorem decI32_eq_ok {w : List Byte} {v : Int} {k : Nat} (hv : decI32 w = .ok (v, k)) :
    -2 ^ 31 ≤ v ∧ v < 2 ^ 31 ∧ varintLen w = some k := by
  cases hk : varintLen w with
  | none => cases (decI32_of_unended hk).symm.trans hv
  | some j =>
    rw [decI32_of_ended hk] at hv
    split at hv
    · next hr => cases hv; exact ⟨hr.2.1, hr.2.2, rfl⟩
    · cases hv

/-! ## The range checks by the number of bytes -/

section Lengths

variable {w : List Byte} {k : Nat} (h : varintLen w = some k)
include h

theorem dec_of_long (hk : 6 ≤ k) : decU32 w = .error .outOfRange ∧ decI32 w = .error .outOfRange := by
  rw [decU32_of_ended h, decI32_of_ended h, if_neg fun hr => by omega, if_neg fun hr => by omega]
  exact ⟨rfl, rfl⟩

theorem decU32_of_short (hk : k ≤ 4) : decU32 w = .ok (groupSum (w.take k), k) := by
  have hlt := groupSum_take_lt h
  have hpow : 128 ^ k ≤ 128 ^ 4 := Nat.pow_le_pow_right (by decide) hk
  rw [decU32_of_ended h, if_pos ⟨by omega, by omega⟩]

theorem decI32_of_short (hk : k ≤ 4) : decI32 w = .ok (sext (7 * k) (groupSum (w.take k)), k) := by
  rw [decI32_of_ended h, if_pos ⟨by omega, signedCheck_short h hk⟩]

end Lengths

theorem decU32_of_five {w : List Byte} (h : varintLen w = some 5) :
    decU32 w = if (w.getD 4 0#8).toNat ≤ 0x0F then .ok (groupSum (w.take 5), 5) else .error .outOfRange := by
  obtain ⟨low, hlow, -, (hsum : groupSum (w.take 5) = _)⟩ := groupSum_take_varint h
  rw [decU32_of_ended h]
  exact if_congr (by omega) rfl rfl

theorem decI32_of_five {w : List Byte} (h : varintLen w = some 5) :
    decI32 w =
      if (w.getD 4 0#8).toNat ≤ 0x07 ∨ 0x78 ≤ (w.getD 4 0#8).toNat then .ok (sext 35 (groupSum (w.take 5)), 5)
      else .error .outOfRange := by
  obtain ⟨-, -, hlast, -⟩ := groupSum_take_varint h
  obtain ⟨hcheck, -⟩ := signedCheck_five h
  rw [signBitsAgree_eq hlast, decide_eq_true_iff] at hcheck
  rw [decI32_of_ended h]
  exact if_congr ((and_iff_right (Nat.le_refl 5)).trans hcheck.symm) rfl rfl

/-! ## The groups the writers of R130 and R131 emit -/

/-- An unsigned group is the last exactly when what is left fits its seven bits (R130). -/
theorem lebUGroups_succ (fuel v : Nat) :
    lebUGroups (fuel + 1) v =
      if v < 128 then [byteOf v] else byteOf (0x80 + v % 128) :: lebUGroups fuel (v / 128) := by
  rw [lebUGroups]
  by_cases h : v < 128
  · rw [if_pos h, if_pos (Nat.div_eq_of_lt h), Nat.mod_eq_of_lt h]
  · rw [if_neg h, if_neg (by omega)]

theorem lebU_of_lt {v : Nat} (h : v < 128) : lebU v = [byteOf v] := by
  rw [lebU, lebUGroups_succ, if_pos h]

theorem lebS_of_fits {v : Int} (h : -64 ≤ v ∧ v < 64) : lebS v = [byteOf (v % 128).toNat] := by
  rw [lebS, lebSGroups_succ, if_pos h]

/-- A last group ends its varint at once, whatever follows. -/
theorem varintLen_last_group {g : Nat} (rest : List Byte) (h : g < 128) : varintLen (byteOf g :: rest) = some 1 :=
  varintLen_cons_last rest (last_group g h).1

/-- A continued group leaves the end of the varint to what follows. -/
theorem varintLen_continued_group {g : Nat} (rest : List Byte) (h : g < 128) :
    varintLen (byteOf (0x80 + g) :: rest) = (varintLen rest).map (· + 1) :=
  varintLen_cons_continued rest (continued_group g h).1

theorem int_mod_128_lt (v : Int) : (v % 128).toNat < 128 := by omega

/-- The varint ends where the writer stopped, whatever follows (R130, R132). -/
theorem varintLen_lebUGroups (fuel v : Nat) (rest : List Byte) :
    varintLen (lebUGroups fuel v ++ rest) = some (lebUGroups fuel v).length := by
  induction fuel generalizing v with
  | zero => exact varintLen_last_group rest (Nat.mod_lt v (by decide))
  | succ fuel ih =>
    rw [lebUGroups_succ]
    split
    · exact varintLen_last_group rest ‹_›
    · rw [List.cons_append, varintLen_continued_group _ (Nat.mod_lt v (by decide)), ih]
      rfl

/-- The varint ends where the writer stopped, whatever follows (R131, R132). -/
theorem varintLen_lebSGroups (fuel : Nat) (v : Int) (rest : List Byte) :
    varintLen (lebSGroups fuel v ++ rest) = some (lebSGroups fuel v).length := by
  induction fuel generalizing v with
  | zero => exact varintLen_last_group rest (int_mod_128_lt v)
  | succ fuel ih =>
    rw [lebSGroups_succ]
    split
    · exact varintLen_last_group rest (int_mod_128_lt v)
    · rw [List.cons_append, varintLen_continued_group _ (int_mod_128_lt v), ih]
      rfl

theorem lebUGroups_length_pos (fuel v : Nat) : 0 < (lebUGroups fuel v).length :=
  (varintLen_bounds _ _ (varintLen_lebUGroups fuel v [])).1

theorem lebSGroups_length_pos (fuel : Nat) (v : Int) : 0 < (lebSGroups fuel v).length :=
  (varintLen_bounds _ _ (varintLen_lebSGroups fuel v [])).1

theorem groupSum_last_group {g : Nat} (h : g < 128) : groupSum [byteOf g] = g := by
  rw [groupSum, groupSum, (last_group g h).2, Nat.mul_zero, Nat.add_zero]

theorem groupSum_continued_group {g : Nat} (rest : List Byte) (h : g < 128) :
    groupSum (byteOf (0x80 + g) :: rest) = g + 128 * groupSum rest := by
  rw [groupSum, (continued_group g h).2]

/-- `P` of the groups of a value is the value (R74, R130). -/
theorem groupSum_lebUGroups {fuel v : Nat} (h : v < 128 ^ (fuel + 1)) : groupSum (lebUGroups fuel v) = v := by
  induction fuel generalizing v with
  | zero =>
    rw [lebUGroups, groupSum_last_group (Nat.mod_lt v (by decide))]
    exact Nat.mod_eq_of_lt h
  | succ fuel ih =>
    rw [lebUGroups_succ]
    split
    · exact groupSum_last_group ‹_›
    · rw [groupSum_continued_group _ (Nat.mod_lt v (by decide)),
        ih (Nat.div_lt_of_lt_mul (by rwa [← Nat.pow_succ'])), Nat.mod_add_div]

/-- The groups of a value, sign-extended, are the value (R75, R131). -/
theorem sext_groupSum_lebSGroups {fuel : Nat} {v : Int} (h : -(64 * 128 ^ fuel) ≤ v ∧ v < 64 * 128 ^ fuel) :
    sext (7 * (lebSGroups fuel v).length) (groupSum (lebSGroups fuel v)) = v := by
  induction fuel generalizing v with
  | zero =>
    rw [lebSGroups, groupSum_last_group (int_mod_128_lt v)]
    exact sext_seven h
  | succ fuel ih =>
    rw [lebSGroups_succ]
    split
    · rw [groupSum_last_group (int_mod_128_lt v)]
      exact sext_seven ‹_›
    · obtain ⟨n, hn⟩ := Nat.exists_eq_add_of_le' (lebSGroups_length_pos fuel (v / 128))
      have hrest := ih (v := v / 128) (by rw [pow_succ] at h; omega)
      rw [hn] at hrest
      rw [List.length_cons, hn, groupSum_continued_group _ (int_mod_128_lt v), sext_group _ (int_mod_128_lt v),
        hrest]
      omega

/-- The last group of a value other than 0 holds a bit of it: the encoding is minimal (R130). -/
theorem lebUGroups_getLast?_ne_zero {fuel v : Nat} (h : v < 128 ^ (fuel + 1)) (h0 : v ≠ 0) :
    (lebUGroups fuel v).getLast? ≠ some 0#8 := by
  have hlast {g : Nat} (hg : g < 128) (hg0 : g ≠ 0) : [byteOf g].getLast? ≠ some 0#8 := fun hz =>
    byteOf_ne_zero g (by omega) (by omega) (Option.some.inj hz)
  induction fuel generalizing v with
  | zero =>
    rw [lebUGroups, Nat.mod_eq_of_lt (show v < 128 from h)]
    exact hlast h h0
  | succ fuel ih =>
    rw [lebUGroups_succ]
    split
    · exact hlast ‹_› h0
    · rw [List.getLast?_cons_of_ne_nil (List.length_pos_iff.mp (lebUGroups_length_pos ..))]
      exact ih (Nat.div_lt_of_lt_mul (by rwa [← Nat.pow_succ'])) (by omega)

/-- How many groups a value takes (R130). -/
theorem lebUGroups_length_le_iff {fuel k v : Nat} (hk : k < fuel) :
    (lebUGroups fuel v).length ≤ k + 1 ↔ v < 128 ^ (k + 1) := by
  induction fuel generalizing k v with
  | zero => omega
  | succ fuel ih =>
    rw [lebUGroups_succ]
    cases k with
    | zero =>
      have := lebUGroups_length_pos fuel (v / 128)
      split <;> simp only [List.length_cons, List.length_nil] <;> omega
    | succ k =>
      have hmono : 128 ≤ 128 ^ (k + 1 + 1) := Nat.le_self_pow (by omega) 128
      split
      · exact ⟨fun _ => by omega, fun _ => Nat.le_add_left ..⟩
      · rw [List.length_cons, Nat.add_le_add_iff_right, ih (by omega), Nat.div_lt_iff_lt_mul (by decide),
          ← Nat.pow_succ]

theorem lebUGroups_length_le (fuel v : Nat) : (lebUGroups fuel v).length ≤ fuel + 1 := by
  induction fuel generalizing v with
  | zero => exact Nat.le_refl _
  | succ fuel ih =>
    rw [lebUGroups_succ]
    split
    · simp
    · exact Nat.succ_le_succ (ih _)

/-- How many groups a signed value takes (R131). -/
theorem lebSGroups_length_le_iff {fuel k : Nat} {v : Int} (hk : k < fuel) :
    (lebSGroups fuel v).length ≤ k + 1 ↔ -(64 * 128 ^ k) ≤ v ∧ v < 64 * 128 ^ k := by
  induction fuel generalizing k v with
  | zero => omega
  | succ fuel ih =>
    rw [lebSGroups_succ]
    cases k with
    | zero =>
      have := lebSGroups_length_pos fuel (v / 128)
      split <;> simp only [List.length_cons, List.length_nil] <;> omega
    | succ k =>
      have hone : (1 : Int) ≤ 128 ^ k := one_le_pow₀ (by decide)
      rw [pow_succ]
      split
      · exact ⟨fun _ => by omega, fun _ => Nat.le_add_left ..⟩
      · rw [List.length_cons, Nat.add_le_add_iff_right, ih (by omega)]
        omega

theorem lebSGroups_length_le (fuel : Nat) (v : Int) : (lebSGroups fuel v).length ≤ fuel + 1 := by
  induction fuel generalizing v with
  | zero => exact Nat.le_refl _
  | succ fuel ih =>
    rw [lebSGroups_succ]
    split
    · simp
    · exact Nat.succ_le_succ (ih _)

/-! ## The statements about the codec -/

/-- Settles O24: the reader finds the end where the writer stopped, and `P` of what was written is the value. -/
theorem unsignedVarintRoundTrip : Obligations.UnsignedVarintRoundTrip := by
  intro v rest hv
  have hfits : v < 128 ^ (4 + 1) := by omega
  refine ⟨?_, lebUGroups_getLast?_ne_zero hfits⟩
  rw [lebU, decU32_of_ended (varintLen_lebUGroups 4 v rest), List.take_left, groupSum_lebUGroups hfits,
    if_pos ⟨lebUGroups_length_le 4 v, hv⟩]

/-- Settles O25: as O24, with the groups sign-extended. -/
theorem signedVarintRoundTrip : Obligations.SignedVarintRoundTrip := by
  intro v rest hlow hhigh
  have hvalue : sext (7 * (lebSGroups 4 v).length) (groupSum (lebSGroups 4 v)) = v :=
    sext_groupSum_lebSGroups ⟨by omega, by omega⟩
  rw [lebS, decI32_of_ended (varintLen_lebSGroups 4 v rest), List.take_left, hvalue,
    if_pos ⟨lebSGroups_length_le 4 v, hlow, hhigh⟩]

/-- Settles O26: the bound on the value for each number of groups below five, which is the most there can be. -/
theorem varintLengthsByRange : Obligations.VarintLengthsByRange := by
  constructor
  · intro v _
    have hpos : 0 < (lebU v).length := lebUGroups_length_pos 4 v
    have hmax : (lebU v).length ≤ 5 := lebUGroups_length_le 4 v
    have hle {k : Nat} (hk : k < 4) : (lebU v).length ≤ k + 1 ↔ v < 128 ^ (k + 1) := lebUGroups_length_le_iff hk
    have hone := hle (k := 0) (by decide)
    have htwo := hle (k := 1) (by decide)
    have hthree := hle (k := 2) (by decide)
    have hfour := hle (k := 3) (by decide)
    split_ifs <;> omega
  · intro v _ _
    have hpos : 0 < (lebS v).length := lebSGroups_length_pos 4 v
    have hmax : (lebS v).length ≤ 5 := lebSGroups_length_le 4 v
    have hle {k : Nat} (hk : k < 4) :
        (lebS v).length ≤ k + 1 ↔ -(64 * 128 ^ k) ≤ v ∧ v < 64 * 128 ^ k := lebSGroups_length_le_iff hk
    have hone := hle (k := 0) (by decide)
    have htwo := hle (k := 1) (by decide)
    have hthree := hle (k := 2) (by decide)
    have hfour := hle (k := 3) (by decide)
    split_ifs <;> omega

/-- Settles O27: both checks are ranges of the value the groups hold (`decU32_of_ended`, `decI32_of_ended`), which
four groups cannot leave and of which the fifth decides. -/
theorem varintRangeChecks : Obligations.VarintRangeChecks := by
  intro w k h
  refine ⟨dec_of_long h, fun hk => ⟨⟨_, decU32_of_short h hk⟩, _, decI32_of_short h hk⟩, ?_, fun v n hv => ?_,
    fun v n hv => ?_⟩
  · rintro rfl
    rw [decU32_of_five h, decI32_of_five h]
    exact ⟨fun hin => ⟨_, if_pos hin⟩, fun hout => if_neg (by omega), fun hin => ⟨_, if_pos hin⟩,
      fun hout => if_neg (by omega)⟩
  · obtain ⟨hlt, hended⟩ := decU32_eq_ok hv
    exact ⟨hlt, Option.some.inj (hended.symm.trans h)⟩
  · obtain ⟨hlow, hhigh, hended⟩ := decI32_eq_ok hv
    exact ⟨hlow, hhigh, Option.some.inj (hended.symm.trans h)⟩

/-! ## Parsing where a tag has not ended (R152, R160) -/

theorem tlvParse_of_unended (n : LenWidth) {w : List Byte} (dcap : Nat) (h : varintLen w = none) :
    tlvParse n w dcap = .error .incomplete := by
  rw [tlvParse, decU32_of_unended h]

/-- Behind an address that fits its destination the address-TLV parse is the TLV parse of the rest (R160). -/
theorem atlvParse_of_address {n : LenWidth} {addr : List Byte} (rest : List Byte) (dcap : Nat) {acap : Nat}
    (hmax : addr.length ≤ maxLen n) (hfit : addr.length ≤ acap) :
    atlvParse n (lenField n addr.length ++ addr ++ rest) dcap acap =
      (tlvParse n rest dcap).map fun rec =>
        { tag := rec.tag, value := rec.value, addr := addr,
          consumed := lenBytes n + addr.length + rec.consumed } := by
  have hlen : fromBe ((lenField n addr.length ++ addr ++ rest).take (lenBytes n)) = addr.length := by
    rw [List.append_assoc, List.take_left' (lenField_length n addr.length), lenField,
      fromBe_beBytes _ _ (lt_of_le_maxLen n _ hmax)]
  have hrest : (lenField n addr.length ++ addr ++ rest).drop (lenBytes n + addr.length) = rest :=
    List.drop_left' (by rw [List.length_append, lenField_length])
  have haddr : ((lenField n addr.length ++ addr ++ rest).drop (lenBytes n)).take addr.length = addr := by
    rw [List.append_assoc, List.drop_left' (lenField_length n addr.length), List.take_left]
  have htotal : (lenField n addr.length ++ addr ++ rest).length = lenBytes n + addr.length + rest.length := by
    rw [List.length_append, List.length_append, lenField_length]
  rw [atlvParse, if_neg (by omega)]
  simp only [hlen, hrest, haddr]
  rw [if_neg (by omega), if_neg (by omega)]
  cases tlvParse n rest dcap <;> rfl

/-! ## Ending a read -/

theorem onlyAnswers_of_unparsed {i : Instr} {s : State} {e : Status}
    (h : exec i s = complete (consumeResult s (.error e))) : OnlyAnswers i s { status := e } :=
  onlyAnswers_of i s _ h

theorem consumesAndAnswers_of_parsed {i : Instr} {s : State} {n : Nat} {r : Response}
    (h : exec i s = complete (consumeResult s (.ok (n, r)))) : ConsumesAndAnswers i s n r :=
  consumed_of i s .rxr n r h

theorem exec_tlvRead (n : LenWidth) (dcap : Word) (s : State) :
    exec (tlvRead n dcap) s =
      complete (consumeResult s (tlvResult (tlvParse n (window s.rxr) dcap.toNat))) := by
  cases n <;> rfl

theorem exec_atlvRead (n : LenWidth) (dcap acap : Word) (s : State) :
    exec (atlvRead n dcap acap) s =
      complete (consumeResult s (atlvResult (atlvParse n (window s.rxr) dcap.toNat acap.toNat))) := by
  cases n <;> rfl

theorem exec_cpRead (dcap : Word) (s : State) :
    exec (.cpRead dcap) s =
      complete (consumeResult s (cpReadResult (tlvParse .w8 (window s.rxr) dcap.toNat))) :=
  rfl

theorem exec_viRu32 (s : State) : exec .viRu32 s = complete (consumeResult s (u32Result (window s.rxr))) := rfl

theorem exec_viRi32 (s : State) : exec .viRi32 s = complete (consumeResult s (i32Result (window s.rxr))) := rfl

theorem u32Result_of_error {w : List Byte} {e : Status} (h : decU32 w = .error e) : u32Result w = .error e := by
  rw [u32Result, h]

theorem i32Result_of_error {w : List Byte} {e : Status} (h : decI32 w = .error e) : i32Result w = .error e := by
  rw [i32Result, h]

/-- Settles O28: bytes that all continue hold no whole varint, so each parser stops at its first one. -/
theorem continuationRunsStayIncomplete : Obligations.ContinuationRunsStayIncomplete := by
  constructor
  · intro s hrun
    have hunended := varintLen_eq_none _ hrun
    refine ⟨?_, ?_, fun dcap => ⟨?_, fun n => ?_⟩⟩ <;> apply onlyAnswers_of_unparsed
    · rw [exec_viRu32, u32Result_of_error (decU32_of_unended hunended)]
    · rw [exec_viRi32, i32Result_of_error (decI32_of_unended hunended)]
    · rw [exec_cpRead, tlvParse_of_unended _ _ hunended, cpReadResult]
    · rw [exec_tlvRead, tlvParse_of_unended _ _ hunended, tlvResult]
  · intro n addr run dcap acap s hwindow hmax hfit hrun
    apply onlyAnswers_of_unparsed
    rw [exec_atlvRead, hwindow, atlvParse_of_address run _ hmax hfit,
      tlvParse_of_unended _ _ (varintLen_eq_none run hrun), Except.map, atlvResult]

/-! ## The writers of unit VI -/

theorem exec_viWu32 (value : Word) (s : State) :
    exec (.viWu32 value) s = complete (appendResult s .txr (.ok (lebU value.toNat))) :=
  rfl

theorem exec_viWi32 (value : Word) (s : State) :
    exec (.viWi32 value) s = complete (appendResult s .txr (.ok (lebS value.toInt))) :=
  rfl

/-- Settles O47: both are the append of the varint of their operand. -/
theorem varintWritersResult : Obligations.VarintWritersResult := by
  intro value s hs
  obtain ⟨hfitU, hshortU⟩ := appends_whole_or_bufferTooShort hs (exec_viWu32 value s)
  obtain ⟨hfitS, hshortS⟩ := appends_whole_or_bufferTooShort hs (exec_viWi32 value s)
  exact ⟨hfitU, hshortU, hfitS, hshortS⟩

/-- A narrow writer appends its one byte whole or not at all, unless it rejects its operand first (R224). -/
theorem narrowWriter_answers {i : Instr} {s : State} {built : Except Status (List Byte)} {inRange : Prop}
    [Decidable inRange] {bytes : List Byte} (hs : s.Inv) (h : exec i s = complete (appendResult s .txr built))
    (hbuilt : built = if inRange then .ok bytes else .error .outOfRange) (hone : inRange → bytes.length = 1) :
    (1 ≤ s.space .txr → inRange → AppendsAndAnswers i s .txr bytes) ∧
      (s.space .txr = 0 → inRange → OnlyAnswers i s { status := .bufferTooShort }) ∧
      (¬inRange → OnlyAnswers i s { status := .outOfRange }) := by
  subst hbuilt
  by_cases hin : inRange
  · rw [if_pos hin] at h
    obtain ⟨hfit, hshort⟩ := appends_whole_or_bufferTooShort hs h
    have hlen := hone hin
    exact ⟨fun hroom _ => hfit (by omega), fun hfull _ => hshort (by omega), fun hout => absurd hin hout⟩
  · rw [if_neg hin] at h
    exact ⟨fun _ hin' => absurd hin' hin, fun _ hin' => absurd hin' hin, fun _ => onlyAnswers_of i s _ h⟩

theorem exec_viWu1 (value : Word) (s : State) :
    exec (.viWu1 value) s = complete (appendResult s .txr (u1Operand value)) :=
  rfl

theorem exec_viWu7 (value : Word) (s : State) :
    exec (.viWu7 value) s = complete (appendResult s .txr (u7Operand value)) :=
  rfl

theorem exec_viWi7 (value : Word) (s : State) :
    exec (.viWi7 value) s = complete (appendResult s .txr (i7Operand value)) :=
  rfl

theorem u1Operand_eq (a : Word) :
    u1Operand a = if a.toNat ≤ 1 then .ok (lebU a.toNat) else .error .outOfRange := by
  rw [u1Operand, unsignedOperand]
  by_cases h : a.toNat ≤ 1
  · rw [if_pos h, if_neg (by omega), lebU_of_lt (by omega)]
  · rw [if_neg h, if_pos (by omega)]

theorem u7Operand_eq (a : Word) :
    u7Operand a = if a.toNat ≤ 127 then .ok (lebU a.toNat) else .error .outOfRange := by
  rw [u7Operand, unsignedOperand]
  by_cases h : a.toNat ≤ 127
  · rw [if_pos h, if_neg (by omega), lebU_of_lt (by omega)]
  · rw [if_neg h, if_pos (by omega)]

/-- The seven bits of the operand are those of its signed value. -/
theorem i7Operand_eq (a : Word) :
    i7Operand a = if -64 ≤ a.toInt ∧ a.toInt ≤ 63 then .ok (lebS a.toInt) else .error .outOfRange := by
  rw [i7Operand, signedOperand, s32, unsignedOperand]
  by_cases h : -64 ≤ a.toInt ∧ a.toInt ≤ 63
  · have hbits : (a.toInt % 128).toNat = a.toNat % 128 := by rw [BitVec.toInt_eq_toNat_cond]; split <;> omega
    rw [if_pos h, if_neg (by omega), lebS_of_fits (by omega), hbits]
  · rw [if_neg h, if_pos (by omega)]

/-- Settles O48: an operand in range is written as its general varint, which is one byte. -/
theorem narrowWritersResult : Obligations.NarrowWritersResult := by
  intro value s hs
  obtain ⟨hroom1, hfull1, hout1⟩ := narrowWriter_answers hs (exec_viWu1 value s) (u1Operand_eq value)
    fun hin => congrArg List.length (lebU_of_lt (by omega))
  obtain ⟨hroom7, hfull7, hout7⟩ := narrowWriter_answers hs (exec_viWu7 value s) (u7Operand_eq value)
    fun hin => congrArg List.length (lebU_of_lt (by omega))
  obtain ⟨hroomI, hfullI, houtI⟩ := narrowWriter_answers hs (exec_viWi7 value s) (i7Operand_eq value)
    fun hin => congrArg List.length (lebS_of_fits (by omega))
  exact ⟨fun h => ⟨hroom1 h, hroom7 h, hroomI h⟩, fun h => ⟨hfull1 h, hfull7 h, hfullI h⟩,
    fun h => hout1 (by omega), fun h => hout7 (by omega), fun h => houtI (by omega)⟩

/-! ## The readers of unit VI -/

theorem u32_toInt {v : Int} (hlow : -2 ^ 31 ≤ v) (hhigh : v < 2 ^ 31) : (u32 v).toInt = v := by
  rw [u32, BitVec.toInt_ofInt]
  exact Int.bmod_eq_of_le (by omega) (by omega)

/-- What a varint takes of a window of a good state survives as a result word. -/
theorem State.Inv.wordOf_toNat_of_varintLen {s : State} (hs : s.Inv) {k : Nat}
    (h : varintLen (window s.rxr) = some k) : (wordOf k).toNat = k := by
  have hk := (varintLen_bounds _ _ h).2
  rw [window_length] at hk
  exact hs.wordOf_toNat_of_le_cap .rxr (Nat.le_trans hk (hs.remaining_le_cap .rxr))

/-- Settles O49: the value is in the range of a word, and the bytes consumed are at most a capacity. -/
theorem varintReadersResult : Obligations.VarintReadersResult := by
  intro s hs
  refine ⟨fun v k hv => ?_, fun e he => ?_, fun v k hv => ?_, fun e he => ?_⟩
  · obtain ⟨hlt, hended⟩ := decU32_eq_ok hv
    refine ⟨_, _, wordOf_toNat v hlt, hs.wordOf_toNat_of_varintLen hended, consumesAndAnswers_of_parsed ?_⟩
    rw [exec_viRu32, u32Result, hv]
  · exact onlyAnswers_of_unparsed (by rw [exec_viRu32, u32Result_of_error he])
  · obtain ⟨hlow, hhigh, hended⟩ := decI32_eq_ok hv
    refine ⟨_, _, u32_toInt hlow hhigh, hs.wordOf_toNat_of_varintLen hended, consumesAndAnswers_of_parsed ?_⟩
    rw [exec_viRi32, i32Result, hv]
  · exact onlyAnswers_of_unparsed (by rw [exec_viRi32, i32Result_of_error he])

theorem exec_viRu1 (s : State) : exec .viRu1 s = complete (consumeResult s (narrowRead u1Byte (window s.rxr))) := rfl

theorem exec_viRu7 (s : State) : exec .viRu7 s = complete (consumeResult s (narrowRead u7Byte (window s.rxr))) := rfl

theorem exec_viRi7 (s : State) : exec .viRi7 s = complete (consumeResult s (narrowRead i7Byte (window s.rxr))) := rfl

section NarrowRead

variable {i : Instr} {s : State} {form : Byte → Except Status Word}

theorem narrowReader_of_empty (hw : window s.rxr = [])
    (h : exec i s = complete (consumeResult s (narrowRead form (window s.rxr)))) :
    OnlyAnswers i s { status := .incomplete } := by
  rw [hw] at h
  exact onlyAnswers_of_unparsed h

variable {b : Byte} {rest : List Byte}

theorem narrowReader_of_ok {v : Word} (hw : window s.rxr = b :: rest) (hb : form b = .ok v)
    (h : exec i s = complete (consumeResult s (narrowRead form (window s.rxr)))) :
    ConsumesAndAnswers i s 1 { status := .ok, r0 := v, r1 := 1#32 } := by
  simp only [hw, narrowRead, hb] at h
  exact consumesAndAnswers_of_parsed h

theorem narrowReader_of_error {e : Status} (hw : window s.rxr = b :: rest) (hb : form b = .error e)
    (h : exec i s = complete (consumeResult s (narrowRead form (window s.rxr)))) :
    OnlyAnswers i s { status := e } := by
  simp only [hw, narrowRead, hb] at h
  exact onlyAnswers_of_unparsed h

end NarrowRead

/-- The reserved bits of the `u1` form are a bound on the byte (R76); so for the other two forms. -/
theorem u1Byte_eq (b : Byte) :
    u1Byte b = if b.toNat ≤ 1 then .ok (wordOf b.toNat) else .error .outOfRange := by
  have hbits : b.toNat / 2 ≠ 0 ↔ ¬b.toNat ≤ 1 := by omega
  simp only [u1Byte, hbits, ite_not]

theorem u7Byte_eq (b : Byte) :
    u7Byte b = if b.toNat ≤ 127 then .ok (wordOf b.toNat) else .error .outOfRange := by
  simp only [u7Byte, topBit_iff, ← Nat.not_le, ite_not]

theorem i7Byte_eq (b : Byte) :
    i7Byte b = if b.toNat ≤ 127 then .ok (u32 (sext 7 b.toNat)) else .error .outOfRange := by
  simp only [i7Byte, topBit_iff, ← Nat.not_le, ite_not]
  split
  · rw [low7, Nat.mod_eq_of_lt (by omega)]
  · rfl

/-- The value of the `i7` form: bit 6 is the sign (R76). -/
theorem i7Value_toInt {b : Byte} (h : b.toNat ≤ 127) :
    (u32 (sext 7 b.toNat)).toInt = if b.toNat ≤ 63 then (b.toNat : Int) else (b.toNat : Int) - 128 := by
  have hvalue : sext 7 b.toNat = if b.toNat ≤ 63 then (b.toNat : Int) else (b.toNat : Int) - 128 :=
    (sext_succ (n := 6) (by omega)).trans (if_congr (by omega) rfl rfl)
  rw [hvalue]
  split <;> exact u32_toInt (by omega) (by omega)

/-- Settles O50: each form's reserved bits are a bound on the byte (`u1Byte_eq`, `u7Byte_eq`, `i7Byte_eq`). -/
theorem narrowReadersResult : Obligations.NarrowReadersResult := by
  refine fun s _ => ⟨fun hw => ⟨narrowReader_of_empty hw (exec_viRu1 s), narrowReader_of_empty hw (exec_viRu7 s),
    narrowReader_of_empty hw (exec_viRi7 s)⟩, fun b rest hw => ?_⟩
  have hword : (wordOf b.toNat).toNat = b.toNat := wordOf_toNat _ (by omega)
  refine ⟨fun hin => ?_, fun hout => ?_, fun hin => ?_, fun hout => ?_, fun hin => ?_, fun hout => ?_⟩
  · exact ⟨_, hword, narrowReader_of_ok hw ((u1Byte_eq b).trans (if_pos hin)) (exec_viRu1 s)⟩
  · exact narrowReader_of_error hw ((u1Byte_eq b).trans (if_neg (by omega))) (exec_viRu1 s)
  · exact ⟨_, hword, narrowReader_of_ok hw ((u7Byte_eq b).trans (if_pos hin)) (exec_viRu7 s)⟩
  · exact narrowReader_of_error hw ((u7Byte_eq b).trans (if_neg (by omega))) (exec_viRu7 s)
  · exact ⟨_, i7Value_toInt hin, narrowReader_of_ok hw ((i7Byte_eq b).trans (if_pos hin)) (exec_viRi7 s)⟩
  · exact narrowReader_of_error hw ((i7Byte_eq b).trans (if_neg (by omega))) (exec_viRi7 s)

end Sys2Proof.Machine

/-! PROOF. TLV and address-TLV records as the codec reads them back, and the statements of 43_tlv.md: parse inverts
encode, front parts stay incomplete, a length too long is reported at its field, and the results of the twelve
operations of units TLV and ATLV. -/

namespace Sys2Proof.Machine

/-! ## A record behind its length fields (R151, R152, R159, R160) -/

theorem fromBe_lenField {n : LenWidth} {length : Nat} (h : length ≤ maxLen n) :
    fromBe (lenField n length) = length :=
  fromBe_beBytes _ _ (lt_of_le_maxLen n length h)

/-- Behind the tag that `dec_u32` reads stand the three stages of R152 that remain. -/
theorem tlvParse_of_tag (n : LenWidth) {w : List Byte} (dcap : Nat) {tag k : Nat} (h : decU32 w = .ok (tag, k)) :
    tlvParse n w dcap =
      if w.length < k + lenBytes n then .error .incomplete
      else if dcap < fromBe ((w.drop k).take (lenBytes n)) then .error .destTooShort
      else if w.length < k + lenBytes n + fromBe ((w.drop k).take (lenBytes n)) then .error .incomplete
      else .ok { tag := tag
                 value := (w.drop (k + lenBytes n)).take (fromBe ((w.drop k).take (lenBytes n)))
                 consumed := k + lenBytes n + fromBe ((w.drop k).take (lenBytes n)) } := by
  simp only [tlvParse, h, gt_iff_lt]

/-- What `tlv_parse` answers once the tag and the length field are there, by what has arrived of the value (R152). -/
theorem tlvParse_of_header {n : LenWidth} {tag length : Nat} (part : List Byte) (dcap : Nat) (htag : tag < 2 ^ 32)
    (hmax : length ≤ maxLen n) :
    tlvParse n (lebU tag ++ lenField n length ++ part) dcap =
      if dcap < length then .error .destTooShort
      else if part.length < length then .error .incomplete
      else .ok { tag := tag, value := part.take length,
                 consumed := (lebU tag).length + lenBytes n + length } := by
  have hdec : decU32 (lebU tag ++ lenField n length ++ part) = .ok (tag, (lebU tag).length) := by
    rw [List.append_assoc]
    exact (unsignedVarintRoundTrip tag _ htag).1
  have hfield : fromBe (((lebU tag ++ lenField n length ++ part).drop (lebU tag).length).take (lenBytes n)) =
      length := by
    rw [List.append_assoc, List.drop_left, List.take_left' (lenField_length n length), fromBe_lenField hmax]
  have hpart : (lebU tag ++ lenField n length ++ part).drop ((lebU tag).length + lenBytes n) = part :=
    List.drop_left' (by rw [List.length_append, lenField_length])
  have htotal : (lebU tag ++ lenField n length ++ part).length =
      (lebU tag).length + lenBytes n + part.length := by
    rw [List.length_append, List.length_append, lenField_length]
  rw [tlvParse_of_tag n dcap hdec, hfield, hpart, htotal, if_neg (by omega)]
  simp only [Nat.add_lt_add_iff_left]

/-- An address length over `acap` is reported at its field (R160). -/
theorem atlvParse_of_long_address {n : LenWidth} {length : Nat} (part : List Byte) (dcap : Nat) {acap : Nat}
    (hmax : length ≤ maxLen n) (hlong : acap < length) :
    atlvParse n (lenField n length ++ part) dcap acap = .error .destTooShort := by
  have hfield : fromBe ((lenField n length ++ part).take (lenBytes n)) = length := by
    rw [List.take_left' (lenField_length n length), fromBe_lenField hmax]
  have htotal : (lenField n length ++ part).length = lenBytes n + part.length := by
    rw [List.length_append, lenField_length]
  rw [atlvParse, if_neg (by omega)]
  simp only [hfield]
  rw [if_pos hlong]

/-- Settles O32: both length fields are compared with their capacity before any byte behind them is looked at. -/
theorem tooLongValueIsReportedAtItsLength : Obligations.TooLongValueIsReportedAtItsLength := by
  constructor
  · intro n tag length part dcap htag hmax hlong
    rw [tlvParse_of_header part dcap htag hmax, if_pos hlong]
  · intro n length part dcap acap hmax hlong
    exact atlvParse_of_long_address part dcap hmax hlong

/-! ## Encoding (R151, R159) -/

theorem tlvEnc_eq (n : LenWidth) (tag : Nat) (value : List Byte) :
    tlvEnc n tag value =
      if value.length ≤ maxLen n then .ok (lebU tag ++ lenField n value.length ++ value)
      else .error .outOfRange := by
  simp only [tlvEnc, gt_iff_lt, ← Nat.not_le, ite_not]

/-- Either length over the field is the same failure, so the order of the two checks does not show (R159). -/
theorem atlvEnc_eq (n : LenWidth) (addr : List Byte) (tag : Nat) (value : List Byte) :
    atlvEnc n addr tag value =
      if addr.length ≤ maxLen n ∧ value.length ≤ maxLen n then
        .ok (lenField n addr.length ++ addr ++ (lebU tag ++ lenField n value.length ++ value))
      else .error .outOfRange := by
  rcases atlvEnc_cases n addr tag value with ⟨hlong, henc⟩ | ⟨haddr, hvalue, henc⟩
  · rw [henc, if_neg (by omega)]
  · rw [henc, if_pos ⟨haddr, hvalue⟩]

theorem tlvRecord_length (n : LenWidth) (tag : Nat) (value : List Byte) :
    (lebU tag ++ lenField n value.length ++ value).length = (lebU tag).length + lenBytes n + value.length := by
  rw [List.length_append, List.length_append, lenField_length]

theorem atlvRecord_length (n : LenWidth) (addr : List Byte) (tag : Nat) (value : List Byte) :
    (lenField n addr.length ++ addr ++ (lebU tag ++ lenField n value.length ++ value)).length =
      lenBytes n + addr.length + (lebU tag).length + lenBytes n + value.length := by
  rw [List.length_append, tlvRecord_length, List.length_append, lenField_length]
  omega

theorem tlvEnc_eq_ok_iff {n : LenWidth} {tag : Nat} {value e : List Byte} :
    tlvEnc n tag value = .ok e ↔
      value.length ≤ maxLen n ∧ e = lebU tag ++ lenField n value.length ++ value := by
  rw [tlvEnc_eq]
  split <;> simp [*, eq_comm]

/-- An address-TLV record is an address behind its length field and a TLV record of the same width (R159). -/
theorem atlvEnc_eq_ok_iff {n : LenWidth} {addr : List Byte} {tag : Nat} {value e : List Byte} :
    atlvEnc n addr tag value = .ok e ↔
      addr.length ≤ maxLen n ∧
        ∃ t, tlvEnc n tag value = .ok t ∧ e = lenField n addr.length ++ addr ++ t := by
  simp only [atlvEnc_eq, tlvEnc_eq_ok_iff, and_assoc, exists_and_left, exists_eq_left]
  split
  · next h => simp [h, eq_comm]
  · next h => simpa using fun haddr hvalue => absurd ⟨haddr, hvalue⟩ h

/-! ## Parse inverts encode -/

/-- Settles O29: behind its header the value is the front of what follows. -/
theorem tlvParseInvertsEncode : Obligations.TlvParseInvertsEncode := by
  intro n tag value e rest dcap htag henc
  obtain ⟨hmax, rfl⟩ := tlvEnc_eq_ok_iff.mp henc
  rw [List.append_assoc _ value, tlvParse_of_header _ dcap htag hmax]
  by_cases hfit : value.length ≤ dcap
  · rw [if_neg (by omega), if_neg (by simp), if_pos hfit, List.take_left, tlvRecord_length]
  · rw [if_pos (by omega), if_neg hfit]

/-- Settles O30: an address that fits is passed over and leaves a TLV record, to which O29 applies; one that does not
fit is reported at its length. -/
theorem atlvParseInvertsEncode : Obligations.AtlvParseInvertsEncode := by
  intro n addr tag value e rest dcap acap htag henc
  obtain ⟨hmax, t, ht, rfl⟩ := atlvEnc_eq_ok_iff.mp henc
  by_cases haddr : addr.length ≤ acap
  · rw [List.append_assoc _ t, atlvParse_of_address _ dcap hmax haddr,
      tlvParseInvertsEncode n tag value t rest dcap htag ht]
    by_cases hvalue : value.length ≤ dcap
    · rw [if_pos hvalue, if_pos ⟨haddr, hvalue⟩, List.length_append, List.length_append, lenField_length]
      rfl
    · rw [if_neg hvalue, if_neg fun h => hvalue h.2]
      rfl
  · rw [List.append_assoc, List.append_assoc, atlvParse_of_long_address _ dcap hmax (by omega),
      if_neg fun h => haddr h.1]

/-! ## Front parts of a record (R249) -/

/-- A varint that is still whole in a front part ends where it did (R132). -/
theorem varintLen_take_of_le {w : List Byte} {k j : Nat} (h : varintLen w = some k) (hj : k ≤ j) :
    varintLen (w.take j) = some k := by
  induction w generalizing k j with
  | nil => cases h
  | cons b rest ih =>
    obtain ⟨i, rfl⟩ := Nat.exists_eq_add_of_le' (Nat.le_trans (varintLen_bounds _ _ h).1 hj)
    rw [List.take_succ_cons]
    cases hb : topBit b with
    | false => rwa [varintLen_cons_last _ hb] at h ⊢
    | true =>
      rw [varintLen_cons_continued _ hb] at h ⊢
      obtain ⟨k', hk', rfl⟩ := Option.map_eq_some_iff.mp h
      rw [ih hk' (Nat.le_of_succ_le_succ hj)]
      rfl

/-- What `dec_u32` reads depends on no byte behind it (R133). -/
theorem decU32_take_of_le {w : List Byte} {v k j : Nat} (h : decU32 w = .ok (v, k)) (hj : k ≤ j) :
    decU32 (w.take j) = .ok (v, k) := by
  have hended := (decU32_eq_ok h).2
  rw [decU32_of_ended hended] at h
  rwa [decU32_of_ended (varintLen_take_of_le hended hj), List.take_take, Nat.min_eq_left hj]

/-- The field of `m` bytes behind offset `k` is the same in every front part that holds it. -/
theorem take_drop_take {w : List Byte} {j k m : Nat} (h : k + m ≤ j) :
    ((w.take j).drop k).take m = (w.drop k).take m := by
  rw [List.drop_take, List.take_take, Nat.min_eq_left (by omega)]

/-- No proper front part of a TLV record that parses is more than `Incomplete` (R152, R249). -/
theorem tlvParse_take {n : LenWidth} {w : List Byte} {dcap j : Nat} {rec : ParsedRecord}
    (h : tlvParse n w dcap = .ok rec) (hj : j < rec.consumed) :
    tlvParse n (w.take j) dcap = .error .incomplete := by
  rcases tlvParse_cases n w dcap with ⟨_, -, hp⟩ | ⟨_, _, -, -, hp⟩ | ⟨_, _, -, -, -, hp⟩ |
    ⟨_, _, -, -, -, -, hp⟩ | ⟨tag, k, length, hdec, hlength, hfit, -, hp⟩ <;> cases hp.symm.trans h
  by_cases htag : j < k
  · exact tlvParse_of_unended n dcap (varintLen_take w k j (decU32_eq_ok hdec).2 htag)
  · rw [tlvParse_of_tag n dcap (decU32_take_of_le hdec (Nat.le_of_not_lt htag))]
    have hj' : (w.take j).length ≤ j := List.length_take_le j w
    by_cases hfield : j < k + lenBytes n
    · rw [if_pos (by omega)]
    · rw [take_drop_take (by omega), ← hlength, if_neg (Nat.not_lt.mpr hfit)]
      split
      · rfl
      · exact if_pos (by dsimp only at hj; omega)

/-- No proper front part of an address-TLV record that parses is more than `Incomplete` (R160, R249). -/
theorem atlvParse_take {n : LenWidth} {w : List Byte} {dcap acap j : Nat} {rec : ParsedRecord}
    (h : atlvParse n w dcap acap = .ok rec) (hj : j < rec.consumed) :
    atlvParse n (w.take j) dcap acap = .error .incomplete := by
  rcases atlvParse_cases n w dcap acap with ⟨-, hp⟩ | ⟨-, -, hp⟩ | ⟨-, -, -, hp⟩ | ⟨_, _, -, -, -, -, hp⟩ |
    ⟨alen, rec', halen, hfit, -, htlv, hp⟩ <;> cases hp.symm.trans h
  have hj' : (w.take j).length ≤ j := List.length_take_le j w
  rw [atlvParse]
  by_cases hfield : j < lenBytes n
  · rw [if_pos (by omega)]
  · have halen' : fromBe ((w.take j).take (lenBytes n)) = alen := by
      rw [List.take_take, Nat.min_eq_left (by omega), halen]
    simp only [halen']
    split
    · rfl
    · rw [if_neg (Nat.not_lt.mpr hfit)]
      split
      · rfl
      · rw [List.drop_take, tlvParse_take htlv (by dsimp only at hj; omega)]

/-- Settles O31: a record whose parts fit parses (O29, O30) and takes all its bytes, so a front part of it is one of
a record that parses. -/
theorem truncatedRecordsStayIncomplete : Obligations.TruncatedRecordsStayIncomplete := by
  constructor
  · intro n tag value e j dcap htag henc hvalue hj
    have hparse := tlvParseInvertsEncode n tag value e [] dcap htag henc
    rw [List.append_nil, if_pos hvalue] at hparse
    exact tlvParse_take hparse hj
  · intro n addr tag value e j dcap acap htag henc hvalue haddr hj
    have hparse := atlvParseInvertsEncode n addr tag value e [] dcap acap htag henc
    rw [List.append_nil, if_pos ⟨haddr, hvalue⟩] at hparse
    exact atlvParse_take hparse hj

/-! ## The writers of units TLV and ATLV -/

theorem exec_tlvWrite (n : LenWidth) (tag : Word) (value : List Byte) (s : State) :
    exec (tlvWrite n tag value) s = complete (appendResult s .txr (tlvEnc n tag.toNat value)) := by
  cases n <;> rfl

theorem exec_atlvWrite (n : LenWidth) (tag : Word) (value addr : List Byte) (s : State) :
    exec (atlvWrite n tag value addr) s = complete (appendResult s .txr (atlvEnc n addr tag.toNat value)) := by
  cases n <;> rfl

/-- A record writer appends its record whole or not at all, unless it rejects a length first (R224). -/
theorem recordWriter_answers {i : Instr} {s : State} {inRange : Prop} [Decidable inRange] {record : List Byte}
    (hs : s.Inv)
    (h : exec i s = complete (appendResult s .txr (if inRange then .ok record else .error .outOfRange))) :
    (inRange → record.length ≤ s.space .txr → AppendsAndAnswers i s .txr record) ∧
      (¬inRange → OnlyAnswers i s { status := .outOfRange }) ∧
      (inRange → s.space .txr < record.length → OnlyAnswers i s { status := .bufferTooShort }) := by
  by_cases hin : inRange
  · rw [if_pos hin] at h
    obtain ⟨hfit, hshort⟩ := appends_whole_or_bufferTooShort hs h
    exact ⟨fun _ => hfit, fun hout => absurd hin hout, fun _ => hshort⟩
  · rw [if_neg hin] at h
    exact ⟨fun hin' => absurd hin' hin, fun _ => onlyAnswers_of i s _ h, fun hin' => absurd hin' hin⟩

/-- Settles O51: the record of R151 is appended, or its value is rejected. -/
theorem tlvWritersResult : Obligations.TlvWritersResult := by
  intro n tag value s hs
  have hexec := exec_tlvWrite n tag value s
  rw [tlvEnc_eq] at hexec
  obtain ⟨hfit, hout, hshort⟩ := recordWriter_answers hs hexec
  rw [tlvRecord_length] at hfit hshort
  exact ⟨hfit, fun hlong => hout (Nat.not_le_of_lt hlong), hshort⟩

/-- Settles O53: the record of R159 is appended, or its address or value is rejected. -/
theorem atlvWritersResult : Obligations.AtlvWritersResult := by
  intro n tag value addr s hs
  have hexec := exec_atlvWrite n tag value addr s
  rw [atlvEnc_eq] at hexec
  obtain ⟨hfit, hout, hshort⟩ := recordWriter_answers hs hexec
  rw [atlvRecord_length] at hfit hshort
  exact ⟨fun haddr hvalue => hfit ⟨haddr, hvalue⟩, fun hlong => hout (by omega),
    fun haddr hvalue => hshort ⟨haddr, hvalue⟩⟩

/-! ## The readers of units TLV and ATLV -/

/-- The tag of a parsed record is a 32-bit number (R79, R133). -/
theorem tlvParse_tag_lt {n : LenWidth} {w : List Byte} {dcap : Nat} {rec : ParsedRecord}
    (h : tlvParse n w dcap = .ok rec) : rec.tag < 2 ^ 32 := by
  rcases tlvParse_cases n w dcap with ⟨_, -, hp⟩ | ⟨_, _, -, -, hp⟩ | ⟨_, _, -, -, -, hp⟩ |
    ⟨_, _, -, -, -, -, hp⟩ | ⟨_, _, _, hdec, -, -, -, hp⟩ <;> cases hp.symm.trans h
  exact (decU32_eq_ok hdec).1

theorem atlvParse_tag_lt {n : LenWidth} {w : List Byte} {dcap acap : Nat} {rec : ParsedRecord}
    (h : atlvParse n w dcap acap = .ok rec) : rec.tag < 2 ^ 32 := by
  rcases atlvParse_cases n w dcap acap with ⟨-, hp⟩ | ⟨-, -, hp⟩ | ⟨-, -, -, hp⟩ | ⟨_, _, -, -, -, -, hp⟩ |
    ⟨_, _, -, -, -, htlv, hp⟩ <;> cases hp.symm.trans h
  exact (tlvParse_tag_lt htlv :)

/-- A number of bytes of the window of RXR survives as a result word. -/
theorem State.Inv.wordOf_toNat_of_le_window {s : State} (hs : s.Inv) {k : Nat} (h : k ≤ (window s.rxr).length) :
    (wordOf k).toNat = k := by
  rw [window_length] at h
  exact hs.wordOf_toNat_of_le_cap .rxr (Nat.le_trans h (hs.remaining_le_cap .rxr))

/-- Settles O52: the tag is a 32-bit number, the value fits `dcap` and the record the window, so all three numbers
are exact as words. -/
theorem tlvReadersResult : Obligations.TlvReadersResult := by
  intro n dcap s hs
  refine ⟨fun rec hparse => ?_, fun e hparse => onlyAnswers_of_unparsed ?_⟩
  · obtain ⟨hconsumed, hvalue, -, -⟩ := tlvParse_bounds n _ _ rec hparse
    refine ⟨_, _, _, wordOf_toNat _ (tlvParse_tag_lt hparse), wordOf_toNat_of_le hvalue,
      hs.wordOf_toNat_of_le_window hconsumed, consumesAndAnswers_of_parsed ?_⟩
    rw [exec_tlvRead, hparse, tlvResult]
  · rw [exec_tlvRead, hparse, tlvResult]

/-- Settles O54: as O52, with the address within `acap`. -/
theorem atlvReadersResult : Obligations.AtlvReadersResult := by
  intro n dcap acap s _
  refine ⟨fun rec hparse => ?_, fun e hparse => onlyAnswers_of_unparsed ?_⟩
  · obtain ⟨-, hvalue, haddr⟩ := atlvParse_bounds n _ _ _ rec hparse
    refine ⟨_, _, _, wordOf_toNat _ (atlvParse_tag_lt hparse), wordOf_toNat_of_le hvalue,
      wordOf_toNat_of_le haddr, consumesAndAnswers_of_parsed ?_⟩
    rw [exec_atlvRead, hparse, atlvResult]
  · rw [exec_atlvRead, hparse, atlvResult]

end Sys2Proof.Machine

/-! PROOF. The control protocol: the records the message writers append, one equation per outcome of CP.FINISH,
CP.LOAD and CP.READ, and the statements of 44_control_protocol.md, with the way of a list of messages from the
sender's writers to the receiver's reads (R193). -/

namespace Sys2Proof.Machine

/-! ## The record of a message (R171) -/

/-- The bytes of a message whose payload the length byte can count: tag, length, payload (R81, R171). -/
def recordBytes (k : Kind) (payload : List Byte) : List Byte :=
  byteOf (kindTag k) :: byteOf payload.length :: payload

@[simp] theorem recordBytes_length (k : Kind) (payload : List Byte) :
    (recordBytes k payload).length = 2 + payload.length := by
  rw [recordBytes, List.length_cons, List.length_cons]
  omega

/-- Every tag of the vocabulary is a varint of one byte (R81, R82). -/
theorem kindTag_lt (k : Kind) : kindTag k < 128 := by cases k <;> decide

theorem recordBytes_eq_tlv (k : Kind) (payload : List Byte) :
    recordBytes k payload = lebU (kindTag k) ++ lenField .w8 payload.length ++ payload := by
  have hfield : lenField .w8 payload.length = [byteOf payload.length] := by
    simp [lenField, lenBytes, beBytes]
  rw [lebU_of_lt (kindTag_lt k), hfield]
  rfl

theorem messageRecord_eq (k : Kind) (payload : List Byte) :
    messageRecord k payload =
      if payload.length ≤ 255 then .ok (recordBytes k payload) else .error .outOfRange := by
  rw [messageRecord, tlvEnc_eq, recordBytes_eq_tlv]
  rfl

/-- A record at the front of a window parses to its message, with room for the payload (R152). -/
theorem tlvParse_recordBytes (k : Kind) {payload : List Byte} (rest : List Byte) {dcap : Nat}
    (hlen : payload.length ≤ 255) (hfit : payload.length ≤ dcap) :
    tlvParse .w8 (recordBytes k payload ++ rest) dcap =
      .ok { tag := kindTag k, value := payload, consumed := 2 + payload.length } := by
  have htag : kindTag k < 2 ^ 32 := Nat.lt_trans (kindTag_lt k) (by decide)
  have henc : tlvEnc .w8 (kindTag k) payload = .ok (recordBytes k payload) :=
    (messageRecord_eq k payload).trans (if_pos hlen)
  rw [tlvParseInvertsEncode .w8 (kindTag k) payload _ rest dcap htag henc, if_pos hfit, recordBytes_length]

/-! ## The message writers -/

theorem exec_blobWriter {k : Kind} {payload : List Byte} {i : Instr} (hi : blobWriter k payload = some i)
    (s : State) : exec i s = complete (appendResult s .txr (messageRecord k payload)) := by
  cases k <;> cases hi <;> rfl

/-- Only Exit has no blob writer. -/
theorem blobWriter_eq_none_iff {k : Kind} {payload : List Byte} : blobWriter k payload = none ↔ k = .exit := by
  cases k <;> simp [blobWriter]

theorem exec_cpExit (status : Word) (s : State) :
    exec (.cpExit status) s = complete (appendResult s .txr (exitRecord status)) :=
  rfl

theorem exitRecord_eq (status : Word) :
    exitRecord status =
      if status.toNat ≤ 255 then .ok (recordBytes .exit [status.setWidth 8]) else .error .outOfRange := by
  rw [exitRecord, exitOperand, unsignedOperand]
  by_cases h : status.toNat ≤ 255
  · have hbyte : byteOf status.toNat = status.setWidth 8 :=
      BitVec.eq_of_toNat_eq (by rw [byteOf, BitVec.toNat_ofNat, BitVec.toNat_setWidth])
    rw [if_pos h, if_neg (by omega), hbyte]
    exact messageRecord_eq .exit _
  · rw [if_neg h, if_pos (by omega)]

/-- Settles O55: a blob writer is the append of its record, or its payload is rejected. -/
theorem messageWritersResult : Obligations.MessageWritersResult := by
  intro k payload i s hi hs
  have hexec := exec_blobWriter hi s
  rw [messageRecord_eq] at hexec
  obtain ⟨hfit, hout, hshort⟩ := recordWriter_answers hs hexec
  rw [recordBytes_length] at hfit hshort
  exact ⟨hfit, fun hlong => hout (Nat.not_le_of_lt hlong), hshort⟩

/-- Settles O56: CP.EXIT is the append of the record of one byte, or its operand is rejected. -/
theorem cpExitResult : Obligations.CpExitResult := by
  intro status s hs
  have hexec := exec_cpExit status s
  rw [exitRecord_eq] at hexec
  obtain ⟨hfit, hout, hshort⟩ := recordWriter_answers hs hexec
  exact ⟨hfit, fun hlarge => hout (Nat.not_le_of_lt hlarge), hshort⟩

/-! ## CP.FINISH (R189) -/

/-- CP.FINISH whose frame fits is FR.WRITE of the window of TXR, with the cursors of TXR reset after it. -/
theorem exec_cpFinish_of_fits {s t : State} (hfit : (terminatedFrame (window s.txr)).length ≤ s.space .txf)
    (h : exec (.frWrite (window s.txr)) s = .next t) :
    exec .cpFinish s = .next (t.setBuf .txr (resetCursors s.txr)) := by
  rw [exec_frWrite, appendResult_of_fits hfit, complete_eq_next] at h
  subst h
  change execCpFinish s = _
  simp only [execCpFinish, (append_eq_some s _ .txf _).mpr ⟨hfit, rfl⟩]
  rfl

theorem exec_cpFinish_of_short {s : State} (hshort : s.space .txf < (terminatedFrame (window s.txr)).length) :
    exec .cpFinish s = complete (s, failWith .bufferTooShort) := by
  change execCpFinish s = _
  simp only [execCpFinish, append, if_pos hshort]

/-- Settles O57: what FR.WRITE does to TXF (O42), and TXR keeps its bytes when its cursors are reset. -/
theorem cpFinishResult : Obligations.CpFinishResult := by
  intro s hs
  obtain ⟨hwrite, -⟩ := frWriteResult (window s.txr) s hs
  rw [← terminatedFrame_length]
  refine ⟨fun hfit => ?_, fun hshort => onlyAnswers_of _ s _ (exec_cpFinish_of_short hshort)⟩
  obtain ⟨t, n, hexec, ⟨hhead, htail, hwindow, hmem, hothers, hresync⟩, hn, hanswered⟩ :=
    hwrite (terminatedFrame_length _ ▸ hfit)
  rw [← hn] at htail hmem
  rw [List.append_assoc]
  exact ⟨_, n, exec_cpFinish_of_fits hfit hexec, hn, hanswered, hhead, htail, hwindow, hmem, rfl, rfl,
    fun _ => rfl, hothers .rxf nofun, hothers .rxr nofun, hresync⟩

/-! ## CP.LOAD (R190) -/

theorem exec_cpLoad_of_frame {s t : State} {p : List Byte} (h : nextFrame s s.caps.rxr = (t, .ok p)) :
    exec .cpLoad s =
      complete (t.setBuf .rxr (reload t.rxr p), { status := .ok, r0 := wordOf p.length }) := by
  change execCpLoad s = _
  rw [execCpLoad, h]

theorem memRead_reload_of_le {c : CursorBuffer} {bytes : List Byte} {a : Nat} (hwf : Memory.wf c.mem = true)
    (ha : bytes.length ≤ a) : memRead (reload c bytes).mem a = memRead c.mem a := by
  rw [reload, memRead_memWriteBytes _ _ _ _ hwf, if_neg (by omega)]

/-- Settles O58: the span is consumed and what it decodes to, at most RXR_CAP bytes, is loaded at offset 0. -/
theorem cpLoadResult : Obligations.CpLoadResult := by
  intro z p s hs hr hz hp
  obtain ⟨-, -, hwf, -⟩ : bufferOk s.caps.rxr s.rxr := hs.buffer .rxr
  have hframe := nextFrame_of_terminated s.caps.rxr hr hz
  rw [hp] at hframe
  have hlen : (wordOf p.length).toNat = p.length :=
    hs.wordOf_toNat_of_le_cap .rxr (cobsDec_length _ _ _ hp)
  refine ⟨_, _, exec_cpLoad_of_frame hframe, hlen, ⟨rfl, rfl, rfl⟩, rfl, window_advance s.rxf (z + 1), rfl, rfl,
    window_reload s.rxr p hwf, fun _ ha => memRead_reload_of_le hwf ha, rfl, rfl, hr⟩

/-! ## CP.READ (R191) -/

/-- CP.READ of a record consumes it under the status of its class. -/
theorem cpRead_of_record {dcap : Word} {s : State} {rec : ParsedRecord}
    (h : tlvParse .w8 (window s.rxr) dcap.toNat = .ok rec) :
    ConsumesAndAnswers (.cpRead dcap) s rec.consumed
      { status := classify rec.tag rec.value.length
        r0 := wordOf rec.tag
        r1 := wordOf rec.value.length
        r2 := wordOf rec.consumed
        q0 := rec.value } :=
  consumesAndAnswers_of_parsed (by rw [exec_cpRead, h, cpReadResult])

theorem cpRead_of_unparsed {dcap : Word} {s : State} {e : Status}
    (h : tlvParse .w8 (window s.rxr) dcap.toNat = .error e) : OnlyAnswers (.cpRead dcap) s { status := e } :=
  onlyAnswers_of_unparsed (by rw [exec_cpRead, h, cpReadResult])

/-- Settles O59: the numbers of a parsed record are exact as words, and `classify` is known tag by tag (O33). The
model's own `cpReadResult` has the name that would be this theorem's. -/
theorem cpRead_result : Obligations.CpReadResult := by
  intro dcap s hs
  refine ⟨fun rec hparse => ?_, fun e hparse => cpRead_of_unparsed hparse⟩
  obtain ⟨hconsumed, hvalue, -, -⟩ := tlvParse_bounds .w8 _ _ rec hparse
  obtain ⟨-, -, -, hclass⟩ := vocabularyIsClosed
  rw [← hclass rec.tag rec.value.length]
  exact ⟨_, _, _, wordOf_toNat _ (tlvParse_tag_lt hparse), wordOf_toNat_of_le hvalue,
    hs.wordOf_toNat_of_le_window hconsumed, cpRead_of_record hparse⟩

/-! ## Runs in which every operation answers `Ok` -/

theorem Answered.unique {s t : State} {r r' : Response} (h : Answered s t r) (h' : Answered s t r') : r = r' := by
  obtain ⟨hr, -⟩ := h
  obtain ⟨hr', -⟩ := h'
  exact List.singleton_inj.mp (List.append_cancel_left (hr.symm.trans hr'))

/-- An operation answers only once. -/
theorem OnlyAnswers.eq_of_answered {i : Instr} {s t : State} {r r' : Response} (h : OnlyAnswers i s r')
    (hexec : exec i s = .next t) (hr : Answered s t r) : r = r' := by
  obtain ⟨t', hexec', -, hr'⟩ := h
  obtain rfl : t' = t := Host.Outcome.next.inj (hexec'.symm.trans hexec)
  exact hr.unique hr'

/-- The operations run from `s` to `t`, each answering `Ok`. -/
def RunsOk (is : List Instr) (s t : State) : Prop :=
  runOps is s = some t ∧ ∃ rs, t.responses = s.responses ++ rs ∧ ∀ r ∈ rs, r.status = .ok

theorem runOps_responses {is : List Instr} {s t : State} (h : runOps is s = some t) :
    ∃ rs, t.responses = s.responses ++ rs := by
  induction is generalizing s with
  | nil => cases h; exact ⟨[], (List.append_nil _).symm⟩
  | cons i rest ih =>
    obtain ⟨u, r, hexec, hr, -⟩ := everyOperationAnswersOnce i s
    rw [runOps, hexec] at h
    obtain ⟨rs, hrs⟩ := ih h
    exact ⟨r :: rs, by rw [hrs, hr, List.append_assoc, List.singleton_append]⟩

/-- The first operation of such a run answers `Ok`, and the others make such a run. -/
theorem RunsOk.cons {i : Instr} {rest : List Instr} {s t : State} (h : RunsOk (i :: rest) s t) :
    ∃ u r, exec i s = .next u ∧ Answered s u r ∧ r.status = .ok ∧ RunsOk rest u t := by
  obtain ⟨hrun, rs, hrs, hok⟩ := h
  obtain ⟨u, r, hexec, hanswered⟩ := everyOperationAnswersOnce i s
  rw [runOps, hexec] at hrun
  obtain ⟨rs', hrs'⟩ := runOps_responses hrun
  have hsplit : rs = r :: rs' := by
    rw [hrs', hanswered.1, List.append_assoc, List.singleton_append] at hrs
    exact (List.append_cancel_left hrs).symm
  subst hsplit
  obtain ⟨hr, hrest⟩ := List.forall_mem_cons.mp hok
  exact ⟨u, r, hexec, hanswered, hr, hrun, rs', hrs', hrest⟩

/-! ## The sender (R193) -/

/-- The message writer of any kind appends the message's record; that of Exit takes its one byte as a scalar. -/
theorem exec_messageWriter {k : Kind} {payload : List Byte} (hexit : k = .exit → payload.length = 1) (s : State) :
    exec (messageWriter k payload) s = complete (appendResult s .txr (messageRecord k payload)) := by
  rcases hi : blobWriter k payload with _ | i
  · obtain rfl := blobWriter_eq_none_iff.mp hi
    obtain ⟨b, rfl⟩ := List.length_eq_one_iff.mp (hexit rfl)
    have hone : [b].length ≤ 255 := Nat.le_add_left 1 254
    have hvalue : (wordOf (fromBe [b])).toNat = b.toNat := by
      simp [fromBe, wordOf_toNat b.toNat (by omega)]
    have hbyte : (wordOf (fromBe [b])).setWidth 8 = b :=
      BitVec.eq_of_toNat_eq (by rw [BitVec.toNat_setWidth, hvalue, Nat.mod_eq_of_lt b.isLt])
    rw [messageWriter, hi, exec_cpExit, exitRecord_eq, messageRecord_eq, hbyte, hvalue,
      if_pos (Nat.le_of_lt_succ b.isLt), if_pos hone]
  · rw [messageWriter, hi, exec_blobWriter hi]

/-- A message writer that answers `Ok` has appended the message's record to TXR. -/
theorem appended_of_messageWriter_ok {k : Kind} {payload : List Byte} {s t : State} {r : Response} (hs : s.Inv)
    (hexit : k = .exit → payload.length = 1) (hexec : exec (messageWriter k payload) s = .next t)
    (hr : Answered s t r) (hok : r.status = .ok) :
    payload.length ≤ 255 ∧ Appended s t .txr (recordBytes k payload) := by
  have hwriter := exec_messageWriter hexit s
  rw [messageRecord_eq] at hwriter
  obtain ⟨hfit, hout, hshort⟩ := recordWriter_answers hs hwriter
  by_cases hlen : payload.length ≤ 255
  · by_cases hroom : (recordBytes k payload).length ≤ s.space .txr
    · obtain ⟨t', n, hexec', happended, -, -⟩ := hfit hlen hroom
      obtain rfl : t' = t := Host.Outcome.next.inj (hexec'.symm.trans hexec)
      exact ⟨hlen, happended⟩
    · rw [(hshort hlen (Nat.lt_of_not_le hroom)).eq_of_answered hexec hr] at hok
      cases hok
  · rw [(hout hlen).eq_of_answered hexec hr] at hok
    cases hok

/-- A CP.FINISH that answers `Ok` has appended the frame of TXR's window to TXF. -/
theorem window_txf_of_cpFinish_ok {s t : State} {r : Response} (hs : s.Inv) (hexec : exec .cpFinish s = .next t)
    (hr : Answered s t r) (hok : r.status = .ok) :
    window t.txf = window s.txf ++ terminatedFrame (window s.txr) := by
  obtain ⟨hfit, hshort⟩ := cpFinishResult s hs
  by_cases hroom : (stuff (window s.txr)).length + 1 ≤ s.space .txf
  · obtain ⟨t', n, hexec', -, -, -, -, hwindow, -⟩ := hfit hroom
    obtain rfl : t' = t := Host.Outcome.next.inj (hexec'.symm.trans hexec)
    rw [hwindow, List.append_assoc, terminatedFrame]
  · rw [(hshort (Nat.lt_of_not_le hroom)).eq_of_answered hexec hr] at hok
    cases hok

/-- The records of a list of messages, one behind the other. -/
def messageBytes (msgs : List (Kind × List Byte)) : List Byte := msgs.flatMap fun m => recordBytes m.1 m.2

theorem messageBytes_cons (k : Kind) (payload : List Byte) (msgs : List (Kind × List Byte)) :
    messageBytes ((k, payload) :: msgs) = recordBytes k payload ++ messageBytes msgs :=
  List.flatMap_cons

theorem messageBytes_length (msgs : List (Kind × List Byte)) :
    (messageBytes msgs).length = (msgs.map fun m => 2 + m.2.length).sum := by
  simp only [messageBytes, List.length_flatMap, recordBytes_length]

/-- Writers and CP.FINISH that all answer `Ok` put one frame into TXF: that of the records behind what stood in
TXR. -/
theorem window_txf_of_messages_ok {msgs : List (Kind × List Byte)} {s t : State} (hs : s.Inv)
    (hexit : ∀ m ∈ msgs, m.1 = .exit → m.2.length = 1)
    (h : RunsOk (msgs.map (fun m => messageWriter m.1 m.2) ++ [.cpFinish]) s t) :
    (∀ m ∈ msgs, m.2.length ≤ 255) ∧
      window t.txf = window s.txf ++ terminatedFrame (window s.txr ++ messageBytes msgs) := by
  induction msgs generalizing s with
  | nil =>
    obtain ⟨u, r, hexec, hr, hok, hnil, -⟩ := h.cons
    cases hnil
    refine ⟨nofun, ?_⟩
    rw [messageBytes, List.flatMap_nil, List.append_nil]
    exact window_txf_of_cpFinish_ok hs hexec hr hok
  | cons m msgs ih =>
    obtain ⟨k, payload⟩ := m
    obtain ⟨hexit0, hexitRest⟩ := List.forall_mem_cons.mp hexit
    obtain ⟨u, r, hexec, hr, hok, hrest⟩ := h.cons
    obtain ⟨hlen, -, -, hwindow, -, hothers, -⟩ := appended_of_messageWriter_ok hs hexit0 hexec hr hok
    have htxf : u.txf = s.txf := hothers .txf nofun
    obtain ⟨hlens, hframe⟩ := ih (hs.exec hexec) hexitRest hrest
    refine ⟨List.forall_mem_cons.mpr ⟨hlen, hlens⟩, ?_⟩
    rw [State.buf_txr, State.buf_txr] at hwindow
    rw [hframe, htxf, hwindow, List.append_assoc, messageBytes_cons]

/-! ## The receiver (R193) -/

/-- A frame that is carried to an empty stream window is loaded into RXR as its payload. -/
theorem extend_load_of_frame {p : List Byte} {u : State} (hu : u.Inv) (hr : u.resync = false)
    (hempty : u.rxf.head = u.rxf.tail) (hroom : (terminatedFrame p).length ≤ u.space .rxf)
    (hfit : p.length ≤ u.caps.rxr) :
    ∃ v r1 r2, runOps [.cbExtend .rxf (terminatedFrame p), .cpLoad] u = some v ∧
      v.responses = u.responses ++ [r1, r2] ∧ r1.status = .ok ∧ r2.status = .ok ∧
      window v.rxf = [] ∧ window v.rxr = p := by
  obtain ⟨hextend, -⟩ := cbExtendResult .rxf (terminatedFrame p) u hu
  obtain ⟨w, n, hexec, ⟨-, -, hwindow, -, -, hresync⟩, -, hresponses, -, hcaps⟩ := hextend hroom
  rw [State.buf_rxf, State.buf_rxf, window_of_empty hempty, List.nil_append] at hwindow
  have hz : firstZero (window w.rxf) = some (stuff p).length := by
    obtain ⟨-, -, hfirst⟩ := stuffedFramesHoldNoZero p
    simpa [hwindow] using hfirst []
  have hdec : cobsDec ((window w.rxf).take (stuff p).length) w.caps.rxr = .ok p := by
    rw [hwindow, terminatedFrame, List.take_left, hcaps]
    exact (unstuffInvertsStuff p u.caps.rxr).1 hfit
  obtain ⟨v, n', hload, -, ⟨hresponses', -, -⟩, -, hrxf, -, -, hrxr, -⟩ :=
    cpLoadResult _ p w (hu.exec hexec) (hresync.trans hr) hz hdec
  have hrun : runOps [.cbExtend .rxf (terminatedFrame p), .cpLoad] u = some v := by
    simp only [runOps, hexec, hload]
  refine ⟨v, { status := .ok, r0 := n }, { status := .ok, r0 := n' }, hrun, ?_, rfl, rfl, ?_, hrxr⟩
  · rw [hresponses', hresponses, List.append_assoc, List.singleton_append]
  · rw [hrxf, hwindow, ← terminatedFrame_length, List.drop_length]

/-- A window of RXR that holds the records of some messages reads back as those messages. -/
theorem readsBack_of_window {msgs : List (Kind × List Byte)} {s : State}
    (hexit : ∀ m ∈ msgs, m.1 = .exit → m.2.length = 1) (hlen : ∀ m ∈ msgs, m.2.length ≤ 255)
    (hw : window s.rxr = messageBytes msgs) : ReadsBack msgs s := by
  induction msgs generalizing s with
  | nil =>
    refine ⟨by rw [← window_length, hw]; rfl, fun dcap => cpRead_of_unparsed ?_⟩
    rw [hw]
    exact tlvParse_of_unended .w8 _ rfl
  | cons m msgs ih =>
    obtain ⟨k, payload⟩ := m
    obtain ⟨hexit0, hexitRest⟩ := List.forall_mem_cons.mp hexit
    obtain ⟨hlen0, hlenRest⟩ := List.forall_mem_cons.mp hlen
    intro dcap hfit
    rw [messageBytes_cons] at hw
    obtain ⟨t, hexec, ⟨-, -, hwindow, -⟩, hanswered⟩ :=
      cpRead_of_record (by rw [hw]; exact tlvParse_recordBytes k _ hlen0 hfit)
    have hclass : classify (kindTag k) payload.length = .ok := by
      rw [classify_kindTag, if_neg fun h => h.2 (hexit0 h.1)]
    rw [hclass] at hanswered
    rw [State.buf_rxr, State.buf_rxr, hw, List.drop_left' (recordBytes_length k payload)] at hwindow
    exact ⟨t, hexec, hanswered, ih hexitRest hlenRest hwindow⟩

/-- Settles O60: the sender makes one frame of the records, the receiver loads its payload, and that reads back as
the messages. -/
theorem messagesComeBackInOrder : Obligations.MessagesComeBackInOrder := by
  intro msgs s t u rs hs htxr htxf hexit hrun hrs hok hu hresync hempty hroom hfit
  obtain ⟨hlen, hframe⟩ := window_txf_of_messages_ok hs hexit ⟨hrun, rs, hrs, hok⟩
  rw [window_of_empty htxf, window_of_empty htxr, List.nil_append, List.nil_append] at hframe
  rw [hframe] at hroom ⊢
  rw [← messageBytes_length] at hfit
  obtain ⟨v, r1, r2, hload, hresponses, hr1, hr2, hrxf, hrxr⟩ := extend_load_of_frame hu hresync hempty hroom hfit
  exact ⟨v, r1, r2, hload, hresponses, hr1, hr2, hrxf, readsBack_of_window hexit hlen hrxr⟩

end Sys2Proof.Machine

/-! PROOF. What SYS.RESET leaves in a buffer, and the statement of 45_system.md. -/

namespace Sys2Proof.Machine

/-- Resetting the cursors writes no byte: what was in the buffer is dead, not erased (R28, R200). -/
@[simp] theorem resetCursors_mem (c : CursorBuffer) : (resetCursors c).mem = c.mem := rfl

theorem exec_sysReset (s : State) : exec .sysReset s = .next ((resetCore s).respond { status := .ok }) := rfl

/-- Answering after the reset core is the operation's whole answer: the core itself touches no channel and no
capacity (R200). -/
theorem answered_resetCore_respond (s : State) (r : Response) : Answered s ((resetCore s).respond r) r :=
  ⟨by rw [State.respond_responses, resetCore_responses],
    by rw [State.respond_pending, resetCore_pending],
    by rw [State.respond_caps, resetCore_caps]⟩

/-- Settles O34: each buffer is left as it was but for its cursors, which are 0 (R32), so its window is empty. -/
theorem sysResetResult : Obligations.SysResetResult := by
  intro s
  refine ⟨_, exec_sysReset s, answered_resetCore_respond s _, ?_, fun b => ?_⟩
  · rw [State.respond_resync, resetCore_resync]
  · obtain ⟨hhead, htail⟩ := resetCore_cursors s b
    rw [State.buf_respond]
    refine ⟨hhead, htail, window_of_empty (hhead.trans htail.symm), fun a => ?_⟩
    rw [buf_resetCore, resetCursors_mem]

end Sys2Proof.Machine

/-! PROOF. The statements of 60_exceptions.md: the status codes, the statuses an operation may answer, and what a
status other than `Ok` leaves behind. -/

namespace Sys2Proof.Machine

/-! ## The status codes (R211) -/

/-- Settles O19: one code per status. -/
theorem statusCodesAreAsTabled : Obligations.StatusCodesAreAsTabled := by
  refine ⟨rfl, rfl, rfl, rfl, rfl, rfl, rfl, rfl, rfl, rfl, rfl, fun st => ?_⟩
  cases st <;> decide

/-! ## What a failed operation leaves (R225) -/

theorem LiveBuf.refl (c : CursorBuffer) : LiveBuf c c := ⟨rfl, rfl, rfl⟩

theorem liveSame_respond (s : State) (r : Response) : LiveSame s (s.respond r) :=
  ⟨fun b => by rw [State.buf_respond]; exact LiveBuf.refl _, rfl⟩

/-- Taking the next frame leaves the live part of the other three buffers (R115). -/
theorem nextFrame_liveBuf (s : State) (cap : Nat) :
    LiveBuf s.txr (nextFrame s cap).1.txr ∧ LiveBuf s.txf (nextFrame s cap).1.txf ∧
      LiveBuf s.rxr (nextFrame s cap).1.rxr := by
  obtain ⟨htxr, htxf, hrxr, -⟩ := nextFrame_frame s cap
  rw [htxr, htxf, hrxr]
  exact ⟨.refl _, .refl _, .refl _⟩

/-- The ways in which operation `i` can fail: without mutation outside the pairs of `failureMoves`, or as one of
the rows of the table of R225. -/
inductive FailureEnd (s : State) : Instr → State × Response → Prop
  /-- No mutation. -/
  | same (i : Instr) (r : Response) (hno : failureMoves i r.status = false) : FailureEnd s i (s, r)
  /-- A stream Reader that discards stream bytes without a frame to take. -/
  | stream (i : Instr) (cap : Nat) (hi : (isFrRead i || isCpLoad i) = true)
      (hmove : StreamDiscarded s (nextFrame s cap).1) :
      FailureEnd s i ((nextFrame s cap).1, failWith .missingTerminator)
  /-- `FR.READ` of a frame that does not decode. -/
  | frRead (dcap : Word) (e : Status) (he : e = .sourceTooShort ∨ e = .destTooShort)
      (hmove : FrameDiscarded s (nextFrame s dcap.toNat).1) :
      FailureEnd s (.frRead dcap) ((nextFrame s dcap.toNat).1, failWith e)
  /-- `CP.LOAD` of a frame that does not decode. -/
  | cpLoad (e : Status) (he : e = .sourceTooShort ∨ e = .destTooShort)
      (hmove : FrameDiscarded s (nextFrame s s.caps.rxr).1) :
      FailureEnd s .cpLoad
        ((nextFrame s s.caps.rxr).1.setBuf .rxr (resetCursors (nextFrame s s.caps.rxr).1.rxr), failWith e)
  /-- `CP.READ` of a record that is unknown or malformed. -/
  | cpRead (dcap : Word) (rec : ParsedRecord) (hparse : tlvParse .w8 (window s.rxr) dcap.toNat = .ok rec)
      (hclass : classify rec.tag rec.value.length = .unknownTag ∨
        classify rec.tag rec.value.length = .invalidEncoding) :
      FailureEnd s (.cpRead dcap) (consumeResult s (cpReadResult (.ok rec)))

/-- A stream Reader that ends where a failed `NextFrame` ends is a failure of R225, or the frame did not decode. -/
theorem failureEnd_of_nextFrame {i : Instr} {s : State} {cap : Nat} {e : Status}
    (hi : (isFrRead i || isCpLoad i) = true) (hf : (nextFrame s cap).2 = .error e) :
    FailureEnd s i ((nextFrame s cap).1, failWith e) ∨
      (e = .sourceTooShort ∨ e = .destTooShort) ∧ FrameDiscarded s (nextFrame s cap).1 := by
  rcases nextFrame_error s cap e hf with ⟨rfl, hsame⟩ | ⟨rfl, hmove⟩ | hcorrupt
  · rw [hsame]
    exact .inl (.same i _ rfl)
  · exact .inl (.stream i cap hi hmove)
  · exact .inr hcorrupt

/-- Every shape an operation can end in with a status other than `Ok` is a failure as R225 lists it. -/
theorem shape_failureEnd {i : Instr} {s : State} {p : State × Response} (h : Shape i s p)
    (hne : p.2.status ≠ .ok) : FailureEnd s i p := by
  cases h with
  | stay r hr =>
    obtain ⟨-, hno⟩ := hr.resolve_left hne
    exact .same i r hno
  | take b n r hfit hwho hr => exact absurd hr hne
  | read dcap rec hi hp hfit =>
    subst hi
    exact .cpRead dcap rec hp ((classify_cases _ _).resolve_left hne)
  | frame dcap hi =>
    subst hi
    rcases hf : (nextFrame s dcap.toNat).2 with e | out
    · rcases failureEnd_of_nextFrame (i := .frRead dcap) rfl hf with hend | ⟨he, hmove⟩
      · exact hend
      · exact .frRead dcap e he hmove
    · exact absurd (congrArg (fun out => (deliver out).status) hf) hne
  | loadNone e hi he hf =>
    subst hi
    rcases failureEnd_of_nextFrame (i := .cpLoad) rfl hf with hend | ⟨hcorrupt, -⟩
    · exact hend
    · rcases he with rfl | rfl <;> rcases hcorrupt with hst | hst <;> cases hst
  | loadBad e hi he hf =>
    subst hi
    obtain ⟨hincomplete, hmissing⟩ := he
    rcases nextFrame_error s _ e hf with ⟨hnone, -⟩ | ⟨hnone, -⟩ | ⟨hcorrupt, hmove⟩
    · exact absurd hnone hincomplete
    · exact absurd hnone hmissing
    · exact .cpLoad e hcorrupt hmove
  | grow | compact | reset | finish | load => exact absurd rfl hne

/-- A failure outside the pairs of R225 leaves the state as it was. -/
theorem FailureEnd.eq_of_not_moves {s : State} {i : Instr} {p : State × Response} (h : FailureEnd s i p)
    (hno : failureMoves i p.2.status = false) : p.1 = s := by
  cases h with
  | same => rfl
  | stream i cap hi => exact absurd (hi.symm.trans hno) nofun
  | frRead dcap e he | cpLoad e he => rcases he with rfl | rfl <;> cases hno
  | cpRead dcap rec hparse hclass =>
    change failureMoves (.cpRead dcap) (classify rec.tag rec.value.length) = false at hno
    rcases hclass with hclass | hclass <;> rw [hclass] at hno <;> cases hno

/-- `MissingTerminator` discards stream bytes and leaves the other three buffers (R115, R190). -/
theorem FailureEnd.of_missingTerminator {s : State} {i : Instr} {p : State × Response} (h : FailureEnd s i p)
    (hi : (isFrRead i || isCpLoad i) = true) (hst : p.2.status = .missingTerminator) :
    StreamDiscarded s p.1 ∧ LiveBuf s.txr p.1.txr ∧ LiveBuf s.txf p.1.txf ∧ LiveBuf s.rxr p.1.rxr := by
  cases h with
  | same i r hno =>
    rw [hst] at hno
    exact absurd (hi.symm.trans hno) nofun
  | stream i cap _ hmove => exact ⟨hmove, nextFrame_liveBuf s cap⟩
  | frRead dcap e he | cpLoad e he => rcases he with rfl | rfl <;> cases hst
  | cpRead => cases hi

theorem FailureEnd.of_frRead_corrupt {s : State} {dcap : Word} {p : State × Response}
    (h : FailureEnd s (.frRead dcap) p) (hst : p.2.status = .sourceTooShort ∨ p.2.status = .destTooShort) :
    FrameDiscarded s p.1 ∧ LiveBuf s.txr p.1.txr ∧ LiveBuf s.txf p.1.txf ∧ LiveBuf s.rxr p.1.rxr := by
  cases h with
  | same _ r hno => rcases hst with hst | hst <;> rw [hst] at hno <;> cases hno
  | stream => rcases hst with hst | hst <;> cases hst
  | frRead _ e he hmove => exact ⟨hmove, nextFrame_liveBuf s _⟩

theorem FailureEnd.of_cpLoad_corrupt {s : State} {p : State × Response} (h : FailureEnd s .cpLoad p)
    (hst : p.2.status = .sourceTooShort ∨ p.2.status = .destTooShort) :
    FrameDiscarded s p.1 ∧ LiveBuf s.txr p.1.txr ∧ LiveBuf s.txf p.1.txf ∧
      p.1.rxr.head = 0 ∧ p.1.rxr.tail = 0 := by
  cases h with
  | same _ r hno => rcases hst with hst | hst <;> rw [hst] at hno <;> cases hno
  | stream => rcases hst with hst | hst <;> cases hst
  | cpLoad e he hmove =>
    obtain ⟨htxr, htxf, -⟩ := nextFrame_liveBuf s s.caps.rxr
    exact ⟨hmove, htxr, htxf, rfl, rfl⟩

/-- `UnknownTag` and `InvalidEncoding` are the class of a record that was parsed and is delivered (R191). -/
theorem FailureEnd.of_cpRead_classified {s : State} {dcap : Word} {p : State × Response}
    (h : FailureEnd s (.cpRead dcap) p) (hst : p.2.status = .unknownTag ∨ p.2.status = .invalidEncoding) :
    ∃ rec, tlvParse .w8 (window s.rxr) dcap.toNat = .ok rec ∧ p = consumeResult s (cpReadResult (.ok rec)) := by
  cases h with
  | same _ r hno => rcases hst with hst | hst <;> rw [hst] at hno <;> cases hno
  | stream _ cap hi => cases hi
  | cpRead _ rec hparse => exact ⟨rec, hparse, rfl⟩

/-- Settles O12: a failure is one of the ends of `FailureEnd`, and the operation and status of each clause say
which. -/
theorem failuresLeaveOnlyListedChanges : Obligations.FailuresLeaveOnlyListedChanges := by
  intro i s t r hexec hr hne
  obtain ⟨p, hshape, rfl⟩ := exec_eq_next i s t hexec
  obtain rfl := response_of_complete rfl hr
  have hend := shape_failureEnd hshape hne
  refine ⟨fun hno => ?_, ?_, ?_, ?_, ?_, ?_⟩
  · rw [hend.eq_of_not_moves hno]
    exact liveSame_respond s _
  · rintro dcap rfl hst
    exact hend.of_frRead_corrupt hst
  · rintro dcap rfl hst
    exact hend.of_missingTerminator rfl hst
  · rintro rfl hst
    exact hend.of_cpLoad_corrupt hst
  · rintro rfl hst
    exact hend.of_missingTerminator rfl hst
  · rintro dcap rfl hst
    obtain ⟨rec, hparse, rfl⟩ := hend.of_cpRead_classified hst
    obtain ⟨hconsumed, hvalue, -, -⟩ := tlvParse_bounds .w8 _ _ rec hparse
    exact ⟨rec, hparse, rfl, rfl, window_advance s.rxr rec.consumed, wordOf_toNat _ (tlvParse_tag_lt hparse),
      wordOf_toNat_of_le hvalue, fun hs => hs.wordOf_toNat_of_le_window hconsumed, rfl, rfl,
      .refl _, .refl _, .refl _, rfl⟩

/-! ## The statuses an operation may answer (R212 to R222) -/

section MayAnswer

variable {i : Instr} {s : State}

theorem mayAnswer_appendResult {b : BufId} {built : Except Status (List Byte)}
    (hshort : raisesBufferTooShort i = true) (herror : ∀ e, built = .error e → mayAnswer i e = true) :
    mayAnswer i (appendResult s b built).2.status = true := by
  rcases appendResult_cases s b built with ⟨e, hbuilt, h⟩ | ⟨bytes, -, -, h⟩ | ⟨bytes, -, -, h⟩ <;> rw [h]
  · exact herror e hbuilt
  · exact hshort
  · rfl

/-- A writer that can only reject its operand for its range (R220). -/
theorem mayAnswer_rangeWriter {b : BufId} {built : Except Status (List Byte)} {inRange : Prop}
    [Decidable inRange] {bytes : List Byte} (hbuilt : built = if inRange then .ok bytes else .error .outOfRange)
    (hshort : raisesBufferTooShort i = true) (hrange : inRange ∨ raisesOutOfRange i = true) :
    mayAnswer i (appendResult s b built).2.status = true := by
  refine mayAnswer_appendResult hshort fun e he => ?_
  rw [hbuilt] at he
  split at he
  · cases he
  next hout =>
    cases he
    exact hrange.resolve_left hout

/-- A reader that answers `Ok` for whatever it parses. -/
theorem mayAnswer_reader {parsed : Except Status (Nat × Response)}
    (hok : ∀ n r, parsed = .ok (n, r) → r.status = .ok)
    (herror : ∀ e, parsed = .error e → mayAnswer i e = true) :
    mayAnswer i (consumeResult s parsed).2.status = true := by
  rcases consumeResult_cases s parsed with ⟨e, hparsed, h⟩ | ⟨n, r, hparsed, h⟩ <;> rw [h]
  · exact herror e hparsed
  · rw [hok n r hparsed]
    rfl

/-- A narrow form rejects a byte only for its reserved bits (R76, R142 to R144). -/
theorem mayAnswer_narrowReader {form : Byte → Except Status Word} {inRange : Byte → Prop}
    [DecidablePred inRange] {value : Byte → Word} {w : List Byte}
    (hform : ∀ b, form b = if inRange b then .ok (value b) else .error .outOfRange)
    (hincomplete : raisesIncomplete i = true) (hrange : raisesOutOfRange i = true) :
    mayAnswer i (consumeResult s (narrowRead form w)).2.status = true := by
  cases w with
  | nil => exact hincomplete
  | cons b rest =>
    rw [narrowRead, hform]
    by_cases hin : inRange b
    · rw [if_pos hin]
      rfl
    · rw [if_neg hin]
      exact hrange

theorem mayAnswer_deliver {out : Except Status (List Byte)} (herror : ∀ e, out = .error e → mayAnswer i e = true) :
    mayAnswer i (deliver out).status = true := by
  cases out with
  | error e => exact herror e rfl
  | ok bytes => rfl

end MayAnswer

/-! ### The statuses of a parse that failed -/

theorem u32Result_error {w : List Byte} {e : Status} (h : u32Result w = .error e) :
    e = .incomplete ∨ e = .outOfRange := by
  rcases hdec : decU32 w with e' | ⟨v, k⟩ <;> rw [u32Result, hdec] at h <;> cases h
  exact decU32_error w _ hdec

theorem i32Result_error {w : List Byte} {e : Status} (h : i32Result w = .error e) :
    e = .incomplete ∨ e = .outOfRange := by
  rcases hdec : decI32 w with e' | ⟨v, k⟩ <;> rw [i32Result, hdec] at h <;> cases h
  exact decI32_error w _ hdec

theorem tlvResult_error {n : LenWidth} {w : List Byte} {dcap : Nat} {e : Status}
    (h : tlvResult (tlvParse n w dcap) = .error e) : e = .incomplete ∨ e = .outOfRange ∨ e = .destTooShort := by
  rcases hparse : tlvParse n w dcap with e' | rec <;> rw [hparse, tlvResult] at h <;> cases h
  exact tlvParse_error n w dcap _ hparse

theorem atlvResult_error {n : LenWidth} {w : List Byte} {dcap acap : Nat} {e : Status}
    (h : atlvResult (atlvParse n w dcap acap) = .error e) :
    e = .incomplete ∨ e = .outOfRange ∨ e = .destTooShort := by
  rcases hparse : atlvParse n w dcap acap with e' | rec <;> rw [hparse, atlvResult] at h <;> cases h
  exact atlvParse_error n w dcap acap _ hparse

/-- A byte string of R60 is no longer than a 32-bit length field can count (R150). -/
theorem shortString_iff (d : List Byte) : shortString d = true ↔ d.length ≤ maxLen .w32 :=
  decide_eq_true_iff.trans (Nat.le_sub_one_iff_lt (by decide)).symm

/-- Every operation of R60 ends with a status that lists it among its raisers. -/
theorem exec_mayAnswer (i : Instr) (s : State) (hw : i.wellFormed = true) :
    ∃ p, exec i s = complete p ∧ mayAnswer i p.2.status = true := by
  cases i with
  | sysReset | cbStat _ | cbDrain _ _ => exact ⟨_, rfl, rfl⟩
  | cbAdvance _ _ | cbCompact _ =>
    refine ⟨_, rfl, ?_⟩
    split <;> rfl
  | cbExtend _ _ | frWrite _ | viWu32 _ | viWi32 _ => exact ⟨_, rfl, mayAnswer_appendResult rfl nofun⟩
  | frEnc src dcap =>
    refine ⟨_, rfl, mayAnswer_deliver fun e h => ?_⟩
    rw [cobsEnc] at h
    split at h <;> cases h
    rfl
  | frDec src dcap =>
    refine ⟨_, rfl, mayAnswer_deliver fun e h => ?_⟩
    rcases cobsDec_error _ _ _ h with rfl | rfl | rfl <;> rfl
  | frRead dcap =>
    refine ⟨_, rfl, mayAnswer_deliver fun e h => ?_⟩
    rcases nextFrame_error s _ e h with ⟨rfl, -⟩ | ⟨rfl, -⟩ | ⟨rfl | rfl, -⟩ <;> rfl
  | cpLoad =>
    rcases hf : nextFrame s s.caps.rxr with ⟨t, e | payload⟩
    · have herror := nextFrame_error s s.caps.rxr e (congrArg Prod.snd hf)
      rcases herror with ⟨rfl, -⟩ | ⟨rfl, -⟩ | ⟨hcorrupt, -⟩
      · exact ⟨_, exec_cpLoad_of_no_frame (.inl rfl) hf, rfl⟩
      · exact ⟨_, exec_cpLoad_of_no_frame (.inr rfl) hf, rfl⟩
      · refine ⟨_, exec_cpLoad_of_corrupt hcorrupt hf, ?_⟩
        rcases hcorrupt with rfl | rfl <;> rfl
    · exact ⟨_, exec_cpLoad_of_frame hf, rfl⟩
  | cpFinish =>
    refine ⟨_, rfl, ?_⟩
    split <;> rfl
  | viWu1 value => exact ⟨_, rfl, mayAnswer_rangeWriter (u1Operand_eq value) rfl (.inr rfl)⟩
  | viWu7 value => exact ⟨_, rfl, mayAnswer_rangeWriter (u7Operand_eq value) rfl (.inr rfl)⟩
  | viWi7 value => exact ⟨_, rfl, mayAnswer_rangeWriter (i7Operand_eq value) rfl (.inr rfl)⟩
  | tlvW8 _ _ | tlvW16 _ _ => exact ⟨_, rfl, mayAnswer_rangeWriter (tlvEnc_eq ..) rfl (.inr rfl)⟩
  | tlvW32 _ value =>
    exact ⟨_, rfl, mayAnswer_rangeWriter (tlvEnc_eq ..) rfl (.inl ((shortString_iff value).mp hw))⟩
  | atlvW8 _ _ _ | atlvW16 _ _ _ => exact ⟨_, rfl, mayAnswer_rangeWriter (atlvEnc_eq ..) rfl (.inr rfl)⟩
  | atlvW32 _ value addr =>
    obtain ⟨hvalue, haddr⟩ := Bool.and_eq_true_iff.mp hw
    exact ⟨_, rfl, mayAnswer_rangeWriter (atlvEnc_eq ..) rfl
      (.inl ⟨(shortString_iff addr).mp haddr, (shortString_iff value).mp hvalue⟩)⟩
  | cpExit status => exact ⟨_, rfl, mayAnswer_rangeWriter (exitRecord_eq status) rfl (.inr rfl)⟩
  | cpBoot _ | cpRun _ | cpException _ | cpPanic _ | cpStdin _ | cpStdout _ | cpStderr _ | cpError _
  | cpWarn _ | cpInfo _ | cpDebug _ | cpTrace _ | cpVal _ | cpGet _ | cpSet _ =>
    exact ⟨_, rfl, mayAnswer_rangeWriter (messageRecord_eq ..) rfl (.inr rfl)⟩
  | viRu32 =>
    refine ⟨_, rfl, mayAnswer_reader (fun n r h => ?_) fun e h => ?_⟩
    · obtain ⟨-, hstatus, -⟩ := u32Result_bounds _ n r h
      exact hstatus
    · rcases u32Result_error h with rfl | rfl <;> rfl
  | viRi32 =>
    refine ⟨_, rfl, mayAnswer_reader (fun n r h => ?_) fun e h => ?_⟩
    · obtain ⟨-, hstatus, -⟩ := i32Result_bounds _ n r h
      exact hstatus
    · rcases i32Result_error h with rfl | rfl <;> rfl
  | viRu1 => exact ⟨_, rfl, mayAnswer_narrowReader u1Byte_eq rfl rfl⟩
  | viRu7 => exact ⟨_, rfl, mayAnswer_narrowReader u7Byte_eq rfl rfl⟩
  | viRi7 => exact ⟨_, rfl, mayAnswer_narrowReader i7Byte_eq rfl rfl⟩
  | tlvR8 _ | tlvR16 _ | tlvR32 _ =>
    refine ⟨_, rfl, mayAnswer_reader (fun n r h => ?_) fun e h => ?_⟩
    · obtain ⟨-, hstatus, -⟩ := tlvResult_bounds _ _ _ n r h
      exact hstatus
    · rcases tlvResult_error h with rfl | rfl | rfl <;> rfl
  | atlvR8 _ _ | atlvR16 _ _ | atlvR32 _ _ =>
    refine ⟨_, rfl, mayAnswer_reader (fun n r h => ?_) fun e h => ?_⟩
    · obtain ⟨-, hstatus, -⟩ := atlvResult_bounds _ _ _ _ n r h
      exact hstatus
    · rcases atlvResult_error h with rfl | rfl | rfl <;> rfl
  | cpRead dcap =>
    refine ⟨_, exec_cpRead dcap s, ?_⟩
    rcases hparse : tlvParse .w8 (window s.rxr) dcap.toNat with e | rec
    · rcases tlvParse_error _ _ _ e hparse with rfl | rfl | rfl <;> rfl
    · change mayAnswer (.cpRead dcap) (classify rec.tag rec.value.length) = true
      rcases classify_cases rec.tag rec.value.length with hclass | hclass | hclass <;> rw [hclass] <;> rfl

/-- Settles O15: every operation of R60 ends with a status that lists it (`exec_mayAnswer`), and that status is the
one the host receives. -/
theorem onlyListedStatusesAreRaised : Obligations.OnlyListedStatusesAreRaised := by
  intro i s t r hw hexec hr
  obtain ⟨p, hp, hmay⟩ := exec_mayAnswer i s hw
  rw [hp] at hexec
  obtain rfl := response_of_complete hexec hr
  exact hmay

end Sys2Proof.Machine
